-- ==== Sys2Proof/Config.lean ====
section
/-! DEFINITION. What an implementation fixes: the structural constants of `00_scope.md` R7 and the
parameters of R8 (`WEIGHT_WIDTH`, `PORT_MAP`). -/

namespace Sys2Proof.Config

/-- The default of `WEIGHT_WIDTH` (R8, D10), which the machine `State.reset` is built with. The width itself
is an argument of the model: each machine holds its own (`Arena.weightWidth`, assumption 1). -/
def defaultWeightWidth : Nat := 64

/-- `ALPHABET` (R7): how many byte values there are. -/
abbrev alphabet : Nat := 256

/-- `MERGES` (R7): how many merges build the tree. -/
abbrev merges : Nat := 255

/-- `TREE_BYTES` (R7): the length of a tree encoding. -/
abbrev treeBytes : Nat := 510

/-- `NODES` (R7): 256 leaves and 255 internal nodes. -/
abbrev nodes : Nat := 511

/-- `MIN_CODE_LEN` (R7). -/
abbrev minCodeLen : Nat := 1

/-- `MAX_CODE_LEN` (R7). It is also how deep a tree walk can nest (R151). -/
abbrev maxCodeLen : Nat := 255

/-- `PBUF_MAX` (R7): 7 leftover bits and 255 of one code. -/
abbrev pbufMax : Nat := 262

/-- The engine's six ports (R51). -/
inductive Port where
  | inStream
  | treeStream
  | outStream
  | cmd
  | status
  | errinfo
  deriving DecidableEq, Repr

/-- `PORT_MAP` (R61, D2, I17): where, and whether, a host maps each port. The spec leaves it open and
says that no rule depends on it, so it has no body and nothing in the model reads it (assumption 2). -/
opaque portMap : Port → Option Nat

end Sys2Proof.Config
end

