-- ==== Sys2Proof/Word.lean ====
section
/-! DEFINITION. The engine's data: bytes, words, node indices and bit-strings (`00_scope.md` R9 and
R10). A weight is a natural number, the unsigned integer R9 calls it. The registers that hold one are
`WEIGHT_WIDTH` bits wide, and `Arena.fit` says what a write to one keeps. -/

namespace Sys2Proof

/-- A stream element, a slot index or a byte value (R9). -/
abbrev Byte := BitVec 8

/-- A value of a word port (R9). -/
abbrev Word := BitVec 32

/-- A node index, 0..510, or `EMPTY` = 511 (R31, R46). -/
abbrev NodeIdx := BitVec 9

/-- A bit-string, element 0 first (R10). -/
abbrev BitString := List Bool

end Sys2Proof
end

