-- ==== Sys2Proof/Syntax.lean ====
section
/-! DEFINITION. The engine's commands (`30_encoding.md` R72, R73). A command has no operand fields: its
operands are the streams, bound by role. -/

namespace Sys2Proof

/-- The four commands, one constructor a row of `spec/opcode_table.json` (R72, R201). -/
inductive Instr where
  /-- `BUILD_TREE`: `IN` is a data stream, `OUT` receives the tree file (R192). -/
  | buildTree
  /-- `ENCODE`: `IN` is a data stream read twice, `OUT` receives the encoded file (R193). -/
  | encode
  /-- `DECODE`: `IN` is an encoded file, `OUT` receives the data (R194). -/
  | decode
  /-- `ENCODE_EXT`: `TREE` begins with a tree encoding, `IN` is a data stream, `OUT` receives the
  encoded file (R195). -/
  | encodeExt
  deriving DecidableEq, Repr

end Sys2Proof
end

