-- ==== Sys2Proof/WellFormed.lean ====
section
/-! DEFINITION. What is well formed: a command, a command word (`30_encoding.md` R71, R72, R75, R76) and
a tree encoding (R80, R81), each as a check that runs. -/

namespace Sys2Proof

/-- A command carries no operand, so every command is well formed (R73). -/
def Instr.wellFormed : Instr → Bool
  | .buildTree => true
  | .encode => true
  | .decode => true
  | .encodeExt => true

/-- The `RSVD` check: bits 31:8 of a command word are 0 (R71, R76). -/
def reservedClear (c : Word) : Bool := c.extractLsb' 8 24 == 0#24

/-- The `OP` check: bits 7:0 name one of the four commands (R72, R75). -/
def opcodeLegal (c : Word) : Bool :=
  [0x01#8, 0x02#8, 0x03#8, 0x04#8].contains (c.extractLsb' 0 8)

/-- A command word is legal when both checks pass (R74). -/
def wellFormedWord (c : Word) : Bool := reservedClear c && opcodeLegal c

/-- Low index of merge `k` in a tree encoding (R80). -/
def loIndex (t : List Byte) (k : Nat) : Byte := t.getD (2 * k) 0

/-- High index of merge `k` in a tree encoding (R80). -/
def hiIndex (t : List Byte) (k : Nat) : Byte := t.getD (2 * k + 1) 0

/-- `Q_k`: the slots cleared before merge `k` (R81). -/
def clearedBefore (t : List Byte) (k : Nat) : List Byte := (List.range k).map (hiIndex t)

/-- Conditions 1 and 2 of R81: neither slot of pair `k` is empty. -/
def pairSlotsFull (t : List Byte) (k : Nat) : Bool :=
  !(clearedBefore t k).contains (loIndex t k) && !(clearedBefore t k).contains (hiIndex t k)

/-- Condition 3 of R81: the low index is below the high one. -/
def pairOrdered (t : List Byte) (k : Nat) : Bool := decide (loIndex t k < hiIndex t k)

/-- The length check of a tree encoding (R80). -/
def treeLengthOk (t : List Byte) : Bool := t.length == Config.treeBytes

/-- An accepted tree encoding (R81): 510 bytes whose every pair passes the three conditions. -/
def wellFormedTree (t : List Byte) : Bool :=
  treeLengthOk t && (List.range Config.merges).all fun k => pairSlotsFull t k && pairOrdered t k

end Sys2Proof
end

