-- ==== Sys2Proof/Decode.lean ====
section
/-! DEFINITION. The command word: decoding, total and rejecting by name (`30_encoding.md` R70, R71, R74
to R77), then encoding (R72), then the assembler's spellings (R78). -/

namespace Sys2Proof

/-- Why a word is no command (R74). The engine reports both as `ILLEGAL_COMMAND`. -/
inductive DecodeError where
  /-- `RSVD` is not 0 (R76). -/
  | reservedField
  /-- `OP` is 0x00 or 0x05..0xFF (R75). -/
  | reservedOpcode
  deriving DecidableEq, Repr

/-- The `OP` field, bits 7:0 (R71). -/
def opField (c : Word) : Byte := c.extractLsb' 0 8

/-- The `RSVD` field, bits 31:8 (R71). -/
def rsvdField (c : Word) : BitVec 24 := c.extractLsb' 8 24

/-- The opcode map read from left to right (R72). -/
def instrOfOpcode (op : Byte) : Option Instr :=
  if op = 0x01#8 then some .buildTree
  else if op = 0x02#8 then some .encode
  else if op = 0x03#8 then some .decode
  else if op = 0x04#8 then some .encodeExt
  else none

/-- Decoding (R74): total, and the same in every state (R77). -/
def decode (c : Word) : Except DecodeError Instr :=
  if rsvdField c = 0#24 then
    match instrOfOpcode (opField c) with
    | some i => .ok i
    | none => .error .reservedOpcode
  else .error .reservedField

/-- The opcode map read from right to left (R72). -/
def opcodeOf : Instr → Byte
  | .buildTree => 0x01#8
  | .encode => 0x02#8
  | .decode => 0x03#8
  | .encodeExt => 0x04#8

/-- A command's one legal word: `RSVD` = 0, then `OP` (R71, R72). -/
def encode (i : Instr) : Word := 0#24 ++ opcodeOf i

/-- The instruction the decoder reads from the `nbits` low bits of `w`, every higher bit 0. The engine
takes whole 32-bit words (R58, R70), so bit 0 of the table is bit 0 of `CMD`. -/
def decodeTableWord (nbits w : Nat) : Option Instr :=
  match decode (BitVec.ofNat 32 (w % 2 ^ nbits)) with
  | .ok i => some i
  | .error _ => none

/-- The four mnemonics and the source's own spellings of them (R78). -/
def instrOfMnemonic (name : String) : Option Instr :=
  if name = "BUILD_TREE" || name = "build-tree" then some .buildTree
  else if name = "ENCODE" || name = "encode" then some .encode
  else if name = "DECODE" || name = "decode" then some .decode
  else if name = "ENCODE_EXT" || name = "encode-with-external-tree" then some .encodeExt
  else none

/-- A line of an assembler program (R78). -/
inductive AsmLine where
  | mnemonic (name : String)
  | dotWord (c : Word)
  deriving DecidableEq, Repr

/-- The word a line writes to `CMD`; none where the mnemonic is not one of R78's. -/
def asmWord : AsmLine → Option Word
  | .mnemonic name => (instrOfMnemonic name).map encode
  | .dotWord c => some c

end Sys2Proof
end

