-- ==== Sys2Proof/Machine/State.lean ====
section
/-! DEFINITION. The machine's state as plain data (`10_state.md`), the ports (`20_memory.md`), the host's
pending actions (`70_reset_and_hazards.md` R251), the reasons to stop, and the state after reset. -/

namespace Sys2Proof.Machine

/-- `STATUS.STATE` (R23, R27). -/
inductive EngState where
  | idle
  | busy
  | done
  | error
  deriving DecidableEq, Repr

/-- `STATUS.ERR` by name (R210). The codes 7..15 have no name, so they cannot be produced. -/
inductive ErrCode where
  | none
  | truncatedTree
  | malformedEmptySlot
  | malformedPairOrder
  | padUnavailable
  | weightOverflow
  | illegalCommand
  deriving DecidableEq, Repr

/-- `PHASE`, the sequencer's counterpart of a program counter (R24). -/
inductive Phase where
  | idle
  | acc
  | build
  | ser
  | deserRead
  | deserReplay
  | derive
  | pack
  | pad
  | unpack
  deriving DecidableEq, Repr

/-- The working state of construction and of the tree codec (R31 to R38, R42). -/
structure Arena where
  /-- `WEIGHT_WIDTH` (R8, D10): the width of `TOTAL` and of every `W[n]`, an argument of the model. The machine is
  built with it, and nothing the machine does changes it (assumption 1). -/
  weightWidth : Nat
  /-- `LEFT[n]` for `n` = 256..510, stored at `n - 256` (R32). -/
  left : Vector NodeIdx Config.merges
  /-- `RIGHT[n]`, stored as `left` is (R32). -/
  right : Vector NodeIdx Config.merges
  /-- `W[n]` for `n` = 0..510, `WEIGHT_WIDTH` bits each (R33). -/
  w : Vector Nat Config.nodes
  /-- `TOTAL`, `WEIGHT_WIDTH` bits (R34). -/
  total : Nat
  /-- `SLOT[i]` (R35). -/
  slot : Vector NodeIdx Config.alphabet
  /-- `K` (R36). -/
  k : BitVec 8
  /-- `MSEQ[j]` (R37). -/
  mseq : Vector Byte Config.treeBytes
  /-- `TCNT` (R42). -/
  tcnt : BitVec 10
  /-- `ROOT` (R38). -/
  root : NodeIdx
  deriving DecidableEq, Repr

/-- The code table (R39). `CODE[v]` is a bit-string, element 0 first (D28 lets a model choose). -/
structure CodeTable where
  code : Vector BitString Config.alphabet
  len : Vector (BitVec 8) Config.alphabet
  deriving DecidableEq, Repr

/-- An input port's stream, as delivered so far (R52, R67). `taken ++ ahead` is the sequence, and the
read position is the length of `taken`. -/
structure InPort where
  taken : List Byte
  ahead : List Byte
  /-- The host has signalled that nothing follows `ahead`. -/
  ended : Bool
  deriving DecidableEq, Repr

/-- How many more bytes the host accepts on `OUT` (R55). -/
inductive OutReady where
  | always
  | upTo (n : Nat)
  deriving DecidableEq, Repr

/-- A visible event of a command (R56). `none` is `EOS`. -/
inductive PortEvent where
  | inRead (r : Option Byte)
  | inRewind
  | treeRead (r : Option Byte)
  | outWrite (b : Byte)
  | stateFinal (e : EngState)
  deriving DecidableEq, Repr

/-- How a running command has ended when only the final `STATUS` update is still to come (R247). -/
inductive Verdict where
  | finished
  | raised (e : ErrCode) (info : BitVec 16)
  deriving DecidableEq, Repr

/-- What a host may do (R251), one action a step. -/
inductive HostAct where
  /-- Write `CMD`, and nothing more: acceptance, drop or `ILLEGAL_COMMAND` (R190, R191, R247). -/
  | cmdWrite (c : Word)
  /-- Write `CMD` and let the engine run as far as its ports allow (the big step of R14). -/
  | command (c : Word)
  /-- Let the engine take one small step (R247). -/
  | engine
  /-- Poll `STATUS` until `STATE` is not `BUSY` (R250). -/
  | awaitEnd
  /-- Write `STATUS`; ignored (R23, R60). -/
  | statusWrite (v : Word)
  /-- Write `ERRINFO`; ignored (R26, R60). -/
  | errinfoWrite (v : Word)
  /-- Read `STATUS` (R60). -/
  | statusRead
  /-- Read `ERRINFO` (R60). -/
  | errinfoRead
  /-- Restart `IN` with a stream at its first byte, delivered as far as `bytes` (R243). -/
  | inOpen (bytes : List Byte) (ended : Bool)
  /-- Deliver more of `IN`. -/
  | inFeed (bytes : List Byte)
  /-- Signal the end of `IN`. -/
  | inEnd
  /-- Restart `TREE` with a stream at its first byte, delivered as far as `bytes` (R243). -/
  | treeOpen (bytes : List Byte) (ended : Bool)
  /-- Deliver more of `TREE`. -/
  | treeFeed (bytes : List Byte)
  /-- Signal the end of `TREE`. -/
  | treeEnd
  /-- Say how many more bytes `OUT` accepts. -/
  | outReady (r : OutReady)
  /-- Assert reset (R240, R241). -/
  | reset
  deriving DecidableEq, Repr

/-- The whole state. -/
structure State where
  /-- `STATUS.STATE` (R23, R27). -/
  status : EngState
  /-- `STATUS.OVR` (R23, R29). -/
  ovr : Bool
  /-- `STATUS.ERR` (R23, R28). -/
  err : ErrCode
  /-- `STATUS.LAST_OP` (R23, R30). -/
  lastOp : BitVec 8
  /-- `ERRINFO.INFO` (R26, R28). -/
  info : BitVec 16
  /-- `PHASE` (R24). -/
  phase : Phase
  /-- `OPC` (R25). -/
  opc : Instr
  /-- The tree's working state (R31 to R38, R42). -/
  arena : Arena
  /-- `CODE` and `LEN` (R39). -/
  table : CodeTable
  /-- `PBUF` (R40); `PLEN` is its length. -/
  pbuf : BitString
  /-- `CUR` (R41). -/
  cur : NodeIdx
  /-- The model's own: the loop variable `j` of SERIALIZE (R130). -/
  serIdx : Nat
  /-- The model's own: the bits of the byte UNPACK is in that are still to be walked (R180). -/
  bits : BitString
  /-- The model's own: the outcome that the final `STATUS` update will show (R247). -/
  pend : Option Verdict
  /-- Port `IN` (R51). -/
  inp : InPort
  /-- Port `TREE` (R51). -/
  tree : InPort
  /-- Port `OUT`: the bytes accepted from the last accepted `CMD` write on (R55, R67). -/
  out : List Byte
  /-- Whether the host accepts bytes on `OUT` (R55). -/
  outReady : OutReady
  /-- The model's own: the port events from the last accepted `CMD` write on, newest first (R56). -/
  trace : List PortEvent
  /-- The value the last host read of a word port returned, none before the first (R60). -/
  readData : Option Word
  /-- What the host will do next, in order (R2, R251). -/
  host : List HostAct
  deriving DecidableEq, Repr

/-- Why the machine stops. All three are safe: the spec gives no behaviour in these states, and no run
from reset reaches them (`Sys2Proof.Safety`). -/
inductive Fault where
  /-- BUILD found fewer than two non-empty slots (R112 says this cannot be). Raised by a merge. -/
  | forestExhausted
  /-- DERIVE met a missing child or nested deeper than 255 (R151, R153). Raised by the tree walk. -/
  | brokenArena
  /-- `PHASE` is not a phase of the running command (R24, R196), or a merge loop is past its end.
  Raised by the small step. -/
  | strayPhase
  deriving DecidableEq, Repr

/-- Why an instruction has no meaning. -/
inductive Refusal where
  /-- Raised by `exec` for an instruction that is not modelled (safe). No arm raises it. -/
  | notModelled (mnemonic : String)
  deriving DecidableEq, Repr

/-- The tree's working state at reset, in a machine of this `WEIGHT_WIDTH`: every item 0. The spec leaves all
of it unspecified (R45), so this is a DESIGN CHOICE (assumption 3). -/
def Arena.reset (width : Nat) : Arena where
  weightWidth := width
  left := Vector.replicate _ 0
  right := Vector.replicate _ 0
  w := Vector.replicate _ 0
  total := 0
  slot := Vector.replicate _ 0
  k := 0
  mseq := Vector.replicate _ 0
  tcnt := 0
  root := 0

/-- The code table at reset: every entry empty. DESIGN CHOICE (assumption 3). -/
def CodeTable.reset : CodeTable where
  code := Vector.replicate _ []
  len := Vector.replicate _ 0

/-- A port on which nothing has been delivered yet and no end has been signalled (assumption 4). -/
def InPort.fresh : InPort where
  taken := []
  ahead := []
  ended := false

/-- The state after reset (R45, R240) of a machine of this `WEIGHT_WIDTH`: `STATUS` and `ERRINFO` 0 and `PHASE`
= `P_IDLE` are the spec's. The working state and `OPC`, which R45 leaves unspecified, are DESIGN CHOICE
(assumption 3), and the ports' and the model's own fields are assumption 4. -/
def State.resetAt (width : Nat) : State where
  status := .idle
  ovr := false
  err := .none
  lastOp := 0
  info := 0
  phase := .idle
  opc := .buildTree
  arena := Arena.reset width
  table := CodeTable.reset
  pbuf := []
  cur := 0
  serIdx := 0
  bits := []
  pend := none
  inp := InPort.fresh
  tree := InPort.fresh
  out := []
  outReady := .always
  trace := []
  readData := none
  host := []

/-- The state after reset of a machine of the default width (R8). -/
def State.reset : State := State.resetAt Config.defaultWeightWidth

end Sys2Proof.Machine
end

