-- ==== Sys2Proof/Machine/Flags.lean ====
section
/-! DEFINITION. The status words: how `STATUS` and `ERRINFO` are laid out and read, and every change of
their fields (`10_state.md` R23, R26 to R30; `60_exceptions.md` R210). -/

namespace Sys2Proof.Machine

/-- The code of `STATUS.STATE` (R23). -/
def stateCode : EngState → BitVec 2
  | .idle => 0
  | .busy => 1
  | .done => 2
  | .error => 3

/-- The code of an error (R210). -/
def errCode : ErrCode → BitVec 4
  | .none => 0
  | .truncatedTree => 1
  | .malformedEmptySlot => 2
  | .malformedPairOrder => 3
  | .padUnavailable => 4
  | .weightOverflow => 5
  | .illegalCommand => 6

/-- `STATUS` as the host reads it (R23): the reserved bits 31:24, 15:12 and 7:3 are hardwired 0. -/
def statusWord (s : State) : Word :=
  0#8 ++ s.lastOp ++ 0#4 ++ errCode s.err ++ 0#5 ++ BitVec.ofBool s.ovr ++ stateCode s.status

/-- `ERRINFO` as the host reads it (R26): bits 31:16 are hardwired 0. -/
def errinfoWord (s : State) : Word := 0#16 ++ s.info

/-- `STATUS.STATE` = `BUSY`. -/
def busy (s : State) : Bool := s.status == .busy

/-- The fields every `CMD` write that is not dropped sets (R28, R29, R30, R190), with the port lists of
the new command empty (R67). -/
def noteWrite (c : Word) (s : State) : State :=
  { s with lastOp := opField c, ovr := false, err := .none, info := 0, out := [], trace := [] }

/-- A dropped `CMD` write: `OVR` is set and nothing else changes (R29, R191). -/
def dropWrite (s : State) : State := { s with ovr := true }

end Sys2Proof.Machine
end

