-- ==== Sys2Proof/Machine/Ops.lean ====
section
/-! DEFINITION. The named operations: bit-strings, the internal arrays, the stream primitives, how a
phase ends, and the abort and completion of a command (`00_scope.md` R10, R11; `10_state.md` R31 to
R42; `20_memory.md` R52 to R55; `46_commands.md` R190; `60_exceptions.md` R220). -/

namespace Sys2Proof.Machine

/-! ### Bit-strings (R10) -/

/-- `bits8(B)`: the bits of a byte, bit 7 first. -/
def bits8 (b : Byte) : BitString :=
  [b.getLsbD 7, b.getLsbD 6, b.getLsbD 5, b.getLsbD 4,
   b.getLsbD 3, b.getLsbD 2, b.getLsbD 1, b.getLsbD 0]

/-- `pack8(s)`: the byte whose bit 7 is `s(0)`, bit 6 is `s(1)`, and so on. Every use is on 8 bits. -/
def pack8 (s : BitString) : Byte :=
  s.foldl (fun acc b => acc * 2#8 + (if b then 1#8 else 0#8)) 0#8

/-! ### The internal arrays -/

/-- An array given element by element. -/
def tabulate {α : Type} (n : Nat) (f : Nat → α) : Vector α n :=
  ⟨((List.range n).map f).toArray, by simp⟩

/-- The byte values 0..255 in increasing order, as every scan of the spec visits them. -/
def allBytes : List Byte := (List.range Config.alphabet).map (BitVec.ofNat 8)

/-- `EMPTY` = 511, the index that names no node (R31). -/
def emptySlot : NodeIdx := 0x1FF#9

/-- The leaf of byte value `v` is node `v` (R31). -/
def leafNode (v : Byte) : NodeIdx := v.setWidth 9

/-- The byte value of a leaf is its index (R31). -/
def leafByte (n : NodeIdx) : Byte := n.setWidth 8

/-- `IsLeaf(n)` is `n < 256` (R31). -/
def isLeaf (n : NodeIdx) : Bool := decide (n.toNat < Config.alphabet)

/-- Node `256 + k`, made by merge `k` (R31). -/
def mergeNode (k : BitVec 8) : NodeIdx := 0x100#9 + k.setWidth 9

/-- `SLOT[i]` (R35). -/
def Arena.slotAt (a : Arena) (i : Byte) : NodeIdx := a.slot[i.toNat]'i.isLt

/-- `SLOT[i] <- n`. -/
def Arena.setSlot (a : Arena) (i : Byte) (n : NodeIdx) : Arena :=
  { a with slot := a.slot.set i.toNat n i.isLt }

/-- `W[n]` (R33). `EMPTY` has no weight; every use is on a node, and 0 stands where there is none. -/
def Arena.weightAt (a : Arena) (n : NodeIdx) : Nat := a.w[n.toNat]?.getD 0

/-- What a register of `WEIGHT_WIDTH` bits keeps of a value written to it. -/
def Arena.fit (a : Arena) (x : Nat) : Nat := x % 2 ^ a.weightWidth

/-- `W[n] <- x`. -/
def Arena.setWeight (a : Arena) (n : NodeIdx) (x : Nat) : Arena :=
  { a with w := a.w.setIfInBounds n.toNat (a.fit x) }

/-- `TOTAL <- x`. -/
def Arena.setTotal (a : Arena) (x : Nat) : Arena := { a with total := a.fit x }

/-- The largest input the frequency pass takes, `2^WEIGHT_WIDTH - 1` bytes (R100, R217). -/
def Arena.maxInput (a : Arena) : Nat := 2 ^ a.weightWidth - 1

/-- `LEFT[n]` for bit 0 and `RIGHT[n]` for bit 1 (R32, R41). None where the child is missing: a leaf has
no children, and `EMPTY` names no node. -/
def Arena.child (a : Arena) (n : NodeIdx) (b : Bool) : Option NodeIdx :=
  if isLeaf n then none
  else
    match (if b then a.right else a.left)[n.toNat - Config.alphabet]? with
    | some m => if m = emptySlot then none else some m
    | none => none

/-- `LEFT[256+k] <- l` and `RIGHT[256+k] <- r` (R32). -/
def Arena.setChildren (a : Arena) (k : BitVec 8) (l r : NodeIdx) : Arena :=
  { a with left := a.left.setIfInBounds k.toNat l, right := a.right.setIfInBounds k.toNat r }

/-- `MSEQ[j]` (R37). -/
def Arena.mseqAt (a : Arena) (j : Nat) : Byte := a.mseq[j]?.getD 0

/-- `MSEQ[j] <- b`. -/
def Arena.setMseq (a : Arena) (j : Nat) (b : Byte) : Arena :=
  { a with mseq := a.mseq.setIfInBounds j b }

/-- `CODE[v]` (R39). -/
def CodeTable.codeAt (t : CodeTable) (v : Byte) : BitString := t.code[v.toNat]'v.isLt

/-- `LEN[v]` (R39). -/
def CodeTable.lenAt (t : CodeTable) (v : Byte) : BitVec 8 := t.len[v.toNat]'v.isLt

/-- `CODE[v] <- s` and `LEN[v] <- len(s)` (R151). -/
def CodeTable.record (t : CodeTable) (v : Byte) (s : BitString) : CodeTable :=
  { code := t.code.set v.toNat s v.isLt
    len := t.len.set v.toNat (BitVec.ofNat 8 s.length) v.isLt }

/-- `PLEN` = `len(PBUF)` (R40). -/
def plen (s : State) : BitVec 9 := BitVec.ofNat 9 s.pbuf.length

/-! ### The stream primitives (R52 to R55) -/

/-- What a blocking read comes to. -/
inductive ReadResult where
  /-- A byte, and the state with the byte consumed. -/
  | byte (b : Byte) (s : State)
  /-- `EOS`, and the state after it. -/
  | eos (s : State)
  /-- The host has neither delivered a byte nor signalled the end: the engine blocks. -/
  | blocked

/-- Add an event to the trace (R56). -/
def note (e : PortEvent) (s : State) : State := { s with trace := e :: s.trace }

/-- `InRead()` (R52). -/
def inRead (s : State) : ReadResult :=
  match s.inp.ahead with
  | b :: rest =>
    .byte b (note (.inRead (some b)) { s with inp := { s.inp with taken := s.inp.taken ++ [b], ahead := rest } })
  | [] => if s.inp.ended then .eos (note (.inRead none) s) else .blocked

/-- `TreeRead()` (R52). -/
def treeRead (s : State) : ReadResult :=
  match s.tree.ahead with
  | b :: rest =>
    .byte b (note (.treeRead (some b)) { s with tree := { s.tree with taken := s.tree.taken ++ [b], ahead := rest } })
  | [] => if s.tree.ended then .eos (note (.treeRead none) s) else .blocked

/-- `InRewind()` (R53): the read position goes back to 0, and the sequence stays. -/
def inRewind (s : State) : State :=
  note .inRewind { s with inp := { s.inp with taken := [], ahead := s.inp.taken ++ s.inp.ahead } }

/-- `OutWrite(b)` (R55). None while the host does not accept a byte: the engine blocks. -/
def outWrite (b : Byte) (s : State) : Option State :=
  match s.outReady with
  | .always => some (note (.outWrite b) { s with out := s.out ++ [b] })
  | .upTo 0 => none
  | .upTo (n + 1) => some (note (.outWrite b) { s with out := s.out ++ [b], outReady := .upTo n })

/-! ### How a stretch of a command ends -/

/-- What a stretch of a command's pseudocode comes to. -/
inductive Run where
  /-- It ran to its end. -/
  | going (s : State)
  /-- It blocks at a port call (R52, R55). -/
  | waiting (s : State)
  /-- It reached `raise e(info)` (R220). -/
  | raised (e : ErrCode) (info : BitVec 16) (s : State)
  /-- It ends the command early as `DONE` (R184). -/
  | ended (s : State)
  /-- It met a state for which the spec gives no behaviour. -/
  | broken (f : Fault)

/-- One stretch after another. -/
def Run.andThen : Run → (State → Run) → Run
  | .going s, f => f s
  | .waiting s, _ => .waiting s
  | .raised e i s, _ => .raised e i s
  | .ended s, _ => .ended s
  | .broken f, _ => .broken f

/-- `loop: x <- InRead(); if x == EOS: break; body` (R100, R160, R180). The first argument bounds the
reads; one more than the bytes ahead is enough, since a read takes a byte. -/
def readLoop (body : Byte → State → Run) : Nat → State → Run
  | 0, s => .waiting s
  | n + 1, s =>
    match inRead s with
    | .byte x s' => (body x s').andThen (readLoop body n)
    | .eos s' => .going s'
    | .blocked => .waiting s

/-! ### Completion and abort -/

/-- The command is over with outcome `e`; `STATUS.STATE` changes last (R56, R190). The working state, `CODE`
and `LEN` among it, keeps its last values; R157 and I3 let it hold anything from here on, and keeping it is
the model's DESIGN CHOICE (assumption 21). -/
def settle (e : EngState) (s : State) : State :=
  note (.stateFinal e) { s with phase := .idle, pend := none, status := e }

/-- Completion (R190): `PHASE <- P_IDLE` and `STATUS.STATE <- DONE`. -/
def finish (s : State) : State := settle .done s

/-- `raise e(info)` (R220), the engine's one exception: no program counter is saved and there is no
handler and no return (R224, R225). -/
def raiseError (e : ErrCode) (info : BitVec 16) (s : State) : State :=
  settle .error { s with err := e, info := info }

/-- The final `STATUS` update for an outcome (R247). -/
def applyVerdict : Verdict → State → State
  | .finished, s => finish s
  | .raised e info, s => raiseError e info s

/-- The end of a command run as one big step (R14). -/
def conclude : Run → Host.Outcome State Fault Refusal
  | .going s => .next (finish s)
  | .waiting s => .next s
  | .raised e info s => .next (raiseError e info s)
  | .ended s => .next (finish s)
  | .broken f => .fault f

/-- The end of one small step: an outcome waits for the final `STATUS` update, which is a step of its
own (R247). -/
def concludeSmall : Run → Host.Outcome State Fault Refusal
  | .going s => .next s
  | .waiting s => .next s
  | .raised e info s => .next { s with pend := some (.raised e info) }
  | .ended s => .next { s with pend := some .finished }
  | .broken f => .fault f

/-! ### Accepting a command (R190) -/

/-- Acceptance of a legal command: `OPC` and `STATUS.STATE` = `BUSY`. -/
def accept (i : Instr) (s : State) : State :=
  { noteWrite (encode i) s with opc := i, status := .busy, pend := none }

/-- A word that is no command, written while not `BUSY`: `ILLEGAL_COMMAND(c[15:0])` (R190, R218). -/
def rejectWrite (c : Word) (s : State) : State :=
  raiseError .illegalCommand (c.extractLsb' 0 16) (noteWrite c s)

end Sys2Proof.Machine
end

