-- ==== Sys2Proof/Machine/Operands.lean ====
section
/-! DEFINITION. A command's operands: the streams, bound by role (`30_encoding.md` R73; `20_memory.md`
R51, R54). -/

namespace Sys2Proof.Machine

/-- An input stream port. -/
inductive StreamSel where
  | inStream
  | treeStream
  deriving DecidableEq, Repr

/-- The port a command takes its tree encoding from: `IN` for `DECODE`, `TREE` for `ENCODE_EXT`, and
none for a command that builds its tree (R73, R132). -/
def treePort : Instr → Option StreamSel
  | .buildTree => none
  | .encode => none
  | .decode => some .inStream
  | .encodeExt => some .treeStream

/-- A read of the port chosen (R52). -/
def portRead : StreamSel → State → ReadResult
  | .inStream => inRead
  | .treeStream => treeRead

/-- Whether a command packs a payload after its header (R193, R195). -/
def packsPayload : Instr → Bool
  | .buildTree => false
  | .encode => true
  | .decode => false
  | .encodeExt => true

/-- Whether a command reads `IN` a second time (R53, R54). -/
def rewindsInput : Instr → Bool
  | .buildTree => false
  | .encode => true
  | .decode => false
  | .encodeExt => false

end Sys2Proof.Machine
end

