-- ==== Sys2Proof/Machine/Builder.lean ====
section
/-! DEFINITION. The tree builder: BUILD and its parts (`41_tree_builder.md` R110 to R117). -/

namespace Sys2Proof.Machine

/-- One turn of SelectMin's scan: a strictly smaller weight replaces the best so far (R112). -/
def selectStep (a : Arena) (excl : Option Byte) (best : Option Byte) (i : Byte) : Option Byte :=
  if a.slotAt i = emptySlot ∨ excl = some i then best
  else
    match best with
    | none => some i
    | some j => if a.weightAt (a.slotAt i) < a.weightAt (a.slotAt j) then some i else best

/-- `SelectMin(excl)`: the scan in increasing index order (R112). -/
def selectMin (a : Arena) (excl : Option Byte) : Option Byte :=
  allBytes.foldl (selectStep a excl) none

/-- `min(i1, i2)` (R9). -/
def minByte (i j : Byte) : Byte := if i ≤ j then i else j

/-- `max(i1, i2)` (R9). -/
def maxByte (i j : Byte) : Byte := if i ≤ j then j else i

/-- The initial forest, `SLOT[i] <- i`, and the merge counter at its start (R35, R36). -/
def initSlots (a : Arena) : Arena :=
  { a with slot := tabulate Config.alphabet (BitVec.ofNat 9), k := 0 }

/-- Steps 3 and 4 of the builder, which the replay performs too (R113, R114, R134): node `256 + K` gets
the two subtrees, slot `lo` gets the node, slot `hi` is cleared, and `K` names the next merge (R36). -/
def linkPair (lo hi : Byte) (a : Arena) : Arena :=
  { ((a.setChildren a.k (a.slotAt lo) (a.slotAt hi)).setSlot lo (mergeNode a.k)).setSlot hi emptySlot with
    k := a.k + 1 }

/-- The builder's merge of slots `lo` and `hi`: the weight (R115), the record (R116) and the links. -/
def mergePair (lo hi : Byte) (a : Arena) : Arena :=
  linkPair lo hi
    (((a.setWeight (mergeNode a.k) (a.weightAt (a.slotAt lo) + a.weightAt (a.slotAt hi))).setMseq
      (2 * a.k.toNat) lo).setMseq (2 * a.k.toNat + 1) hi)

/-- One merge of BUILD (R111); none if fewer than two slots are non-empty. -/
def mergeStep (a : Arena) : Option Arena :=
  match selectMin a none with
  | none => none
  | some i1 =>
    match selectMin a (some i1) with
    | none => none
    | some i2 => some (mergePair (minByte i1 i2) (maxByte i1 i2) a)

/-- `ROOT <- SLOT[0]` and `SLOT[0] <- EMPTY` (R117, R134). -/
def takeRoot (a : Arena) : Arena := { a with root := a.slotAt 0 }.setSlot 0 emptySlot

/-- So many merges. -/
def mergeLoop : Nat → Arena → Option Arena
  | 0, a => some a
  | n + 1, a => (mergeStep a).bind (mergeLoop n)

/-- BUILD on the arena (R111): 255 merges from the initial forest, then the root is taken. -/
def buildArena (a : Arena) : Option Arena :=
  (mergeLoop Config.merges (initSlots a)).map takeRoot

/-- The start of BUILD, up to its first merge. -/
def enterBuild (s : State) : State := { s with phase := .build, arena := initSlots s.arena }

/-- BUILD (R111). It cannot fail (R110); a forest too small to merge would be a broken state. -/
def buildPhase (s : State) : Run :=
  match buildArena s.arena with
  | some a => .going { s with phase := .build, arena := a }
  | none => .broken .forestExhausted

end Sys2Proof.Machine
end

