-- ==== Sys2Proof/Machine/Codec.lean ====
section
/-! DEFINITION. The tree codec: SERIALIZE (`42_tree_codec.md` R130) and DESERIALIZE (R132 to R134). -/

namespace Sys2Proof.Machine

/-- The start of SERIALIZE, up to its first `OutWrite`. -/
def enterSer (s : State) : State := { s with phase := .ser, serIdx := 0 }

/-- `OutWrite(MSEQ[j])`, and on to the next `j`. -/
def serByte (s : State) : Run :=
  match outWrite (s.arena.mseqAt s.serIdx) s with
  | some s' => .going { s' with serIdx := s.serIdx + 1 }
  | none => .waiting s

/-- So many bytes of SERIALIZE. -/
def serLoop : Nat → State → Run
  | 0, s => .going s
  | n + 1, s => (serByte s).andThen (serLoop n)

/-- SERIALIZE (R130): the 510 bytes of `MSEQ`. -/
def serialize (s : State) : Run := serLoop Config.treeBytes (enterSer s)

/-- The start of DESER_READ, up to its first read. -/
def enterDeserRead (s : State) : State :=
  { s with phase := .deserRead, arena := { s.arena with tcnt := 0 } }

/-- `MSEQ[TCNT] <- b` and `TCNT <- TCNT + 1` (R133). -/
def storeTreeByte (b : Byte) (a : Arena) : Arena :=
  { a.setMseq a.tcnt.toNat b with tcnt := a.tcnt + 1 }

/-- One read of DESER_READ (R133): `EOS` raises `TRUNCATED_TREE(TCNT)` (R213). -/
def deserReadByte (p : StreamSel) (s : State) : Run :=
  match portRead p s with
  | .byte b s' => .going { s' with arena := storeTreeByte b s'.arena }
  | .eos s' => .raised .truncatedTree (s'.arena.tcnt.setWidth 16) s'
  | .blocked => .waiting s

/-- So many reads of DESER_READ. -/
def deserReadLoop (p : StreamSel) : Nat → State → Run
  | 0, s => .going s
  | n + 1, s => (deserReadByte p s).andThen (deserReadLoop p n)

/-- DESER_READ(port) (R133): all 510 bytes before any pair is replayed. -/
def deserRead (p : StreamSel) (s : State) : Run :=
  deserReadLoop p Config.treeBytes (enterDeserRead s)

/-- The start of DESER_REPLAY, up to its first pair. -/
def enterReplay (s : State) : State := { s with phase := .deserReplay, arena := initSlots s.arena }

/-- What pair `K` of `MSEQ` comes to (R134): the empty-slot check first, the order check second (R137),
then the links, with no weights (R135). -/
def replayPair (a : Arena) : Except ErrCode Arena :=
  let p := a.mseqAt (2 * a.k.toNat)
  let q := a.mseqAt (2 * a.k.toNat + 1)
  if a.slotAt p = emptySlot ∨ a.slotAt q = emptySlot then .error .malformedEmptySlot
  else if ¬ p < q then .error .malformedPairOrder
  else .ok (linkPair p q a)

/-- One pair of DESER_REPLAY (R134, R214, R215). -/
def replayStep (s : State) : Run :=
  match replayPair s.arena with
  | .ok a => .going { s with arena := a }
  | .error e => .raised e (s.arena.k.setWidth 16) s

/-- So many pairs of DESER_REPLAY. -/
def replayLoop : Nat → State → Run
  | 0, s => .going s
  | n + 1, s => (replayStep s).andThen (replayLoop n)

/-- The end of DESER_REPLAY: the root is taken (R134). -/
def replayEnd (s : State) : State := { s with arena := takeRoot s.arena }

/-- DESER_REPLAY (R134). -/
def deserReplay (s : State) : Run :=
  (replayLoop Config.merges (enterReplay s)).andThen fun s' => .going (replayEnd s')

end Sys2Proof.Machine
end

