-- ==== Sys2Proof/Machine/Derive.lean ====
section
/-! DEFINITION. The code table generator: DERIVE (`43_code_table.md` R150, R151). -/

namespace Sys2Proof.Machine

/-- `Walk(n, s)` (R151): left with bit 0, then right with bit 1, and the record at a leaf. The first
argument is how much deeper the walk may nest; a walker's stack has 255 entries (R151, R153). None if
a child is missing or the stack is full, which no tree over 256 leaves can do. -/
def walk (a : Arena) : Nat → NodeIdx → BitString → CodeTable → Option CodeTable
  | 0, n, s, t => if isLeaf n then some (t.record (leafByte n) s) else none
  | d + 1, n, s, t =>
    if isLeaf n then some (t.record (leafByte n) s)
    else
      match a.child n false, a.child n true with
      | some l, some r => (walk a d l (s ++ [false]) t).bind (walk a d r (s ++ [true]))
      | _, _ => none

/-- DERIVE (R151): the walk from the root. -/
def derive (s : State) : Run :=
  match walk s.arena Config.maxCodeLen s.arena.root [] s.table with
  | some t => .going { s with phase := .derive, table := t }
  | none => .broken .brokenArena

end Sys2Proof.Machine
end

