-- ==== Sys2Proof/Machine/Frequency.lean ====
section
/-! DEFINITION. The frequency table: ACCUMULATE (`40_frequency_table.md` R100). -/

namespace Sys2Proof.Machine

/-- `W[v] <- 0` for the 256 leaves and `TOTAL <- 0`. -/
def clearWeights (a : Arena) : Arena :=
  { a with
    w := tabulate Config.nodes fun n => if n < Config.alphabet then 0 else a.w[n]?.getD 0
    total := 0 }

/-- `TOTAL <- TOTAL + 1` and `W[x] <- W[x] + 1`. -/
def countByte (x : Byte) (a : Arena) : Arena :=
  (a.setTotal (a.total + 1)).setWeight (leafNode x) (a.weightAt (leafNode x) + 1)

/-- The start of ACCUMULATE, up to its first `InRead()`. -/
def enterAcc (s : State) : State := { s with phase := .acc, arena := clearWeights s.arena }

/-- What ACCUMULATE does with a byte: refuse it when `TOTAL` = `2^WEIGHT_WIDTH - 1`, else count it. -/
def accByte (x : Byte) (s : State) : Run :=
  if s.arena.total = s.arena.maxInput then .raised .weightOverflow 0 s
  else .going { s with arena := countByte x s.arena }

/-- ACCUMULATE (R100). -/
def accumulate (s : State) : Run := readLoop accByte (s.inp.ahead.length + 1) (enterAcc s)

end Sys2Proof.Machine
end

