-- ==== Sys2Proof/Machine/Packer.lean ====
section
/-! DEFINITION. The bit packer: PACK (`44_bit_packer.md` R160) and PAD (R163). -/

namespace Sys2Proof.Machine

/-- The start of PACK, up to its first `InRead()`. -/
def enterPack (s : State) : State := { s with phase := .pack, pbuf := [] }

/-- `OutWrite(pack8(prefix(PBUF, 8)))` and `PBUF <- drop(PBUF, 8)`. -/
def emitByte (s : State) : Run :=
  match outWrite (pack8 (s.pbuf.take 8)) s with
  | some s' => .going { s' with pbuf := s.pbuf.drop 8 }
  | none => .waiting s

/-- So many full bytes. -/
def emitLoop : Nat → State → Run
  | 0, s => .going s
  | n + 1, s => (emitByte s).andThen (emitLoop n)

/-- `PBUF <- PBUF ++ CODE[x]`. -/
def appendCode (x : Byte) (s : State) : State := { s with pbuf := s.pbuf ++ s.table.codeAt x }

/-- What PACK does with a byte: append its code, then emit while the buffer holds 8 bits or more, which
is its length divided by 8 times. -/
def packByte (x : Byte) (s : State) : Run :=
  emitLoop ((appendCode x s).pbuf.length / 8) (appendCode x s)

/-- `need`, how many bits complete the last byte (R163). -/
def padNeed (s : State) : Nat := 8 - s.pbuf.length

/-- The first byte value whose code is longer than `need` (R163). -/
def padChoice (t : CodeTable) (need : Nat) : Option Byte :=
  allBytes.find? fun u => decide (need < (t.lenAt u).toNat)

/-- PAD up to its `OutWrite` (R163); `going` with an empty buffer means that there is nothing to write. -/
def padFill (s : State) : Run :=
  if s.pbuf = [] then .going s
  else
    match padChoice s.table (padNeed s) with
    | none => .raised .padUnavailable (BitVec.ofNat 16 (padNeed s)) { s with phase := .pad }
    | some v =>
      .going { s with phase := .pad, pbuf := s.pbuf ++ (s.table.codeAt v).take (padNeed s) }

/-- The final byte: `OutWrite(pack8(PBUF))` and `PBUF <- []` (R163). -/
def padEmit (s : State) : Run :=
  if s.pbuf = [] then .going s
  else
    match outWrite (pack8 s.pbuf) s with
    | some s' => .going { s' with pbuf := [] }
    | none => .waiting s

/-- PAD (R163). -/
def padPhase (s : State) : Run := (padFill s).andThen padEmit

/-- PACK (R160), with PAD at its end. -/
def packPhase (s : State) : Run :=
  (readLoop packByte (s.inp.ahead.length + 1) (enterPack s)).andThen padPhase

end Sys2Proof.Machine
end

