-- ==== Sys2Proof/Machine/Unpacker.lean ====
section
/-! DEFINITION. The bit unpacker: UNPACK (`45_bit_unpacker.md` R180 to R184). -/

namespace Sys2Proof.Machine

/-- The start of UNPACK, up to its first `InRead()`. -/
def enterUnpack (s : State) : State :=
  { s with phase := .unpack, cur := s.arena.root, bits := [] }

/-- Whether the walk stands at a leaf it has reached, whose byte is still to be written (R180). In a broken arena
whose `ROOT` is itself a leaf, which R38 and R181 rule out, it has reached none: a leaf has no child, so the
first bit asks for a missing one and ends UNPACK with no byte written (R184, I6, assumption 15). -/
def symbolDue (s : State) : Bool := isLeaf s.cur && !isLeaf s.arena.root

/-- `OutWrite(CUR)` and `CUR <- ROOT`. -/
def emitSymbol (s : State) : Run :=
  match outWrite (leafByte s.cur) s with
  | some s' => .going { s' with cur := s.arena.root }
  | none => .waiting s

/-- One move down the tree, `rest` being the bits after it (R180, R181). A missing child ends UNPACK
with no further output, as `DONE` (R184, I6). -/
def moveDown (b : Bool) (rest : BitString) (s : State) : Run :=
  match s.arena.child s.cur b with
  | some n => .going { s with cur := n, bits := rest }
  | none => .ended s

/-- The bits of a byte, one at a time (R180). -/
def unpackBits : BitString → State → Run
  | [], s => .going { s with bits := [] }
  | b :: rest, s =>
    (moveDown b rest s).andThen fun s' =>
      if isLeaf s'.cur then (emitSymbol s').andThen (unpackBits rest) else unpackBits rest s'

/-- What UNPACK does with a byte: its bits, most significant first. -/
def unpackByte (x : Byte) (s : State) : Run := unpackBits (bits8 x) s

/-- UNPACK (R180). At `EOS` a code cut short is dropped with no error (R182). -/
def unpackPhase (s : State) : Run :=
  readLoop unpackByte (s.inp.ahead.length + 1) (enterUnpack s)

end Sys2Proof.Machine
end

