-- ==== Sys2Proof/Machine/Commands.lean ====
section
/-! DEFINITION. The four commands (`46_commands.md` R190 to R195). A command's body is its phases in
order (R196); its meaning is the whole command as one big step (R14), which ends where the command
ends or where a port call blocks. -/

namespace Sys2Proof.Machine

/-- The body of `BUILD_TREE` (R192). -/
def bodyBuildTree (s : State) : Run :=
  ((accumulate s).andThen buildPhase).andThen serialize

/-- The body of `ENCODE` (R193): the rewind stands between DERIVE and PACK (R53, D9). -/
def bodyEncode (s : State) : Run :=
  ((((accumulate s).andThen buildPhase).andThen serialize).andThen derive).andThen fun s' =>
    packPhase (inRewind s')

/-- The body of `DECODE` (R194). -/
def bodyDecode (s : State) : Run :=
  ((deserRead .inStream s).andThen deserReplay).andThen unpackPhase

/-- The body of `ENCODE_EXT` (R195): the header is the tree bytes as read (R131). -/
def bodyEncodeExt (s : State) : Run :=
  ((((deserRead .treeStream s).andThen deserReplay).andThen serialize).andThen derive).andThen packPhase

/-- `BUILD_TREE` written to `CMD`: dropped while `BUSY` (R191), else accepted and run (R190, R192). -/
def execBuildTree (s : State) : Host.Outcome State Fault Refusal :=
  if busy s then .next (dropWrite s) else conclude (bodyBuildTree (accept .buildTree s))

/-- `ENCODE` written to `CMD`: dropped while `BUSY` (R191), else accepted and run (R190, R193). -/
def execEncode (s : State) : Host.Outcome State Fault Refusal :=
  if busy s then .next (dropWrite s) else conclude (bodyEncode (accept .encode s))

/-- `DECODE` written to `CMD`: dropped while `BUSY` (R191), else accepted and run (R190, R194). -/
def execDecode (s : State) : Host.Outcome State Fault Refusal :=
  if busy s then .next (dropWrite s) else conclude (bodyDecode (accept .decode s))

/-- `ENCODE_EXT` written to `CMD`: dropped while `BUSY` (R191), else accepted and run (R190, R195). -/
def execEncodeExt (s : State) : Host.Outcome State Fault Refusal :=
  if busy s then .next (dropWrite s) else conclude (bodyEncodeExt (accept .encodeExt s))

end Sys2Proof.Machine
end

