-- ==== Sys2Proof/Machine/Sequencer.lean ====
section
/-! DEFINITION. The sequencer's small step (`70_reset_and_hazards.md` R247): one port call with the
internal updates that follow it, one merge, all of DERIVE, or the final `STATUS` update. The parts are
those the big step of `Commands.lean` is made of. -/

namespace Sys2Proof.Machine

/-- A command's phases in order (R24, R192 to R196). -/
def phasesOf : Instr → List Phase
  | .buildTree => [.acc, .build, .ser]
  | .encode => [.acc, .build, .ser, .derive, .pack, .pad]
  | .decode => [.deserRead, .deserReplay, .unpack]
  | .encodeExt => [.deserRead, .deserReplay, .ser, .derive, .pack, .pad]

/-- A command's first phase, entered when it is accepted. -/
def enterFirst (i : Instr) (s : State) : State :=
  match treePort i with
  | none => enterAcc s
  | some _ => enterDeserRead s

/-- Acceptance as a small step (R247): the command is `BUSY` in its first phase and has made no port
call. -/
def start (i : Instr) (s : State) : State := enterFirst i (accept i s)

/-- A step of `P_ACC`. -/
def stepAcc (s : State) : Run :=
  match inRead s with
  | .byte x s' => accByte x s'
  | .eos s' => .going (enterBuild s')
  | .blocked => .waiting s

/-- A step of `P_BUILD`: one merge; after the last the root is taken and SERIALIZE begins. -/
def stepBuild (s : State) : Run :=
  if s.arena.k.toNat < Config.merges then
    match mergeStep s.arena with
    | some a =>
      if a.k.toNat < Config.merges then .going { s with arena := a }
      else .going (enterSer { s with arena := takeRoot a })
    | none => .broken .forestExhausted
  else .broken .strayPhase

/-- DERIVE, and on to the next port call: the rewind of `ENCODE`, or PACK's first read. -/
def stepDerive (s : State) : Run :=
  (derive s).andThen fun s' => if rewindsInput s'.opc then .going s' else .going (enterPack s')

/-- A step of `P_SER`: one byte, and DERIVE after the last where a payload follows. -/
def stepSer (s : State) : Run :=
  if s.serIdx < Config.treeBytes then
    (serByte s).andThen fun s' =>
      if s'.serIdx < Config.treeBytes ∨ packsPayload s'.opc then .going s' else .ended s'
  else if packsPayload s.opc then stepDerive s
  else .ended s

/-- A step of `P_DESER_READ`: one byte; after the last the replay begins. -/
def stepDeserRead (s : State) : Run :=
  match treePort s.opc with
  | some p =>
    if s.arena.tcnt.toNat < Config.treeBytes then
      (deserReadByte p s).andThen fun s' =>
        if s'.arena.tcnt.toNat < Config.treeBytes then .going s' else .going (enterReplay s')
    else .broken .strayPhase
  | none => .broken .strayPhase

/-- A step of `P_DESER_REPLAY`: one pair; after the last the root is taken and the next phase begins. -/
def stepReplay (s : State) : Run :=
  if s.arena.k.toNat < Config.merges then
    (replayStep s).andThen fun s' =>
      if s'.arena.k.toNat < Config.merges then .going s'
      else if packsPayload s'.opc then .going (enterSer (replayEnd s'))
      else .going (enterUnpack (replayEnd s'))
  else .broken .strayPhase

/-- A step of `P_DERIVE`, where only `ENCODE` stands between two steps: the rewind (R53). -/
def stepRewind (s : State) : Run := .going (enterPack (inRewind s))

/-- A step of `P_PACK`: one byte out while the buffer holds 8 bits, else one byte in; `EOS` leads to PAD. -/
def stepPack (s : State) : Run :=
  if 8 ≤ s.pbuf.length then emitByte s
  else
    match inRead s with
    | .byte x s' => .going (appendCode x s')
    | .eos s' => (padFill s').andThen fun s'' => if s''.pbuf = [] then .ended s'' else .going s''
    | .blocked => .waiting s

/-- A step of `P_PAD`: the final byte. -/
def stepPad (s : State) : Run := (padEmit s).andThen .ended

/-- UNPACK's walk from one port call to the next: to a leaf, or to the end of the byte. -/
def descend : BitString → State → Run
  | [], s => .going { s with bits := [] }
  | b :: rest, s =>
    (moveDown b rest s).andThen fun s' => if isLeaf s'.cur then .going s' else descend rest s'

/-- A step of `P_UNPACK`: one symbol out at a leaf, else one byte in. -/
def stepUnpack (s : State) : Run :=
  if symbolDue s then (emitSymbol s).andThen fun s' => descend s'.bits s'
  else
    match inRead s with
    | .byte x s' => descend (bits8 x) s'
    | .eos s' => .ended s'
    | .blocked => .waiting s

/-- The step of a phase. -/
def stepPhase (s : State) : Run :=
  match s.phase with
  | .idle => .broken .strayPhase
  | .acc => stepAcc s
  | .build => stepBuild s
  | .ser => stepSer s
  | .deserRead => stepDeserRead s
  | .deserReplay => stepReplay s
  | .derive => stepRewind s
  | .pack => stepPack s
  | .pad => stepPad s
  | .unpack => stepUnpack s

/-- One small step of a running command (R247). A step whose port call blocks changes nothing. -/
def tick (s : State) : Host.Outcome State Fault Refusal :=
  match s.pend with
  | some v => .next (applyVerdict v s)
  | none =>
    if s.phase ∈ phasesOf s.opc then concludeSmall (stepPhase s) else .fault .strayPhase

/-- The engine left to itself: a small step while `BUSY`, and nothing otherwise (R233, R240). -/
def engineStep (s : State) : Host.Outcome State Fault Refusal :=
  if busy s then tick s else .next s

end Sys2Proof.Machine
end

