-- ==== Sys2Proof/Machine/HostPort.lean ====
section
/-! DEFINITION. The host's side of the ports (`70_reset_and_hazards.md` R240 to R243, R250, R251;
`20_memory.md` R60): what each of its actions does, and how a program of command words becomes
actions (`30_encoding.md` R78). -/

namespace Sys2Proof.Machine

/-- A `CMD` write as one small step: dropped, refused or accepted (R190, R191, R247). -/
def writeCmd (c : Word) (s : State) : State :=
  if busy s then dropWrite s
  else
    match decode c with
    | .ok i => start i s
    | .error _ => rejectWrite c s

/-- A `CMD` write with the engine running on as far as its ports allow (R14). -/
def runCommand (c : Word) (s : State) : Host.Outcome State Fault Refusal :=
  if busy s then .next (dropWrite s)
  else
    match decode c with
    | .ok i => exec i s
    | .error _ => .next (rejectWrite c s)

/-- A stream restarted at its first byte (R243). -/
def openPort (bytes : List Byte) (ended : Bool) : InPort :=
  { taken := [], ahead := bytes, ended := ended }

/-- More bytes of a stream. After its end there are none (R52). -/
def feedPort (bytes : List Byte) (p : InPort) : InPort :=
  if p.ended then p else { p with ahead := p.ahead ++ bytes }

/-- The end of a stream, signalled. -/
def endPort (p : InPort) : InPort := { p with ended := true }

/-- Reset (R240, R241): every item of the engine at its reset value, the ports as they stand. The machine keeps
the width it is built with. -/
def resetEngine (s : State) : State :=
  { State.resetAt s.arena.weightWidth with
    inp := s.inp
    tree := s.tree
    out := s.out
    outReady := s.outReady
    trace := s.trace
    readData := s.readData
    host := s.host }

/-- What a host action does, `s` being the state with the action taken off the queue. `inOpen` and `treeOpen` act
at any time. While a command runs, its next read of that port takes the first byte of the new sequence, and what it
has read before stays as it is: R67 fixes both lists at acceptance and R249 speaks of `ENCODE`'s `IN` alone, so
this is a DESIGN CHOICE (assumptions 16 and 22). -/
def hostAct (a : HostAct) (s : State) : Host.Outcome State Fault Refusal :=
  match a with
  | .cmdWrite c => .next (writeCmd c s)
  | .command c => runCommand c s
  | .engine => engineStep s
  | .awaitEnd => if busy s then engineStep { s with host := .awaitEnd :: s.host } else .next s
  | .statusWrite _ => .next s
  | .errinfoWrite _ => .next s
  | .statusRead => .next { s with readData := some (statusWord s) }
  | .errinfoRead => .next { s with readData := some (errinfoWord s) }
  | .inOpen bytes ended => .next { s with inp := openPort bytes ended }
  | .inFeed bytes => .next { s with inp := feedPort bytes s.inp }
  | .inEnd => .next { s with inp := endPort s.inp }
  | .treeOpen bytes ended => .next { s with tree := openPort bytes ended }
  | .treeFeed bytes => .next { s with tree := feedPort bytes s.tree }
  | .treeEnd => .next { s with tree := endPort s.tree }
  | .outReady r => .next { s with outReady := r }
  | .reset => .next (resetEngine s)

/-- One step of the machine: the host's next action, or the engine's own step when the host has none. -/
def hostStep (s : State) : Host.Outcome State Fault Refusal :=
  match s.host with
  | [] => engineStep s
  | a :: rest => hostAct a { s with host := rest }

/-- The `CMD` word of `nbits` table bits. -/
def tableWord (nbits w : Nat) : Word := BitVec.ofNat 32 (w % 2 ^ nbits)

/-- Put a word where the next step takes its command from: first in the host's queue. -/
def queueCommand (c : Word) (s : State) : State := { s with host := .command c :: s.host }

/-- A program of R78 as host actions: each line writes its word, and the host waits for the end of the
command before the next line. None if a mnemonic is unknown. -/
def assemble : List AsmLine → Option (List HostAct)
  | [] => some []
  | line :: rest =>
    match asmWord line, assemble rest with
    | some c, some acts => some (.command c :: .awaitEnd :: acts)
    | _, _ => none

end Sys2Proof.Machine
end

