-- ==== Sys2Proof/Machine/Step.lean ====
section
/-! DEFINITION. The machine's step, and where the host places a command for it. -/

namespace Sys2Proof.Machine

/-- One step: a host action, or the engine's own step when the host has none pending. -/
def step (s : State) : Host.Outcome State Fault Refusal := hostStep s

/-- The state whose next step takes the word as a command written to `CMD` (assumption 6). -/
def State.withFetchWord (s : State) (nbits w : Nat) : State := queueCommand (tableWord nbits w) s

end Sys2Proof.Machine
end

