-- ==== Sys2Proof/Safety.lean ====
section
/-! DEFINITION. What a safe run is, and the words the statements use: a well-behaved host, the tree as
paths, the payload as the spec gives it without the engine's loops, and the invariants. -/

namespace Sys2Proof.Machine

/-! ### The host's duties (R243, R251) -/

/-- `IN` is wholly delivered and `OUT` accepts every byte, as a host that meets its duties provides. -/
def Served (s : State) : Prop := s.inp.ended = true ∧ s.outReady = .always

/-- A host about to write `CMD` that meets its duties: the engine is not `BUSY` and the ports serve. -/
def Ready (s : State) : Prop := busy s = false ∧ Served s

/-- A command that has completed, as the host sees it (R190, R192 to R195). -/
def Completed (i : Instr) (t : State) : Prop :=
  t.status = .done ∧ t.err = .none ∧ t.info = 0 ∧ t.ovr = false ∧ t.lastOp = opcodeOf i ∧
    t.phase = .idle

/-- A command that has aborted with an error, as the host sees it (R190, R220). -/
def Aborted (i : Instr) (e : ErrCode) (info : BitVec 16) (t : State) : Prop :=
  t.status = .error ∧ t.err = e ∧ t.info = info ∧ t.ovr = false ∧ t.lastOp = opcodeOf i ∧
    t.phase = .idle

/-- An input port read to its end (R54). -/
def readOut (p : InPort) : InPort := { p with taken := p.taken ++ p.ahead, ahead := [] }

/-- An input port of which so many bytes have been read (R54). -/
def readPart (n : Nat) (p : InPort) : InPort :=
  { p with taken := p.taken ++ p.ahead.take n, ahead := p.ahead.drop n }

/-- The pending action is a `CMD` write of this word, in either form. -/
def WritesCmd (s : State) (c : Word) (rest : List HostAct) : Prop :=
  s.host = .cmdWrite c :: rest ∨ s.host = .command c :: rest

/-- The next step is the engine's own: no host action is pending, or one that lets the engine move. -/
def EngineMoves (s : State) : Prop :=
  s.host.head? = none ∨ s.host.head? = some .engine ∨ s.host.head? = some .awaitEnd

/-- A `CMD` write that is dropped: one that arrives while `BUSY` (R29, R191). -/
def DropsWrite (s : State) : Prop := busy s = true ∧ ∃ c rest, WritesCmd s c rest

/-- A `CMD` write that is not dropped (R190). -/
def TakesWrite (s : State) (c : Word) : Prop := busy s = false ∧ ∃ rest, WritesCmd s c rest

/-! ### The tree as paths (R150) -/

/-- The node a path of branch bits leads to, none where a child is missing. -/
def follow (a : Arena) : NodeIdx → BitString → Option NodeIdx
  | n, [] => some n
  | n, b :: p =>
    match a.child n b with
    | some m => follow a m p
    | none => none

/-- `MSEQ` as the 510 bytes of a tree encoding (R80). -/
def mseqList (a : Arena) : List Byte := a.mseq.toList

/-- How many slots are not empty. -/
def liveSlots (a : Arena) : Nat := allBytes.countP fun i => decide (a.slotAt i ≠ emptySlot)

/-- A slot SelectMin may choose (R112). -/
def Eligible (a : Arena) (excl : Option Byte) (i : Byte) : Prop :=
  a.slotAt i ≠ emptySlot ∧ excl ≠ some i

/-- The pair `(W[SLOT[i]], i)` is not above `(W[SLOT[j]], j)` in lexicographic order (R112). -/
def PairLe (a : Arena) (i j : Byte) : Prop :=
  a.weightAt (a.slotAt i) < a.weightAt (a.slotAt j) ∨
    a.weightAt (a.slotAt i) = a.weightAt (a.slotAt j) ∧ i ≤ j

/-- The weights of the forest's trees, summed without wrapping (R118). -/
def liveWeight (a : Arena) : Nat :=
  ∑ i : Byte with a.slotAt i ≠ emptySlot, a.weightAt (a.slotAt i)

/-- The registers of `WEIGHT_WIDTH` bits hold no more than that (R33, R34). -/
def WeightsFit (a : Arena) : Prop :=
  a.total < 2 ^ a.weightWidth ∧ ∀ n, a.weightAt n < 2 ^ a.weightWidth

/-- Every node that the first `k` merges made weighs exactly what its two children weigh together: no add
that made it has wrapped (R115, R118). -/
def SumsExact (a : Arena) (k : Nat) : Prop :=
  ∀ n : NodeIdx, 256 ≤ n.toNat → n.toNat < 256 + k →
    ∃ l r, a.child n false = some l ∧ a.child n true = some r ∧
      a.weightAt n = a.weightAt l + a.weightAt r

/-- The table is the code of the tree (R150, R153): each entry is the path to its leaf, its length is the
stored one, and it is 1 to 255 bits long. -/
def CodesOf (a : Arena) (t : CodeTable) : Prop :=
  ∀ v, follow a a.root (t.codeAt v) = some (leafNode v) ∧ (t.lenAt v).toNat = (t.codeAt v).length ∧
    1 ≤ (t.codeAt v).length ∧ (t.codeAt v).length ≤ 255

/-! ### The payload (R84) and its reading (R183) -/

/-- The bytes of the full 8-bit groups of a bit-string; fewer than 8 last bits give none. -/
def packBits : BitString → List Byte
  | b7 :: b6 :: b5 :: b4 :: b3 :: b2 :: b1 :: b0 :: rest =>
    pack8 [b7, b6, b5, b4, b3, b2, b1, b0] :: packBits rest
  | _ => []

/-- The codes of an input, one after another. -/
def codeBits (t : CodeTable) (xs : List Byte) : BitString := xs.flatMap t.codeAt

/-- `PAD` for a payload of `n` bits (R84, R163): nothing if they fill whole bytes, else that many first
bits of the first code longer than the gap. -/
def padBits (t : CodeTable) (n : Nat) : BitString :=
  if n % 8 = 0 then []
  else
    match padChoice t (8 - n % 8) with
    | some v => (t.codeAt v).take (8 - n % 8)
    | none => []

/-- The payload of an input under a code table (R84). -/
def payload (t : CodeTable) (xs : List Byte) : List Byte :=
  packBits (codeBits t xs ++ padBits t (codeBits t xs).length)

/-- The symbols of a bit-string read from node `n`, and from the root after each (R180, R183). -/
def symbols (a : Arena) : NodeIdx → BitString → List Byte
  | _, [] => []
  | n, b :: p =>
    match a.child n b with
    | some m => if isLeaf m then leafByte m :: symbols a a.root p else symbols a m p
    | none => []

/-- Both commands that derive a code come to a state of which `P` holds: `ENCODE` on an input that fits, and
`ENCODE_EXT` on an accepted tree. -/
def EncodesTo (s : State) (P : State → Prop) : Prop :=
  (s.inp.ahead.length ≤ s.arena.maxInput → ∃ t, exec .encode s = .next t ∧ P t) ∧
  (wellFormedTree (s.tree.ahead.take 510) = true → ∃ t, exec .encodeExt s = .next t ∧ P t)

/-! ### Invariants -/

/-- The bytes a trace wrote, oldest first. The trace is kept newest first. -/
def outBytes : List PortEvent → List Byte
  | [] => []
  | .outWrite b :: es => outBytes es ++ [b]
  | _ :: es => outBytes es

/-- The reads of `IN` in a trace, oldest first; `none` is `EOS`. -/
def inReads : List PortEvent → List (Option Byte)
  | [] => []
  | .inRead r :: es => inReads es ++ [r]
  | _ :: es => inReads es

/-- The reads of `TREE` in a trace, oldest first; `none` is `EOS`. -/
def treeReads : List PortEvent → List (Option Byte)
  | [] => []
  | .treeRead r :: es => treeReads es ++ [r]
  | _ :: es => treeReads es

/-- How often a trace rewinds `IN`. -/
def rewinds : List PortEvent → Nat
  | [] => 0
  | .inRewind :: es => rewinds es + 1
  | _ :: es => rewinds es

/-- How many port calls a trace holds (R252): every event but a change of `STATUS.STATE`. -/
def portCalls : List PortEvent → Nat
  | [] => 0
  | .stateFinal _ :: es => portCalls es
  | _ :: es => portCalls es + 1

/-- So many small steps of the engine, each from the one before (R247). -/
inductive Ticks : State → State → Prop where
  | refl (s : State) : Ticks s s
  | step {s t u : State} : tick s = .next t → Ticks t u → Ticks s u

/-- How late a phase comes in a command; no command has two phases of one rank (R24). -/
def phaseRank : Phase → Nat
  | .idle => 0
  | .acc => 1
  | .deserRead => 1
  | .build => 2
  | .deserReplay => 2
  | .ser => 3
  | .unpack => 3
  | .derive => 4
  | .pack => 5
  | .pad => 6

/-- How the engine's registers hang together in every state a run reaches. -/
structure Consistent (s : State) : Prop where
  /-- `PHASE` is `P_IDLE` exactly when no command runs (R24). -/
  idle_iff : s.phase = .idle ↔ s.status ≠ .busy
  /-- A running command is in one of its own phases (R24, R196). -/
  phase_own : s.status = .busy → s.phase ∈ phasesOf s.opc
  /-- A running command's opcode is `LAST_OP` (R25, R30). -/
  last_op : s.status = .busy → s.lastOp = opcodeOf s.opc
  /-- There is an error code exactly in `ERROR` (R27, R28). -/
  err_iff : s.err ≠ .none ↔ s.status = .error
  /-- `INFO` is 0 whenever `ERR` is (R26). -/
  info_zero : s.err = .none → s.info = 0
  /-- An outcome waits only while `BUSY`. -/
  pend_busy : s.pend ≠ none → s.status = .busy
  /-- The outcome that waits is never an error without a code (R210). -/
  pend_code : ∀ e i, s.pend = some (.raised e i) → e ≠ .none
  /-- `OUT` holds the bytes written, in the order they were written (R55). -/
  out_trace : s.out = outBytes s.trace

/-- Every internal node below `256 + k` has two children, each of a lower index (R31, R32). -/
def Ordered (a : Arena) (k : Nat) : Prop :=
  ∀ n : NodeIdx, 256 ≤ n.toNat → n.toNat < 256 + k → ∀ b, ∃ m, a.child n b = some m ∧ m.toNat < n.toNat

/-- The forest after `K` merges (R35, R113): which slots hold what, and that every leaf is in exactly
one place. -/
structure Forest (a : Arena) : Prop where
  k_le : a.k.toNat ≤ 255
  ordered : Ordered a a.k.toNat
  below : ∀ i, a.slotAt i ≠ emptySlot → (a.slotAt i).toNat < 256 + a.k.toNat
  live : liveSlots a = 256 - a.k.toNat
  zero : a.slotAt 0 ≠ emptySlot
  cover : ∀ v, ∃ i p, a.slotAt i ≠ emptySlot ∧ follow a (a.slotAt i) p = some (leafNode v)
  once : ∀ v i j p q, a.slotAt i ≠ emptySlot → a.slotAt j ≠ emptySlot →
    follow a (a.slotAt i) p = some (leafNode v) → follow a (a.slotAt j) q = some (leafNode v) →
    i = j ∧ p = q

/-- A finished tree (R38, R122): the root is internal, every internal node has two children of lower
index, and exactly one path leads to each leaf. -/
structure Tree (a : Arena) : Prop where
  root_internal : 256 ≤ a.root.toNat
  root_node : a.root.toNat < 511
  ordered : Ordered a 255
  cover : ∀ v, ∃ p, follow a a.root p = some (leafNode v)
  once : ∀ v p q, follow a a.root p = some (leafNode v) → follow a a.root q = some (leafNode v) → p = q

/-- What holds of the working state in each phase between two small steps.

* `P_ACC`: the leaf weights add up to `TOTAL` (R101).
* `P_BUILD`: the forest of the merges so far, whose trees weigh `TOTAL` together (R113, R118).
* `P_SER`: a finished tree (R122), and at most 510 bytes of it written (R130).
* `P_DESER_READ` and `P_DESER_REPLAY`: bytes, or pairs, are still to come (R133, R134).
* `P_DERIVE`, `P_PACK` and `P_PAD`: a finished tree and its code (R150, R153). While PACK runs `PBUF` holds at
  most 262 bits (R40, R161), and in PAD the 8 bits of the last byte (R163).
* `P_UNPACK`: `CUR` is a node of a finished tree (R41); at an internal one all bits of the byte have been
  walked (R180), and at a leaf at most 7 are left. -/
def PhaseOk (s : State) : Prop :=
  match s.phase with
  | .idle => True
  | .acc => ∑ v : Byte, s.arena.weightAt (leafNode v) = s.arena.total
  | .build => Forest s.arena ∧ s.arena.k.toNat < 255 ∧ liveWeight s.arena = s.arena.total
  | .ser => Tree s.arena ∧ s.serIdx ≤ 510
  | .deserRead => s.arena.tcnt.toNat < 510
  | .deserReplay => Forest s.arena ∧ s.arena.k.toNat < 255
  | .derive => Tree s.arena ∧ CodesOf s.arena s.table
  | .pack => Tree s.arena ∧ CodesOf s.arena s.table ∧ s.pbuf.length ≤ 262
  | .pad => Tree s.arena ∧ CodesOf s.arena s.table ∧ s.pbuf.length = 8
  | .unpack => Tree s.arena ∧ s.cur.toNat < 511 ∧
      if isLeaf s.cur then s.bits.length ≤ 7 else s.bits = []

/-- A safe state: from it no step faults (the statements say so), and every run from reset is in one. -/
structure Sound (s : State) : Prop where
  consistent : Consistent s
  /-- `TOTAL` and the weights are within their width (R33, R34). -/
  weights_fit : WeightsFit s.arena
  /-- `PAD_UNAVAILABLE` is neither shown nor about to be (R165, R216). -/
  no_pad_error : s.err ≠ .padUnavailable ∧ ∀ i, s.pend ≠ some (.raised .padUnavailable i)
  phase_ok : s.status = .busy → s.pend = none → PhaseOk s

end Sys2Proof.Machine
end

