-- ==== Sys2Proof/Certificates/Slice0/Obligations.lean ====
section
/-! DEFINITION. The statements for the provers, from the spec's numbered rules. -/

open Sys2Proof Sys2Proof.Machine

/-! ### Command words -/

/-- R72's four words decode to the four commands. -/
def Obligations.CommandWordsDecode : Prop :=
  decode 0x00000001#32 = .ok .buildTree ∧ decode 0x00000002#32 = .ok .encode ∧
  decode 0x00000003#32 = .ok .decode ∧ decode 0x00000004#32 = .ok .encodeExt

/-- R72, R77: each command has exactly one legal word, and decoding gives it back. -/
def Obligations.OneLegalWordPerCommand : Prop :=
  ∀ (c : Word) (i : Instr), decode c = .ok i ↔ c = encode i

/-- R190, R218: a word with `RSVD` set or a reserved `OP`, written while not `BUSY`, is `ILLEGAL_COMMAND` with
the word's low half as `INFO` and its low byte as `LAST_OP`; no port call is made and no working state changes.
That the list `OUT` and the trace start anew, so that `OUT` is empty and the trace holds no port call, is the
model's reading (assumption 5, DEDUCED). -/
def Obligations.IllegalWordAborts : Prop :=
  ∀ (s : State) (c : Word) (rest : List HostAct), WritesCmd s c rest → busy s = false →
    (c.extractLsb' 8 24 ≠ 0#24 ∨ c.extractLsb' 0 8 ∉ [0x01#8, 0x02#8, 0x03#8, 0x04#8]) →
    ∃ t, step s = .next t ∧ t.status = .error ∧ t.err = .illegalCommand ∧ t.ovr = false ∧
      t.info = c.extractLsb' 0 16 ∧ t.lastOp = c.extractLsb' 0 8 ∧ t.phase = .idle ∧
      t.inp = s.inp ∧ t.tree = s.tree ∧ t.out = [] ∧ outBytes t.trace = [] ∧ portCalls t.trace = 0 ∧
      t.opc = s.opc ∧ t.arena = s.arena ∧ t.table = s.table ∧ t.pbuf = s.pbuf ∧ t.cur = s.cur ∧
      t.host = rest

/-! ### The step and the ports -/

/-- R14, R190: a queued command word is decoded and its meaning run, in any state. -/
def Obligations.StepRunsQueuedCommand : Prop :=
  (∀ (s : State) (c : Word) (i : Instr) (rest : List HostAct),
    s.host = .command c :: rest → decode c = .ok i → step s = exec i { s with host := rest }) ∧
  ∀ (s : State) (i : Instr), step (s.withFetchWord 32 (encode i).toNat) = exec i s

/-- R190, R247: acceptance of a legal word as a small step. That `OUT` and the trace start anew is read from
R67 and R14 (assumption 5). -/
def Obligations.AcceptanceSetsRegisters : Prop :=
  ∀ (s : State) (c : Word) (i : Instr) (rest : List HostAct),
    s.host = .cmdWrite c :: rest → busy s = false → decode c = .ok i →
    ∃ t, step s = .next t ∧ t.status = .busy ∧ t.ovr = false ∧ t.err = .none ∧ t.info = 0 ∧
      t.lastOp = c.extractLsb' 0 8 ∧ t.opc = i ∧ (phasesOf i).head? = some t.phase ∧ t.pend = none ∧
      t.inp = s.inp ∧ t.tree = s.tree ∧ t.out = [] ∧ t.trace = [] ∧ t.host = rest

/-- R250: a `STATUS` read right after a `CMD` write returns `BUSY` for a legal word, and `ERROR` for any
other, never the outcome of the command before. -/
def Obligations.StatusReadAfterWrite : Prop :=
  ∀ (s : State) (c : Word) (rest : List HostAct),
    s.host = .cmdWrite c :: .statusRead :: rest → busy s = false →
    ∃ t u w, step s = .next t ∧ step t = .next u ∧ u.readData = some w ∧
      w.extractLsb' 0 2 = if wellFormedWord c then 1#2 else 3#2

/-- R191: a `CMD` write while `BUSY` sets `OVR` and changes nothing else, whatever the word. -/
def Obligations.BusyWriteIsDropped : Prop :=
  (∀ (s : State) (c : Word) (rest : List HostAct), WritesCmd s c rest → busy s = true →
    step s = .next { s with ovr := true, host := rest }) ∧
  ∀ (s : State) (i : Instr), busy s = true → exec i s = .next { s with ovr := true }

/-- R23: the fields of `STATUS`, its hardwired zeros, the codes that are never produced, its reset value,
and that a write to it is ignored. -/
def Obligations.StatusWordLayout : Prop :=
  (∀ s : State,
    (statusWord s).extractLsb' 0 2 = stateCode s.status ∧
    (statusWord s).extractLsb' 2 1 = BitVec.ofBool s.ovr ∧
    (statusWord s).extractLsb' 3 5 = 0#5 ∧
    (statusWord s).extractLsb' 8 4 = errCode s.err ∧
    ((statusWord s).extractLsb' 8 4).toNat ≤ 6 ∧
    (statusWord s).extractLsb' 12 4 = 0#4 ∧
    (statusWord s).extractLsb' 16 8 = s.lastOp ∧
    (statusWord s).extractLsb' 24 8 = 0#8) ∧
  statusWord State.reset = 0#32 ∧
  ∀ (s : State) (v : Word) (rest : List HostAct), s.host = .statusWrite v :: rest →
    step s = .next { s with host := rest }

/-- R26, R60: `ERRINFO`'s fields, and that reads of the word ports return the current value and change
nothing of the engine, and a write to `ERRINFO` is ignored. -/
def Obligations.WordPortReads : Prop :=
  (∀ s : State, (errinfoWord s).extractLsb' 0 16 = s.info ∧ (errinfoWord s).extractLsb' 16 16 = 0#16) ∧
  errinfoWord State.reset = 0#32 ∧
  (∀ (s : State) (rest : List HostAct), s.host = .statusRead :: rest →
    step s = .next { s with readData := some (statusWord s), host := rest }) ∧
  (∀ (s : State) (rest : List HostAct), s.host = .errinfoRead :: rest →
    step s = .next { s with readData := some (errinfoWord s), host := rest }) ∧
  ∀ (s : State) (v : Word) (rest : List HostAct), s.host = .errinfoWrite v :: rest →
    step s = .next { s with host := rest }

/-- R52, R53, R55: what the stream primitives do, and when they block. That the host's readiness on `OUT` is
`always` or a count is the model's form of R55 (assumption 20, DESIGN CHOICE). -/
def Obligations.StreamPrimitives : Prop :=
  (∀ (s : State) (b : Byte) (rest : List Byte), s.inp.ahead = b :: rest →
    inRead s = .byte b
      { s with
        inp := { s.inp with taken := s.inp.taken ++ [b], ahead := rest }
        trace := .inRead (some b) :: s.trace }) ∧
  (∀ s : State, s.inp.ahead = [] → s.inp.ended = true →
    inRead s = .eos { s with trace := .inRead none :: s.trace }) ∧
  (∀ s : State, s.inp.ahead = [] → s.inp.ended = false → inRead s = .blocked) ∧
  (∀ (s : State) (b : Byte) (rest : List Byte), s.tree.ahead = b :: rest →
    treeRead s = .byte b
      { s with
        tree := { s.tree with taken := s.tree.taken ++ [b], ahead := rest }
        trace := .treeRead (some b) :: s.trace }) ∧
  (∀ s : State, s.tree.ahead = [] → s.tree.ended = true →
    treeRead s = .eos { s with trace := .treeRead none :: s.trace }) ∧
  (∀ s : State, s.tree.ahead = [] → s.tree.ended = false → treeRead s = .blocked) ∧
  (∀ s : State, inRewind s =
    { s with
      inp := { s.inp with taken := [], ahead := s.inp.taken ++ s.inp.ahead }
      trace := .inRewind :: s.trace }) ∧
  (∀ (s : State) (b : Byte), s.outReady = .always →
    outWrite b s = some { s with out := s.out ++ [b], trace := .outWrite b :: s.trace }) ∧
  (∀ (s : State) (b : Byte) (n : Nat), s.outReady = .upTo (n + 1) →
    outWrite b s =
      some { s with out := s.out ++ [b], outReady := .upTo n, trace := .outWrite b :: s.trace }) ∧
  ∀ (s : State) (b : Byte), s.outReady = .upTo 0 → outWrite b s = none

/-- R52, R55, I13: a step whose read finds nothing delivered, or whose write is not accepted, changes
nothing, and the command stays `BUSY`. In UNPACK the write is due at a leaf; with a leaf as `ROOT`, which no
run has (R38), none is ever due and the step reads (R184, assumption 15). -/
def Obligations.BlockedEngineWaits : Prop :=
  ∀ s : State, busy s = true → s.pend = none → s.phase ∈ phasesOf s.opc →
    ((s.phase = .acc ∧ s.inp.ahead = [] ∧ s.inp.ended = false) ∨
     (s.phase = .deserRead ∧ s.opc = .decode ∧ s.arena.tcnt.toNat < 510 ∧
        s.inp.ahead = [] ∧ s.inp.ended = false) ∨
     (s.phase = .deserRead ∧ s.opc = .encodeExt ∧ s.arena.tcnt.toNat < 510 ∧
        s.tree.ahead = [] ∧ s.tree.ended = false) ∨
     (s.phase = .pack ∧ s.pbuf.length < 8 ∧ s.inp.ahead = [] ∧ s.inp.ended = false) ∨
     (s.phase = .unpack ∧ (isLeaf s.cur = false ∨ isLeaf s.arena.root = true) ∧
        s.inp.ahead = [] ∧ s.inp.ended = false) ∨
     (s.outReady = .upTo 0 ∧
       ((s.phase = .ser ∧ s.serIdx < 510) ∨ (s.phase = .pack ∧ 8 ≤ s.pbuf.length) ∨
        (s.phase = .pad ∧ s.pbuf ≠ []) ∨
        (s.phase = .unpack ∧ isLeaf s.cur = true ∧ isLeaf s.arena.root = false)))) →
    engineStep s = .next s

/-- R233, R240: an engine that is not `BUSY` makes no port call and changes nothing until `CMD` is
written. -/
def Obligations.IdleEngineWaits : Prop :=
  ∀ s : State, busy s = false → s.host = [] → step s = .next s

/-- R240, R241: reset at any time zeroes `STATUS` and `ERRINFO`, puts `PHASE` at `P_IDLE`, and leaves the
ports as they stand. -/
def Obligations.ResetAbandonsCommand : Prop :=
  ∀ (s : State) (rest : List HostAct), s.host = .reset :: rest →
    ∃ t, step s = .next t ∧ statusWord t = 0#32 ∧ errinfoWord t = 0#32 ∧ t.phase = .idle ∧
      t.inp = s.inp ∧ t.tree = s.tree ∧ t.out = s.out ∧ t.trace = s.trace ∧ t.host = rest

/-! ### The status registers, step by step -/

/-- R27: what each event does to `STATUS.STATE`, and that nothing else changes it. A queued `command` is a
`CMD` write and the engine's run in one step, so it may also show the command's end. -/
def Obligations.StatusStateTransitions : Prop :=
  ∀ s t : State, step s = .next t →
    (s.host.head? = some .reset → t.status = .idle) ∧
    (∀ c, TakesWrite s c → wellFormedWord c = false → t.status = .error) ∧
    (∀ c, TakesWrite s c → wellFormedWord c = true → s.host.head? = some (.cmdWrite c) →
      t.status = .busy) ∧
    (∀ c, TakesWrite s c → wellFormedWord c = true → s.host.head? = some (.command c) →
      t.status = .busy ∨ t.status = .done ∨ t.status = .error) ∧
    (DropsWrite s → t.status = .busy) ∧
    (EngineMoves s → busy s = true →
      (s.pend = some .finished → t.status = .done) ∧
      ((∃ e i, s.pend = some (.raised e i)) → t.status = .error) ∧
      (s.pend = none → t.status = .busy)) ∧
    (s.host.head? ≠ some .reset → (∀ c rest, ¬ WritesCmd s c rest) →
      ¬ (EngineMoves s ∧ busy s = true) → t.status = s.status)

/-- R28: `ERR` and `INFO` are set to 0 when a `CMD` write is accepted, set by a `raise`, cleared by reset, and
written at no other point; a command that completes without `raise` leaves both 0. -/
def Obligations.ErrorRegisterWrites : Prop :=
  ∀ s t : State, step s = .next t →
    (s.host.head? = some .reset → t.err = .none ∧ t.info = 0) ∧
    (∀ c, TakesWrite s c → wellFormedWord c = false →
      t.err = .illegalCommand ∧ t.info = c.extractLsb' 0 16) ∧
    (∀ c, TakesWrite s c → wellFormedWord c = true →
      if t.status = .error then t.err ≠ .none else t.err = .none ∧ t.info = 0) ∧
    (EngineMoves s → busy s = true → ∀ e i, s.pend = some (.raised e i) → t.err = e ∧ t.info = i) ∧
    (s.host.head? ≠ some .reset → (∀ c, ¬ TakesWrite s c) →
      ¬ (EngineMoves s ∧ busy s = true ∧ ∃ e i, s.pend = some (.raised e i)) →
      t.err = s.err ∧ t.info = s.info)

/-- R29: `OVR` is set by a dropped write, which changes nothing else, cleared by an accepted write and by
reset, and otherwise stays. -/
def Obligations.OverrunFlag : Prop :=
  ∀ s t : State, step s = .next t →
    (DropsWrite s → t = { s with ovr := true, host := s.host.tail }) ∧
    ((∃ c, TakesWrite s c) → t.ovr = false) ∧
    (s.host.head? = some .reset → t.ovr = false) ∧
    (¬ DropsWrite s → (∀ c, ¬ TakesWrite s c) → s.host.head? ≠ some .reset → t.ovr = s.ovr)

/-- R30: `LAST_OP` gets `CMD[7:0]` on every write that is not dropped, 0 on reset, and otherwise stays. -/
def Obligations.LastOpRegister : Prop :=
  ∀ s t : State, step s = .next t →
    (∀ c, TakesWrite s c → t.lastOp = c.extractLsb' 0 8) ∧
    (s.host.head? = some .reset → t.lastOp = 0) ∧
    ((∀ c, ¬ TakesWrite s c) → s.host.head? ≠ some .reset → t.lastOp = s.lastOp)

/-! ### Invariants -/

/-- The registers hang together after every step (R24, R25, R26, R28, R30, R55). -/
def Obligations.ConsistentKept : Prop :=
  ∀ s t : State, Consistent s → step s = .next t → Consistent t

/-- From a sound state no step faults or is refused, and the next state is sound: through every phase the
working state, the code table, `PBUF`, `CUR` and the weights stay as `Sound` has them (R40, R101, R113, R118,
R122, R150, R153, R161, R163, R165, R181). -/
def Obligations.SoundNeverFaults : Prop :=
  ∀ s : State, Sound s → ∃ t, step s = .next t ∧ Sound t

/-- The state after reset is sound, in a machine of any `WEIGHT_WIDTH` (R8). -/
def Obligations.ResetIsSound : Prop := (∀ width, Sound (State.resetAt width)) ∧ Sound State.reset

/-- R8: `WEIGHT_WIDTH` is an argument of the model. A machine keeps the width it is built with in every step,
the default being 64; that it is held in the state is the model's form (assumption 1, DESIGN CHOICE). -/
def Obligations.WeightWidthIsFixed : Prop :=
  (∀ width, (State.resetAt width).arena.weightWidth = width) ∧ State.reset = State.resetAt 64 ∧
  ∀ s t : State, step s = .next t → t.arena.weightWidth = s.arena.weightWidth

/-- Every command answers a next state in every state: BUILD and DERIVE cannot fail (R110, R151). -/
def Obligations.EveryCommandAnswers : Prop :=
  ∀ (i : Instr) (s : State), ∃ t, exec i s = .next t

/-- R24: `PHASE` never goes back within a command. -/
def Obligations.PhaseNeverGoesBack : Prop :=
  ∀ s t : State, busy s = true → tick s = .next t → t.status = .busy →
    t.opc = s.opc ∧ phaseRank s.phase ≤ phaseRank t.phase

/-- R56: a small step makes at most one visible event, and `OUT` only grows, by the byte of that event. -/
def Obligations.OneEventPerStep : Prop :=
  ∀ s t : State, busy s = true → tick s = .next t →
    (t.trace = s.trace ∧ t.out = s.out) ∨
    ∃ e, t.trace = e :: s.trace ∧ t.out = s.out ++ outBytes [e]

/-- R14, R247: the big step is the small steps, taken until the command ends or blocks. -/
def Obligations.SmallStepsAgree : Prop :=
  ∀ (i : Instr) (s : State), busy s = false →
    ∃ t, exec i s = .next t ∧ Ticks (start i s) t ∧ (busy t = true → tick t = .next t)

/-! ### The frequency table and the builder -/

/-- R101: after ACCUMULATE each leaf weighs what its byte value occurs, and `TOTAL` is the sum and the
length of the input. That the command's end leaves them so is the model's choice (assumption 21). -/
def Obligations.FrequencyCounts : Prop :=
  ∀ (i : Instr) (s : State), i = .buildTree ∨ i = .encode → Ready s →
    s.inp.ahead.length ≤ s.arena.maxInput →
    ∃ t, exec i s = .next t ∧
      (∀ v, t.arena.weightAt (leafNode v) = s.inp.ahead.count v) ∧
      t.arena.total = s.inp.ahead.length ∧
      t.arena.total = ∑ v : Byte, t.arena.weightAt (leafNode v) ∧
      (∀ v, t.arena.weightAt (leafNode v) ≤ t.arena.total) ∧
      t.arena.total ≤ s.arena.maxInput

/-- R100, R217, R221: an input longer than `2^WEIGHT_WIDTH - 1` bytes is refused at the first byte too
many, with nothing written. -/
def Obligations.WeightOverflowRefused : Prop :=
  ∀ (i : Instr) (s : State), i = .buildTree ∨ i = .encode → busy s = false →
    s.arena.maxInput < s.inp.ahead.length →
    ∃ t, exec i s = .next t ∧ Aborted i .weightOverflow 0 t ∧ t.out = [] ∧
      t.inp = readPart (s.arena.maxInput + 1) s.inp ∧ t.tree = s.tree

/-- R112: SelectMin finds the eligible slot of the least `(weight, index)` pair, and finds none only where
no slot is eligible. -/
def Obligations.SelectMinIsLeastPair : Prop :=
  ∀ (a : Arena) (excl : Option Byte),
    (selectMin a excl = none ↔ ∀ i, ¬ Eligible a excl i) ∧
    ∀ i, selectMin a excl = some i ↔
      Eligible a excl i ∧ ∀ j, Eligible a excl j → j ≠ i → PairLe a i j

/-- R112 to R118: a merge step of a sound state links the two slots SelectMin finds, the lower to the left, and
the new node weighs exactly what they do. That the root is taken and `P_SER` entered in the step of the last
merge, `K` = 254, is the model's reading of R247 (assumption 18, DEDUCED). -/
def Obligations.MergeStepLinks : Prop :=
  ∀ s : State, Sound s → busy s = true → s.pend = none → s.phase = .build →
    ∃ i1 i2 t, selectMin s.arena none = some i1 ∧ selectMin s.arena (some i1) = some i2 ∧ i1 ≠ i2 ∧
      tick s = .next t ∧
      (∀ b, t.arena.child (mergeNode s.arena.k) b =
        some (s.arena.slotAt (if b then maxByte i1 i2 else minByte i1 i2))) ∧
      t.arena.weightAt (mergeNode s.arena.k) =
        s.arena.weightAt (s.arena.slotAt i1) + s.arena.weightAt (s.arena.slotAt i2) ∧
      t.arena.mseqAt (2 * s.arena.k.toNat) = minByte i1 i2 ∧
      t.arena.mseqAt (2 * s.arena.k.toNat + 1) = maxByte i1 i2 ∧
      t.arena.k.toNat = s.arena.k.toNat + 1 ∧
      (s.arena.k.toNat < 254 →
        t.arena.slotAt (minByte i1 i2) = mergeNode s.arena.k ∧
        t.arena.slotAt (maxByte i1 i2) = emptySlot ∧
        liveSlots t.arena = 255 - s.arena.k.toNat ∧
        ∀ j, j ≠ i1 → j ≠ i2 → t.arena.slotAt j = s.arena.slotAt j) ∧
      (s.arena.k.toNat = 254 →
        t.arena.root = mergeNode s.arena.k ∧ t.phase = .ser ∧ ∀ j, t.arena.slotAt j = emptySlot)

/-- R115, R118: no weight wraps, as every internal node weighs exactly what its two children weigh, and the
root weighs `TOTAL`. That the command's end leaves them so is the model's choice (assumption 21). -/
def Obligations.RootWeighsTotal : Prop :=
  ∀ (i : Instr) (s : State), i = .buildTree ∨ i = .encode → Ready s →
    s.inp.ahead.length ≤ s.arena.maxInput →
    ∃ t, exec i s = .next t ∧ t.arena.weightAt t.arena.root = t.arena.total ∧
      ∀ n : NodeIdx, 256 ≤ n.toNat → n.toNat < 511 →
        ∃ l r, t.arena.child n false = some l ∧ t.arena.child n true = some r ∧
          t.arena.weightAt n = t.arena.weightAt l + t.arena.weightAt r

/-- R117, R122: BUILD leaves a full binary tree over the 256 leaves, its root in `ROOT` and every slot
empty. That the command's end leaves it so is the model's choice (assumption 21). -/
def Obligations.BuildLeavesFullTree : Prop :=
  ∀ s : State, Ready s → s.inp.ahead.length ≤ s.arena.maxInput →
    ∃ t, exec .buildTree s = .next t ∧ Tree t.arena ∧ (∀ j, t.arena.slotAt j = emptySlot) ∧
      t.arena.k = 255

/-- R119: BUILD is a function of the 256 leaf weights, so equal counts give the same arena and record, in
machines of one `WEIGHT_WIDTH`. -/
def Obligations.BuildIsDeterministic : Prop :=
  (∀ a a' : Arena, a'.weightWidth = a.weightWidth → (∀ v, a.weightAt (leafNode v) = a'.weightAt (leafNode v)) →
    ∃ b b', buildArena a = some b ∧ buildArena a' = some b' ∧ b.mseq = b'.mseq ∧ b.left = b'.left ∧
      b.right = b'.right ∧ b.root = b'.root ∧ b.w = b'.w) ∧
  ∀ s s' : State, Ready s → Ready s' → s'.arena.weightWidth = s.arena.weightWidth →
    s.inp.ahead.Perm s'.inp.ahead → s.inp.ahead.length ≤ s.arena.maxInput →
    ∃ t t', exec .buildTree s = .next t ∧ exec .buildTree s' = .next t' ∧ t.out = t'.out

/-- R120: the leaves of weight 0 are merged first, each into the slot of the lowest of them. -/
def Obligations.ZeroWeightLeavesFirst : Prop :=
  ∀ (s : State) (z : Byte) (zs : List Byte), Ready s → s.inp.ahead.length ≤ s.arena.maxInput →
    allBytes.filter (fun v => decide (s.inp.ahead.count v = 0)) = z :: zs →
    ∃ t, exec .buildTree s = .next t ∧
      ∀ j, (h : j < zs.length) → loIndex t.out j = z ∧ hiIndex t.out j = zs[j]

/-- R103, R121: an empty input builds the chain `(0,1), (0,2), …, (0,255)`. That `TOTAL` stands after the end
is the model's choice (assumption 21). -/
def Obligations.EmptyInputBuildsChain : Prop :=
  ∀ s : State, Ready s → s.inp.ahead = [] →
    ∃ t, exec .buildTree s = .next t ∧ Completed .buildTree t ∧ t.arena.total = 0 ∧
      t.out = (List.range 255).flatMap fun k => [0#8, BitVec.ofNat 8 (k + 1)]

/-! ### The commands -/

/-- R192, R80, R82, R85: `BUILD_TREE` completes and writes an accepted tree encoding, the 510 bytes of the
record, which the model keeps after the end (assumption 21). -/
def Obligations.BuildTreeCompletes : Prop :=
  ∀ s : State, Ready s → s.inp.ahead.length ≤ s.arena.maxInput →
    ∃ t, exec .buildTree s = .next t ∧ Completed .buildTree t ∧ t.out = mseqList t.arena ∧
      t.out.length = 510 ∧ wellFormedTree t.out = true ∧ t.inp = readOut s.inp ∧ t.tree = s.tree

/-- R193, R84, R85: `ENCODE` completes and writes the header and the payload of the whole of `IN` under the
code of the tree it built. The tree and the code are read in the final state, which keeps them by the model's
choice (assumption 21); so in the next three statements. -/
def Obligations.EncodeCompletes : Prop :=
  ∀ s : State, Ready s → s.inp.ahead.length ≤ s.arena.maxInput →
    ∃ t, exec .encode s = .next t ∧ Completed .encode t ∧ Tree t.arena ∧ CodesOf t.arena t.table ∧
      wellFormedTree (mseqList t.arena) = true ∧
      t.out = mseqList t.arena ++ payload t.table (s.inp.taken ++ s.inp.ahead) ∧
      t.out.length = 510 + ((codeBits t.table (s.inp.taken ++ s.inp.ahead)).length + 7) / 8 ∧
      t.inp = readOut s.inp ∧ t.tree = s.tree

/-- R195, R131, R138, R84: `ENCODE_EXT` on an accepted tree completes: the header is the 510 bytes as read,
then the payload of `IN`, and no byte of `TREE` after the 510th is read. -/
def Obligations.EncodeExtCompletes : Prop :=
  ∀ s : State, Ready s → wellFormedTree (s.tree.ahead.take 510) = true →
    ∃ t, exec .encodeExt s = .next t ∧ Completed .encodeExt t ∧ Tree t.arena ∧
      CodesOf t.arena t.table ∧
      t.out = s.tree.ahead.take 510 ++ payload t.table s.inp.ahead ∧
      t.out.length = 510 + ((codeBits t.table s.inp.ahead).length + 7) / 8 ∧
      t.inp = readOut s.inp ∧ t.tree = readPart 510 s.tree

/-- R194, R180, R182, R183: `DECODE` of an accepted header completes whatever the payload, and writes the
symbols of its bits. -/
def Obligations.DecodeCompletes : Prop :=
  ∀ s : State, Ready s → wellFormedTree (s.inp.ahead.take 510) = true →
    ∃ t, exec .decode s = .next t ∧ Completed .decode t ∧ Tree t.arena ∧
      t.out = symbols t.arena t.arena.root ((s.inp.ahead.drop 510).flatMap bits8) ∧
      t.inp = readOut s.inp ∧ t.tree = s.tree

/-- R199: `ENCODE`'s first 510 bytes are what `BUILD_TREE` writes for the same input, in a machine of the same
width. -/
def Obligations.HeaderIsTreeFile : Prop :=
  ∀ s s' : State, Ready s → Ready s' → s'.arena.weightWidth = s.arena.weightWidth →
    s'.inp = s.inp → s.inp.ahead.length ≤ s.arena.maxInput →
    ∃ t t', exec .buildTree s = .next t ∧ exec .encode s' = .next t' ∧ t'.out.take 510 = t.out

/-- R8, R47, R54, R104, R135: what each command leaves alone, however far it runs. That its end changes no
working state either is the model's choice (assumption 21). -/
def Obligations.CommandFrames : Prop :=
  ∀ (i : Instr) (s t : State), busy s = false → exec i s = .next t →
    t.host = s.host ∧ t.readData = s.readData ∧ t.ovr = false ∧ t.opc = i ∧
      t.lastOp = opcodeOf i ∧ t.arena.weightWidth = s.arena.weightWidth ∧
    (i = .buildTree → t.arena.tcnt = s.arena.tcnt ∧ t.table = s.table ∧ t.pbuf = s.pbuf ∧
      t.cur = s.cur ∧ t.tree = s.tree) ∧
    (i = .encode → t.arena.tcnt = s.arena.tcnt ∧ t.cur = s.cur ∧ t.tree = s.tree) ∧
    (i = .decode → t.arena.w = s.arena.w ∧ t.arena.total = s.arena.total ∧ t.table = s.table ∧
      t.pbuf = s.pbuf ∧ t.tree = s.tree) ∧
    (i = .encodeExt → t.arena.w = s.arena.w ∧ t.arena.total = s.arena.total ∧ t.cur = s.cur)

/-- R54: the reads each command makes of the ports when it completes. -/
def Obligations.StreamsConsumed : Prop :=
  (∀ s : State, Ready s → s.inp.ahead.length ≤ s.arena.maxInput → ∃ t, exec .buildTree s = .next t ∧
    inReads t.trace = s.inp.ahead.map some ++ [none] ∧ treeReads t.trace = [] ∧
    rewinds t.trace = 0) ∧
  (∀ s : State, Ready s → s.inp.ahead.length ≤ s.arena.maxInput → s.inp.taken = [] →
    ∃ t, exec .encode s = .next t ∧
      inReads t.trace = s.inp.ahead.map some ++ [none] ++ (s.inp.ahead.map some ++ [none]) ∧
      treeReads t.trace = [] ∧ rewinds t.trace = 1) ∧
  (∀ s : State, Ready s → wellFormedTree (s.inp.ahead.take 510) = true →
    ∃ t, exec .decode s = .next t ∧ inReads t.trace = s.inp.ahead.map some ++ [none] ∧
      treeReads t.trace = [] ∧ rewinds t.trace = 0) ∧
  ∀ s : State, Ready s → wellFormedTree (s.tree.ahead.take 510) = true →
    ∃ t, exec .encodeExt s = .next t ∧ inReads t.trace = s.inp.ahead.map some ++ [none] ∧
      treeReads t.trace = (s.tree.ahead.take 510).map some ∧ rewinds t.trace = 0

/-- R252: the port calls of `ENCODE` and `DECODE`, `L` being read from the code table the final state keeps
(assumption 21). -/
def Obligations.PortCallCounts : Prop :=
  (∀ s : State, Ready s → s.inp.ahead.length ≤ s.arena.maxInput → s.inp.taken = [] →
    ∃ t, exec .encode s = .next t ∧ portCalls t.trace =
      2 * s.inp.ahead.length + 2 + 510 + ((codeBits t.table s.inp.ahead).length + 7) / 8 + 1) ∧
  ∀ s : State, Ready s → wellFormedTree (s.inp.ahead.take 510) = true →
    ∃ t, exec .decode s = .next t ∧ portCalls t.trace = s.inp.ahead.length + 1 + t.out.length

/-! ### The tree codec's errors -/

/-- R133, R213: a tree port that ends before 510 bytes raises `TRUNCATED_TREE` with the count, whatever the
bytes, and nothing is written. -/
def Obligations.TruncatedTreeReported : Prop :=
  (∀ s : State, busy s = false → s.inp.ahead.length < 510 → s.inp.ended = true →
    ∃ t, exec .decode s = .next t ∧
      Aborted .decode .truncatedTree (BitVec.ofNat 16 s.inp.ahead.length) t ∧ t.out = [] ∧
      t.inp = readOut s.inp ∧ t.tree = s.tree) ∧
  ∀ s : State, busy s = false → s.tree.ahead.length < 510 → s.tree.ended = true →
    ∃ t, exec .encodeExt s = .next t ∧
      Aborted .encodeExt .truncatedTree (BitVec.ofNat 16 s.tree.ahead.length) t ∧ t.out = [] ∧
      t.tree = readOut s.tree ∧ t.inp = s.inp

/-- R134, R137, R214, R215, R221: the first failing pair is the one reported, an empty slot before a wrong
order, with 510 bytes consumed and nothing written. -/
def Obligations.FirstBadPairReported : Prop :=
  ∀ (h : List Byte) (k : Nat), h.length = 510 → k < 255 →
    (∀ j, j < k → pairSlotsFull h j = true ∧ pairOrdered h j = true) →
    ¬ (pairSlotsFull h k = true ∧ pairOrdered h k = true) →
    (∀ s : State, busy s = false → s.inp.ahead.take 510 = h →
      ∃ t, exec .decode s = .next t ∧
        Aborted .decode (if pairSlotsFull h k = false then .malformedEmptySlot else .malformedPairOrder)
          (BitVec.ofNat 16 k) t ∧ t.out = [] ∧ t.inp = readPart 510 s.inp ∧ t.tree = s.tree) ∧
    ∀ s : State, busy s = false → s.tree.ahead.take 510 = h →
      ∃ t, exec .encodeExt s = .next t ∧
        Aborted .encodeExt
          (if pairSlotsFull h k = false then .malformedEmptySlot else .malformedPairOrder)
          (BitVec.ofNat 16 k) t ∧ t.out = [] ∧ t.tree = readPart 510 s.tree ∧ t.inp = s.inp

/-- R81: exactly the accepted encodings are replayed without an error. -/
def Obligations.AcceptedEncodings : Prop :=
  ∀ s : State, Ready s → 510 ≤ s.inp.ahead.length →
    ∃ t, exec .decode s = .next t ∧
      (t.status = .done ↔ wellFormedTree (s.inp.ahead.take 510) = true)

/-- R81: in an accepted encoding the high indices are 1..255, each once, and 0 is never one. -/
def Obligations.AcceptedHighIndices : Prop :=
  ∀ h : List Byte, wellFormedTree h = true →
    ∀ v : Byte, (List.range 255).countP (fun k => decide (hiIndex h k = v)) = if v = 0 then 0 else 1

/-- D30, R221: every error a command ends with is raised before its first `OutWrite`. -/
def Obligations.ErrorsWriteNothing : Prop :=
  ∀ (i : Instr) (s t : State), busy s = false → exec i s = .next t → t.status = .error → t.out = []

/-! ### The code -/

/-- R150, R153 to R156: DERIVE of a finished tree fills the code table: the code of each byte value is the one
path to its leaf, of 1 to 255 bits, no code is a prefix of another, every proper prefix leads to an internal
node, the Kraft sum is 1 (here multiplied by `2^255`), some code is at least 8 bits long, and so the padding
search finds a byte value for every `need` up to 7 (half of R165; `PaddingNeverFails` says the rest). -/
def Obligations.DeriveFillsTable : Prop :=
  ∀ s : State, Tree s.arena → ∃ t, derive s = .going { s with phase := .derive, table := t } ∧
    (∀ v : Byte, (∀ p, follow s.arena s.arena.root p = some (leafNode v) ↔ p = t.codeAt v) ∧
      (t.lenAt v).toNat = (t.codeAt v).length ∧ 1 ≤ (t.lenAt v).toNat ∧ (t.lenAt v).toNat ≤ 255) ∧
    (∀ u v : Byte, t.codeAt u <+: t.codeAt v → u = v) ∧
    (∀ (v : Byte) (n : Nat), n < (t.codeAt v).length →
      ∃ m, follow s.arena s.arena.root ((t.codeAt v).take n) = some m ∧ isLeaf m = false) ∧
    ∑ v : Byte, 2 ^ (255 - (t.lenAt v).toNat) = 2 ^ 255 ∧
    (∃ v, 8 ≤ (t.lenAt v).toNat) ∧
    ∀ need, need ≤ 7 → ∃ v, padChoice t need = some v

/-- R150, R152, R153: after DERIVE every byte value has exactly one code, the path to its leaf, of 1 to 255
bits, in an `ENCODE` and in an `ENCODE_EXT`. Here and in the next three statements the tree and the table are read
in the final state, which keeps them by the model's choice (assumption 21). -/
def Obligations.CodesArePaths : Prop :=
  ∀ s : State, Ready s → EncodesTo s fun t => ∀ v : Byte,
    (∀ p, follow t.arena t.arena.root p = some (leafNode v) ↔ p = t.table.codeAt v) ∧
    (t.table.lenAt v).toNat = (t.table.codeAt v).length ∧
    1 ≤ (t.table.lenAt v).toNat ∧ (t.table.lenAt v).toNat ≤ 255

/-- R154: no code is a prefix of another, and every proper prefix of a code is the path to an internal node. -/
def Obligations.CodesArePrefixFree : Prop :=
  ∀ s : State, Ready s → EncodesTo s fun t =>
    (∀ u v : Byte, t.table.codeAt u <+: t.table.codeAt v → u = v) ∧
    ∀ (v : Byte) (n : Nat), n < (t.table.codeAt v).length →
      ∃ m, follow t.arena t.arena.root ((t.table.codeAt v).take n) = some m ∧ isLeaf m = false

/-- R155: the Kraft sum is exactly 1, here multiplied by `2^255`. -/
def Obligations.KraftEquality : Prop :=
  ∀ s : State, Ready s → EncodesTo s fun t => ∑ v : Byte, 2 ^ (255 - (t.table.lenAt v).toNat) = 2 ^ 255

/-- R156: some code is at least 8 bits long. -/
def Obligations.SomeCodeIsLong : Prop :=
  ∀ s : State, Ready s → EncodesTo s fun t => ∃ v, 8 ≤ (t.table.lenAt v).toNat

/-- R165: the padding search always finds a byte value, as `need` is at most 7, wherever a command may come to
pad; and `PAD_UNAVAILABLE` is neither shown nor about to be after any step from a sound state, nor after any
command taken in one step. That the table is filled on entry to `P_DERIVE` is read from R247 (assumption 18). -/
def Obligations.PaddingNeverFails : Prop :=
  (∀ s : State, Sound s → busy s = true → s.pend = none →
    s.phase = .derive ∨ s.phase = .pack ∨ s.phase = .pad →
    ∀ need, need ≤ 7 → ∃ v, padChoice s.table need = some v) ∧
  (∀ s t : State, Sound s → step s = .next t →
    t.err ≠ .padUnavailable ∧ ∀ info, t.pend ≠ some (.raised .padUnavailable info)) ∧
  ∀ (i : Instr) (s t : State), busy s = false → exec i s = .next t → t.err ≠ .padUnavailable

/-! ### The packer and the unpacker, step by step -/

/-- R40, R160, R161, R163: in PACK `PBUF` holds at most 262 bits and `PLEN` says how many. With 8 or more the step
writes the first 8 and reads nothing; with at most 7 it reads a byte and appends its code, or at `EOS` ends the
command if nothing is left and else completes the last byte, which the next step writes. That these are the
steps is read from R247 (assumption 18). -/
def Obligations.PackBufferBound : Prop :=
  ∀ s : State, Sound s → busy s = true → s.pend = none → s.phase = .pack →
    s.pbuf.length ≤ 262 ∧ (plen s).toNat = s.pbuf.length ∧
    (8 ≤ s.pbuf.length → s.outReady = .always →
      ∃ t, tick s = .next t ∧ t.out = s.out ++ [pack8 (s.pbuf.take 8)] ∧ t.pbuf = s.pbuf.drop 8 ∧
        t.inp = s.inp ∧ t.phase = .pack) ∧
    (∀ t, 8 ≤ s.pbuf.length → tick s = .next t → inReads t.trace = inReads s.trace) ∧
    (∀ x rest, s.pbuf.length ≤ 7 → s.inp.ahead = x :: rest →
      ∃ t, tick s = .next t ∧ t.pbuf = s.pbuf ++ s.table.codeAt x ∧ t.pbuf.length ≤ 262 ∧
        t.inp.ahead = rest ∧ t.out = s.out ∧ t.phase = .pack) ∧
    (s.pbuf = [] → s.inp.ahead = [] → s.inp.ended = true →
      ∃ t, tick s = .next t ∧ t.pend = some .finished ∧ t.out = s.out) ∧
    (s.pbuf ≠ [] → s.pbuf.length ≤ 7 → s.inp.ahead = [] → s.inp.ended = true →
      ∃ v t, padChoice s.table (8 - s.pbuf.length) = some v ∧ tick s = .next t ∧
        t.pbuf = s.pbuf ++ (s.table.codeAt v).take (8 - s.pbuf.length) ∧ t.pbuf.length = 8 ∧
        t.phase = .pad ∧ t.out = s.out ∧
        (s.outReady = .always → ∃ u, tick t = .next u ∧ u.out = t.out ++ [pack8 t.pbuf] ∧ u.pbuf = [] ∧
          u.pend = some .finished))

/-- R41, R180, R181, R184: in UNPACK `CUR` is a node of the tree, an internal one has both children, and the walk
asks for no other: an `InRead` walks the bits of its byte from `CUR`, a symbol is written at a leaf and the walk
goes on from `ROOT`, each up to the next leaf or to the last bit, and the command ends at `EOS` and nowhere
else. That these are the steps is read from R247 (assumption 18). -/
def Obligations.BitStepsStayInTree : Prop :=
  ∀ s : State, Sound s → busy s = true → s.pend = none → s.phase = .unpack →
    s.cur.toNat < 511 ∧
    (isLeaf s.cur = false → ∀ b, ∃ m, s.arena.child s.cur b = some m ∧ m.toNat < 511) ∧
    (∀ x rest, isLeaf s.cur = false → s.inp.ahead = x :: rest →
      ∃ t p, tick s = .next t ∧ t.out = s.out ∧ t.inp.ahead = rest ∧ bits8 x = p ++ t.bits ∧
        follow s.arena s.cur p = some t.cur ∧ (isLeaf t.cur = false → t.bits = [])) ∧
    (isLeaf s.cur = true → s.outReady = .always →
      ∃ t p, tick s = .next t ∧ t.out = s.out ++ [leafByte s.cur] ∧ t.inp = s.inp ∧ s.bits = p ++ t.bits ∧
        follow s.arena s.arena.root p = some t.cur ∧ (isLeaf t.cur = false → t.bits = [])) ∧
    ∀ t, tick s = .next t → t.phase = .unpack ∧ t.cur.toNat < 511 ∧ t.arena = s.arena ∧
      (t.pend = none ∨ t.pend = some .finished) ∧
      (t.pend = some .finished ↔ isLeaf s.cur = false ∧ s.inp.ahead = [] ∧ s.inp.ended = true)

/-! ### End to end -/

/-- R139: replaying what BUILD recorded rebuilds `LEFT`, `RIGHT` and `ROOT`, in a `DECODE` and in an
`ENCODE_EXT`, and there the same code table. They are read in the final states, which keep them by the model's
choice (assumption 21). -/
def Obligations.TreeRebuiltExactly : Prop :=
  ∀ s d e : State, Ready s → s.inp.ahead.length ≤ s.arena.maxInput →
    ∃ t, exec .encode s = .next t ∧
      ((∃ rest, d.inp.ahead = t.out.take 510 ++ rest) → Ready d →
        ∃ u, exec .decode d = .next u ∧ Completed .decode u ∧ u.arena.left = t.arena.left ∧
          u.arena.right = t.arena.right ∧ u.arena.root = t.arena.root) ∧
      ((∃ rest, e.tree.ahead = t.out.take 510 ++ rest) → Ready e →
        ∃ u, exec .encodeExt e = .next u ∧ Completed .encodeExt u ∧ u.arena.left = t.arena.left ∧
          u.arena.right = t.arena.right ∧ u.arena.root = t.arena.root ∧ u.table = t.table)

/-- R197: decoding what `ENCODE` wrote gives the input back. -/
def Obligations.RoundTrip : Prop :=
  ∀ s : State, Ready s → s.inp.taken = [] → s.inp.ahead.length ≤ s.arena.maxInput →
    ∃ t, exec .encode s = .next t ∧ Completed .encode t ∧
      ∀ d : State, Ready d → d.inp.ahead = t.out →
        ∃ u, exec .decode d = .next u ∧ Completed .decode u ∧ u.out = s.inp.ahead

/-- R198: a tree built of one input serves for any other. -/
def Obligations.TreeReuseRoundTrip : Prop :=
  ∀ s : State, Ready s → s.inp.ahead.length ≤ s.arena.maxInput →
    ∃ t, exec .buildTree s = .next t ∧ Completed .buildTree t ∧
      ∀ e : State, Ready e → e.tree.ahead = t.out →
        ∃ u, exec .encodeExt e = .next u ∧ Completed .encodeExt u ∧
          ∀ d : State, Ready d → d.inp.ahead = u.out →
            ∃ w, exec .decode d = .next w ∧ Completed .decode w ∧ w.out = e.inp.ahead

/-- R185: decoding inverts packing for any accepted tree, whoever made it. -/
def Obligations.AnyTreeRoundTrip : Prop :=
  ∀ e : State, Ready e → wellFormedTree (e.tree.ahead.take 510) = true →
    ∃ u, exec .encodeExt e = .next u ∧ Completed .encodeExt u ∧
      ∀ d : State, Ready d → d.inp.ahead = u.out →
        ∃ w, exec .decode d = .next w ∧ Completed .decode w ∧ w.out = e.inp.ahead

/-- R199, R242: what a command shows is a function of its word and its streams, whatever ran before in a
machine of the same width. -/
def Obligations.CommandsForgetHistory : Prop :=
  ∀ (i : Instr) (s s' : State), busy s = false → busy s' = false →
    s'.arena.weightWidth = s.arena.weightWidth →
    s'.inp = s.inp → s'.tree = s.tree → s'.outReady = s.outReady →
    ∃ t t', exec i s = .next t ∧ exec i s' = .next t' ∧ t'.out = t.out ∧ t'.trace = t.trace ∧
      statusWord t' = statusWord t ∧ errinfoWord t' = errinfoWord t ∧ t'.inp = t.inp ∧
      t'.tree = t.tree
end

