-- ==== Sys2Proof/Laws/Bits.lean ====
section
/-! SUPPORT. Bit-strings, byte scans and `tabulate`: the small lemmas of `Machine/Ops.lean`'s first part. -/

namespace Sys2Proof.Machine

theorem bits8_length (b : Byte) : (bits8 b).length = 8 := rfl

theorem pack8_bits8 (b : Byte) : pack8 (bits8 b) = b := by
  revert b; decide +kernel

theorem bits8_pack8 (s : BitString) (h : s.length = 8) : bits8 (pack8 s) = s := by
  match s, h with
  | [a, b, c, d, e, f, g, i], _ =>
    revert a b c d e f g i; decide +kernel

theorem mem_allBytes (b : Byte) : b ∈ allBytes := by
  simp only [allBytes, List.mem_map, List.mem_range]
  exact ⟨b.toNat, b.isLt, by simp⟩

theorem allBytes_sorted : allBytes.Pairwise (fun i j => i.toNat < j.toNat) := by
  unfold allBytes
  rw [List.pairwise_map]
  refine List.Pairwise.imp_of_mem ?_ List.pairwise_lt_range
  intro a b ha hb hab
  simp only [List.mem_range, Config.alphabet] at ha hb
  simp only [BitVec.toNat_ofNat]
  omega

theorem allBytes_nodup : allBytes.Nodup :=
  allBytes_sorted.imp fun h he => by simp [he] at h

theorem getElem_tabulate {α : Type} (n : Nat) (f : Nat → α) (i : Nat) (h : i < n) :
    (tabulate n f)[i] = f i := by
  simp [tabulate]

theorem getElem?_tabulate {α : Type} (n : Nat) (f : Nat → α) (i : Nat) :
    (tabulate n f)[i]? = if i < n then some (f i) else none := by
  split
  · next h => rw [Vector.getElem?_eq_getElem h, getElem_tabulate]
  · next h => simp [h]

theorem leafNode_toNat (v : Byte) : (leafNode v).toNat = v.toNat := by
  have := v.isLt
  simp only [leafNode, BitVec.toNat_setWidth]; omega

theorem leafByte_leafNode (v : Byte) : leafByte (leafNode v) = v := by
  apply BitVec.eq_of_toNat_eq
  have := v.isLt
  simp only [leafByte, leafNode, BitVec.toNat_setWidth]; omega

theorem leafNode_leafByte (n : NodeIdx) (h : n.toNat < 256) : leafNode (leafByte n) = n := by
  apply BitVec.eq_of_toNat_eq
  simp only [leafByte, leafNode, BitVec.toNat_setWidth]; omega

theorem leafNode_inj {u v : Byte} (h : leafNode u = leafNode v) : u = v := by
  rw [← leafByte_leafNode u, h, leafByte_leafNode]

theorem isLeaf_iff (n : NodeIdx) : isLeaf n = true ↔ n.toNat < 256 := by
  simp [isLeaf, Config.alphabet]

theorem isLeaf_leafNode (v : Byte) : isLeaf (leafNode v) = true := by
  have := v.isLt
  simp only [isLeaf_iff, leafNode_toNat]; omega

theorem mergeNode_toNat (k : BitVec 8) (h : k.toNat < 255) : (mergeNode k).toNat = 256 + k.toNat := by
  simp only [mergeNode, BitVec.toNat_add, BitVec.toNat_setWidth, BitVec.toNat_ofNat]; omega

theorem emptySlot_toNat : emptySlot.toNat = 511 := rfl

theorem leafNode_ne_empty (v : Byte) : leafNode v ≠ emptySlot := by
  intro h
  have := congrArg BitVec.toNat h
  have := v.isLt
  simp only [leafNode_toNat, emptySlot_toNat] at *; omega

theorem mergeNode_ne_empty (k : BitVec 8) (h : k.toNat < 255) : mergeNode k ≠ emptySlot := by
  intro he
  have := congrArg BitVec.toNat he
  rw [mergeNode_toNat k h, emptySlot_toNat] at this
  omega

end Sys2Proof.Machine
end

