-- ==== Sys2Proof/Laws/Arena.lean ====
section
/-! SUPPORT. The internal arrays: what a read gives after a write, and paths through the arena. -/

namespace Sys2Proof.Machine

/-! ### Reads after writes -/

theorem slotAt_setSlot (a : Arena) (i j : Byte) (n : NodeIdx) :
    (a.setSlot i n).slotAt j = if i = j then n else a.slotAt j := by
  simp only [Arena.slotAt, Arena.setSlot, Vector.getElem_set, BitVec.toNat_inj]

theorem weightAt_setWeight (a : Arena) (n m : NodeIdx) (x : Nat) (h : n.toNat < 511) :
    (a.setWeight n x).weightAt m = if n = m then a.fit x else a.weightAt m := by
  simp only [Arena.weightAt, Arena.setWeight, Vector.getElem?_setIfInBounds, BitVec.toNat_inj,
    Config.nodes, h, if_true]
  split <;> rfl

theorem mseqAt_setMseq (a : Arena) (i j : Nat) (b : Byte) (h : i < 510) :
    (a.setMseq i b).mseqAt j = if i = j then b else a.mseqAt j := by
  simp only [Arena.mseqAt, Arena.setMseq, Vector.getElem?_setIfInBounds, Config.treeBytes, h, if_true]
  split <;> rfl

theorem codeAt_record (t : CodeTable) (u v : Byte) (s : BitString) :
    (t.record u s).codeAt v = if u = v then s else t.codeAt v := by
  simp only [CodeTable.codeAt, CodeTable.record, Vector.getElem_set, BitVec.toNat_inj]

theorem lenAt_record (t : CodeTable) (u v : Byte) (s : BitString) :
    (t.record u s).lenAt v = if u = v then BitVec.ofNat 8 s.length else t.lenAt v := by
  simp only [CodeTable.lenAt, CodeTable.record, Vector.getElem_set, BitVec.toNat_inj]

/-! ### The width of the weights -/

/-- A value that fits is kept whole. -/
theorem fit_of_le {a : Arena} {x : Nat} (h : x ≤ a.maxInput) : a.fit x = x := by
  have : 0 < 2 ^ a.weightWidth := Nat.two_pow_pos _
  exact Nat.mod_eq_of_lt (by simp only [Arena.maxInput] at h; omega)

theorem fit_lt (a : Arena) (x : Nat) : a.fit x < 2 ^ a.weightWidth := Nat.mod_lt _ (Nat.two_pow_pos _)

/-- `maxInput` is the largest value a register of `WEIGHT_WIDTH` bits holds. -/
theorem le_maxInput {a : Arena} {x : Nat} : x ≤ a.maxInput ↔ x < 2 ^ a.weightWidth := by
  have : 0 < 2 ^ a.weightWidth := Nat.two_pow_pos _
  simp only [Arena.maxInput]; omega

@[simp] theorem width_setSlot (a : Arena) (i n) : (a.setSlot i n).weightWidth = a.weightWidth := rfl
@[simp] theorem width_setWeight (a : Arena) (n x) : (a.setWeight n x).weightWidth = a.weightWidth := rfl
@[simp] theorem width_setTotal (a : Arena) (x) : (a.setTotal x).weightWidth = a.weightWidth := rfl
@[simp] theorem width_setMseq (a : Arena) (j b) : (a.setMseq j b).weightWidth = a.weightWidth := rfl
@[simp] theorem width_setChildren (a : Arena) (k l r) : (a.setChildren k l r).weightWidth = a.weightWidth := rfl
@[simp] theorem weightAt_setTotal (a : Arena) (x m) : (a.setTotal x).weightAt m = a.weightAt m := rfl

@[simp] theorem slotAt_setWeight (a : Arena) (n x i) : (a.setWeight n x).slotAt i = a.slotAt i := rfl
@[simp] theorem slotAt_setMseq (a : Arena) (j b i) : (a.setMseq j b).slotAt i = a.slotAt i := rfl
@[simp] theorem slotAt_setChildren (a : Arena) (k l r i) :
    (a.setChildren k l r).slotAt i = a.slotAt i := rfl
@[simp] theorem weightAt_setSlot (a : Arena) (i n m) : (a.setSlot i n).weightAt m = a.weightAt m := rfl
@[simp] theorem weightAt_setMseq (a : Arena) (j b m) : (a.setMseq j b).weightAt m = a.weightAt m := rfl
@[simp] theorem weightAt_setChildren (a : Arena) (k l r m) :
    (a.setChildren k l r).weightAt m = a.weightAt m := rfl
@[simp] theorem mseqAt_setSlot (a : Arena) (i n j) : (a.setSlot i n).mseqAt j = a.mseqAt j := rfl
@[simp] theorem mseqAt_setWeight (a : Arena) (n x j) : (a.setWeight n x).mseqAt j = a.mseqAt j := rfl
@[simp] theorem mseqAt_setChildren (a : Arena) (k l r j) :
    (a.setChildren k l r).mseqAt j = a.mseqAt j := rfl
@[simp] theorem child_setSlot (a : Arena) (i n m b) : (a.setSlot i n).child m b = a.child m b := by
  simp only [Arena.child, Arena.setSlot]
@[simp] theorem child_setWeight (a : Arena) (n x m b) : (a.setWeight n x).child m b = a.child m b := by
  simp only [Arena.child, Arena.setWeight]
@[simp] theorem child_setMseq (a : Arena) (j c m b) : (a.setMseq j c).child m b = a.child m b := by
  simp only [Arena.child, Arena.setMseq]

/-- A leaf has no children (R32). -/
theorem child_leaf (a : Arena) (n : NodeIdx) (b : Bool) (h : n.toNat < 256) : a.child n b = none := by
  have hl : isLeaf n = true := (isLeaf_iff n).2 h
  simp only [Arena.child, hl, if_true]

theorem internal_of_child {a : Arena} {n m : NodeIdx} {b : Bool} (h : a.child n b = some m) :
    256 ≤ n.toNat := by
  by_contra hn
  rw [child_leaf a n b (by omega)] at h
  cases h

/-- The children of node `256 + k` after they are set, and every other node's as before. -/
theorem child_setChildren (a : Arena) (k : BitVec 8) (l r n : NodeIdx) (b : Bool) (hk : k.toNat < 255)
    (hl : l ≠ emptySlot) (hr : r ≠ emptySlot) :
    (a.setChildren k l r).child n b =
      if n = mergeNode k then some (if b then r else l) else a.child n b := by
  have hm := mergeNode_toNat k hk
  by_cases hn : n = mergeNode k
  · subst hn
    have hleaf : isLeaf (mergeNode k) = false := by
      rw [Bool.eq_false_iff, ne_eq, isLeaf_iff]; omega
    cases b <;>
    simp [Arena.child, hleaf, Arena.setChildren, hm, Config.alphabet, Config.merges, hk, hl, hr]
  · rw [if_neg hn]
    by_cases hleaf : isLeaf n = true
    · simp only [Arena.child, hleaf, if_true]
    · rw [isLeaf_iff] at hleaf
      have hne : k.toNat ≠ n.toNat - 256 := by
        intro he
        apply hn
        apply BitVec.eq_of_toNat_eq
        omega
      cases b <;> simp [Arena.child, Arena.setChildren, Config.alphabet, hne]

/-! ### Paths -/

@[simp] theorem follow_nil (a : Arena) (n : NodeIdx) : follow a n [] = some n := by simp [follow]

theorem follow_cons {a : Arena} {n m : NodeIdx} {b : Bool} (h : a.child n b = some m) (p : BitString) :
    follow a n (b :: p) = follow a m p := by
  simp [follow, h]

theorem follow_cons_eq_some {a : Arena} {n r : NodeIdx} {b : Bool} {p : BitString}
    (h : follow a n (b :: p) = some r) : ∃ m, a.child n b = some m ∧ follow a m p = some r := by
  rw [follow] at h
  split at h
  · next m hm => exact ⟨m, hm, h⟩
  · cases h

theorem follow_append (a : Arena) (p q : BitString) :
    ∀ n, follow a n (p ++ q) = (follow a n p).bind fun m => follow a m q := by
  induction p with
  | nil => intro n; simp
  | cons b p ih =>
    intro n
    simp only [List.cons_append, follow]
    cases a.child n b with
    | none => rfl
    | some m => exact ih m

/-- From a leaf the only path is the empty one. -/
theorem follow_leaf {a : Arena} {n r : NodeIdx} {p : BitString} (hn : n.toNat < 256)
    (h : follow a n p = some r) : p = [] ∧ r = n := by
  cases p with
  | nil => simpa using h.symm
  | cons b p =>
    obtain ⟨m, hm, -⟩ := follow_cons_eq_some h
    rw [child_leaf a n b hn] at hm
    cases hm

/-- Two arenas that agree on the children of every node below a bound, all of lower index, have the
same paths from below it. -/
theorem follow_congr {a a' : Arena} {k : Nat} (ho : Ordered a k)
    (hc : ∀ m : NodeIdx, m.toNat < 256 + k → ∀ b, a'.child m b = a.child m b) (p : BitString) :
    ∀ n : NodeIdx, n.toNat < 256 + k → follow a' n p = follow a n p := by
  induction p with
  | nil => intro n _; simp
  | cons b p ih =>
    intro n hn
    simp only [follow, hc n hn b]
    by_cases hl : n.toNat < 256
    · rw [child_leaf a n b hl]
    · obtain ⟨m, hm, hlt⟩ := ho n (by omega) hn b
      rw [hm]
      exact ih m (by omega)

/-- A path is no longer than there are internal nodes at or below its start (R153). -/
theorem follow_length {a : Arena} {k : Nat} (ho : Ordered a k) (p : BitString) :
    ∀ n r : NodeIdx, n.toNat < 256 + k → follow a n p = some r → p.length ≤ n.toNat - 255 := by
  induction p with
  | nil => intros; simp
  | cons b p ih =>
    intro n r hn h
    obtain ⟨m, hm, hp⟩ := follow_cons_eq_some h
    have h256 := internal_of_child hm
    obtain ⟨m', hm', hlt⟩ := ho n h256 hn b
    obtain rfl : m' = m := by rw [hm] at hm'; exact (Option.some.inj hm').symm
    have := ih m' r (by omega) hp
    simp only [List.length_cons]
    omega

end Sys2Proof.Machine
end

