-- ==== Sys2Proof/Laws/Derive.lean ====
section
/-! SUPPORT. The code table: DERIVE fills it with the paths to the leaves (R150 to R153), codes are
prefix-free (R154), the Kraft sum is exact (R155), and some code has 8 bits or more (R156). -/

namespace Sys2Proof.Machine

/-- The walk from a node below which every node has two children of lower index. -/
theorem walk_spec {a : Arena} (ho : Ordered a 255) (d : Nat) :
    ∀ (n : NodeIdx) (s : BitString) (t : CodeTable), n.toNat < 511 → n.toNat - 255 ≤ d →
    (∀ v p q, follow a n p = some (leafNode v) → follow a n q = some (leafNode v) → p = q) →
    ∃ t', walk a d n s t = some t' ∧
      (∀ v p, follow a n p = some (leafNode v) →
        t'.codeAt v = s ++ p ∧ t'.lenAt v = BitVec.ofNat 8 (s ++ p).length) ∧
      (∀ v, (∀ p, follow a n p ≠ some (leafNode v)) →
        t'.codeAt v = t.codeAt v ∧ t'.lenAt v = t.lenAt v) := by
  have leaf : ∀ (n : NodeIdx) (s : BitString) (t : CodeTable), n.toNat < 256 →
      (∀ v p, follow a n p = some (leafNode v) → (t.record (leafByte n) s).codeAt v = s ++ p ∧
        (t.record (leafByte n) s).lenAt v = BitVec.ofNat 8 (s ++ p).length) ∧
      (∀ v, (∀ p, follow a n p ≠ some (leafNode v)) →
        (t.record (leafByte n) s).codeAt v = t.codeAt v ∧
        (t.record (leafByte n) s).lenAt v = t.lenAt v) := by
    intro n s t hn
    constructor
    · intro v p hp
      obtain ⟨rfl, h⟩ := follow_leaf hn hp
      have : leafByte n = v := by rw [← h, leafByte_leafNode]
      simp [codeAt_record, lenAt_record, this]
    · intro v hv
      have : leafByte n ≠ v := by
        rintro rfl
        exact hv [] (by rw [follow_nil, leafNode_leafByte n hn])
      simp [codeAt_record, lenAt_record, this]
  induction d with
  | zero =>
    intro n s t h1 h2 _
    have hn : n.toNat < 256 := by omega
    refine ⟨t.record (leafByte n) s, ?_, leaf n s t hn⟩
    rw [walk, if_pos ((isLeaf_iff n).2 hn)]
  | succ d ih =>
    intro n s t h1 h2 h3
    by_cases hn : n.toNat < 256
    · refine ⟨t.record (leafByte n) s, ?_, leaf n s t hn⟩
      rw [walk, if_pos ((isLeaf_iff n).2 hn)]
    · obtain ⟨l, hl, hl'⟩ := ho n (by omega) (by omega) false
      obtain ⟨r, hr, hr'⟩ := ho n (by omega) (by omega) true
      have bl : l.toNat < 511 ∧ l.toNat - 255 ≤ d := by clear ih leaf h3; omega
      have br : r.toNat < 511 ∧ r.toNat - 255 ≤ d := by clear ih leaf h3; omega
      obtain ⟨t1, e1, c1, k1⟩ := ih l (s ++ [false]) t bl.1 bl.2 (by
        intro v p q hp hq
        have := h3 v (false :: p) (false :: q) (by rw [follow_cons hl, hp]) (by rw [follow_cons hl, hq])
        exact (List.cons.inj this).2)
      obtain ⟨t2, e2, c2, k2⟩ := ih r (s ++ [true]) t1 br.1 br.2 (by
        intro v p q hp hq
        have := h3 v (true :: p) (true :: q) (by rw [follow_cons hr, hp]) (by rw [follow_cons hr, hq])
        exact (List.cons.inj this).2)
      refine ⟨t2, ?_, ?_, ?_⟩
      · rw [walk, if_neg (by rw [isLeaf_iff]; omega), hl, hr]
        simp only [e1, Option.bind_some, e2]
      · intro v p hp
        cases p with
        | nil =>
          exfalso
          have := congrArg BitVec.toNat (Option.some.inj ((follow_nil a n).symm.trans hp))
          rw [leafNode_toNat] at this
          have := v.isLt
          omega
        | cons b p =>
          cases b with
          | false =>
            rw [follow_cons hl] at hp
            have hno : ∀ q, follow a r q ≠ some (leafNode v) := by
              intro q hq
              have := h3 v (false :: p) (true :: q) (by rw [follow_cons hl, hp]) (by rw [follow_cons hr, hq])
              simp at this
            rw [(k2 v hno).1, (k2 v hno).2, (c1 v p hp).1, (c1 v p hp).2]
            simp
          | true =>
            rw [follow_cons hr] at hp
            rw [(c2 v p hp).1, (c2 v p hp).2]
            simp
      · intro v hv
        have h4 : ∀ q, follow a l q ≠ some (leafNode v) := fun q hq =>
          hv (false :: q) (by rw [follow_cons hl, hq])
        have h5 : ∀ q, follow a r q ≠ some (leafNode v) := fun q hq =>
          hv (true :: q) (by rw [follow_cons hr, hq])
        rw [(k2 v h5).1, (k2 v h5).2, (k1 v h4).1, (k1 v h4).2]
        exact ⟨rfl, rfl⟩

/-- DERIVE on a tree succeeds and fills the table with the tree's code (R151, R152). -/
theorem derive_spec {s : State} (T : Tree s.arena) :
    ∃ t, derive s = .going { s with phase := .derive, table := t } ∧ CodesOf s.arena t := by
  obtain ⟨t, h1, h2, -⟩ := walk_spec T.ordered 255 s.arena.root [] s.table T.root_node
    (by have := T.root_node; omega) T.once
  refine ⟨t, by rw [derive, h1], fun v => ?_⟩
  obtain ⟨p, hp⟩ := T.cover v
  obtain ⟨h3, h4⟩ := h2 v p hp
  rw [List.nil_append] at h3 h4
  have hlen := follow_length T.ordered p s.arena.root _ (by have := T.root_node; omega) hp
  have hroot := T.root_node
  have hpos : 1 ≤ p.length := by
    cases p with
    | nil =>
      have := congrArg BitVec.toNat (Option.some.inj ((follow_nil _ _).symm.trans hp))
      rw [leafNode_toNat] at this
      have := v.isLt
      have := T.root_internal
      omega
    | cons b p => simp
  rw [h3, h4]
  refine ⟨hp, ?_, hpos, by omega⟩
  rw [BitVec.toNat_ofNat]
  omega

section
variable {a : Arena} {t : CodeTable}

/-- No code is the beginning of another (R154). -/
theorem codes_separate (C : CodesOf a t) {u v : Byte} {r : BitString}
    (h : t.codeAt u = t.codeAt v ++ r) : u = v := by
  have hu := (C u).1
  rw [h, follow_append, (C v).1, Option.bind_some] at hu
  have := follow_leaf (by rw [leafNode_toNat]; exact v.isLt) hu
  exact leafNode_inj this.2

/-- Some code has 8 bits or more (R156): 256 codes of at most 7 bits would not be prefix-free. -/
theorem long_code (C : CodesOf a t) : ∃ v, 8 ≤ (t.codeAt v).length := by
  by_contra hno
  simp only [not_exists, not_le] at hno
  have hinj : Function.Injective fun (v : Byte) (j : Fin 7) => (t.codeAt v).getD j false := by
    intro u v huv
    have short : ∀ x y : Byte, (t.codeAt x).length ≤ (t.codeAt y).length →
        (∀ j : Fin 7, (t.codeAt x).getD j false = (t.codeAt y).getD j false) → x = y := by
      intro x y hxy hj
      refine (codes_separate C (r := (t.codeAt y).drop (t.codeAt x).length) ?_).symm
      have : t.codeAt x = (t.codeAt y).take (t.codeAt x).length := by
        apply List.ext_getElem
        · simp [hxy]
        · intro j h1 h2
          have hj7 : j < 7 := by have := hno x; omega
          have := hj ⟨j, hj7⟩
          rw [List.getD_eq_getElem _ _ h1, List.getD_eq_getElem _ _ (by simp only; omega)] at this
          rw [List.getElem_take]
          exact this
      rw [this, List.length_take, min_eq_left hxy, List.take_append_drop]
    rcases le_total (t.codeAt u).length (t.codeAt v).length with h | h
    · exact short u v h fun j => congrFun huv j
    · exact (short v u h fun j => (congrFun huv j).symm).symm
  have := Fintype.card_le_of_injective _ hinj
  have e : Fintype.card Byte = 256 := by
    rw [Fintype.card_congr (BitVec.equivFin (m := 8)).toEquiv]
    simp
  rw [e] at this
  simp at this

/-- The padding search finds a code longer than a gap of 7 bits or fewer (R165). -/
theorem padChoice_some (C : CodesOf a t) {need : Nat} (h : need ≤ 7) :
    ∃ v, padChoice t need = some v ∧ need < (t.codeAt v).length := by
  obtain ⟨v, hv⟩ := long_code C
  cases hc : padChoice t need with
  | none =>
    have := List.find?_eq_none.1 hc v (mem_allBytes v)
    rw [(C v).2.1] at this
    simp at this
    omega
  | some u =>
    have := List.find?_some hc
    rw [(C u).2.1] at this
    exact ⟨u, rfl, by simpa using this⟩

/-- The codes below a node take up the node's share of the Kraft sum. -/
theorem kraft_below (T : Tree a) (C : CodesOf a t) (j : Nat) :
    ∀ (n : NodeIdx) (s : BitString), n.toNat < j → follow a a.root s = some n →
    ∑ v : Byte with s <+: t.codeAt v, 2 ^ (255 - (t.codeAt v).length) = 2 ^ (255 - s.length) := by
  induction j with
  | zero => intro n s h; omega
  | succ j ih =>
    intro n s hj hs
    by_cases hn : n.toNat < 256
    · have hl := leafNode_leafByte n hn
      have hcode : t.codeAt (leafByte n) = s :=
        T.once (leafByte n) _ _ (C (leafByte n)).1 (by rw [hs, hl])
      have : (Finset.univ.filter fun v : Byte => s <+: t.codeAt v) = {leafByte n} := by
        ext v
        simp only [Finset.mem_filter, Finset.mem_univ, true_and, Finset.mem_singleton]
        constructor
        · rintro ⟨r, hr⟩
          exact codes_separate C (r := r) (by rw [hcode, hr])
        · rintro rfl
          rw [hcode]
      rw [this, Finset.sum_singleton, hcode]
    · have hlt : n.toNat < 511 := by
        have key : ∀ (p : BitString) (m r : NodeIdx), m.toNat < 511 → follow a m p = some r →
            r.toNat < 511 := by
          intro p
          induction p with
          | nil => intro m r hm h; rw [follow_nil] at h; cases h; exact hm
          | cons b p ihp =>
            intro m r hm h
            obtain ⟨m', h1, h2⟩ := follow_cons_eq_some h
            obtain ⟨m'', h3, h4⟩ := T.ordered m (internal_of_child h1) (by omega) b
            rw [h1] at h3
            cases h3
            exact ihp m' r (by omega) h2
        exact key s a.root n T.root_node hs
      have kid : ∀ b, ∃ m : NodeIdx, m.toNat < n.toNat ∧ follow a a.root (s ++ [b]) = some m := by
        intro b
        obtain ⟨m, hm, hm'⟩ := T.ordered n (by omega) (by omega) b
        exact ⟨m, hm', by rw [follow_append, hs, Option.bind_some, follow_cons hm, follow_nil]⟩
      obtain ⟨l, hl, hl'⟩ := kid false
      obtain ⟨r, hr, hr'⟩ := kid true
      have hlen := follow_length T.ordered (s ++ [false]) a.root _
        (by have := T.root_node; omega) hl'
      simp only [List.length_append, List.length_singleton] at hlen
      have hroot := T.root_node
      have hsplit : (Finset.univ.filter fun v : Byte => s <+: t.codeAt v)
          = (Finset.univ.filter fun v : Byte => (s ++ [false]) <+: t.codeAt v) ∪
            (Finset.univ.filter fun v : Byte => (s ++ [true]) <+: t.codeAt v) := by
        ext v
        simp only [Finset.mem_filter, Finset.mem_univ, true_and, Finset.mem_union]
        constructor
        · rintro ⟨q, hq⟩
          cases q with
          | nil =>
            exfalso
            have := (C v).1
            rw [← hq, List.append_nil, hs] at this
            have := congrArg BitVec.toNat (Option.some.inj this)
            rw [leafNode_toNat] at this
            have := v.isLt
            omega
          | cons b q =>
            cases b
            · exact .inl ⟨q, by rw [← hq]; simp⟩
            · exact .inr ⟨q, by rw [← hq]; simp⟩
        · rintro (h | h) <;> exact (List.prefix_append _ _).trans h
      have hdis : Disjoint (Finset.univ.filter fun v : Byte => (s ++ [false]) <+: t.codeAt v)
          (Finset.univ.filter fun v : Byte => (s ++ [true]) <+: t.codeAt v) := by
        rw [Finset.disjoint_filter]
        rintro v - ⟨q, hq⟩ ⟨q', hq'⟩
        rw [← hq'] at hq
        simp at hq
      rw [hsplit, Finset.sum_union hdis, ih l _ (by omega) hl', ih r _ (by omega) hr']
      simp only [List.length_append, List.length_singleton]
      have : 255 - s.length = (255 - (s.length + 1)) + 1 := by omega
      rw [this, pow_succ]
      omega

/-- The Kraft sum is exactly 1 (R155), multiplied by `2^255`. -/
theorem kraft_sum (T : Tree a) (C : CodesOf a t) :
    ∑ v : Byte, 2 ^ (255 - (t.codeAt v).length) = 2 ^ 255 := by
  have := kraft_below T C 511 a.root [] T.root_node (by simp)
  simpa using this

end

end Sys2Proof.Machine
end

