-- ==== Sys2Proof/Laws/State.lean ====
section
/-! SUPPORT. One law per field of State and per named update: what the field is after it. -/

namespace Sys2Proof.Machine

section
variable (s : State)

@[simp] theorem status_note (e : PortEvent) : (note e s).status = s.status := rfl
@[simp] theorem ovr_note (e : PortEvent) : (note e s).ovr = s.ovr := rfl
@[simp] theorem err_note (e : PortEvent) : (note e s).err = s.err := rfl
@[simp] theorem lastOp_note (e : PortEvent) : (note e s).lastOp = s.lastOp := rfl
@[simp] theorem info_note (e : PortEvent) : (note e s).info = s.info := rfl
@[simp] theorem phase_note (e : PortEvent) : (note e s).phase = s.phase := rfl
@[simp] theorem opc_note (e : PortEvent) : (note e s).opc = s.opc := rfl
@[simp] theorem arena_note (e : PortEvent) : (note e s).arena = s.arena := rfl
@[simp] theorem table_note (e : PortEvent) : (note e s).table = s.table := rfl
@[simp] theorem pbuf_note (e : PortEvent) : (note e s).pbuf = s.pbuf := rfl
@[simp] theorem cur_note (e : PortEvent) : (note e s).cur = s.cur := rfl
@[simp] theorem serIdx_note (e : PortEvent) : (note e s).serIdx = s.serIdx := rfl
@[simp] theorem bits_note (e : PortEvent) : (note e s).bits = s.bits := rfl
@[simp] theorem pend_note (e : PortEvent) : (note e s).pend = s.pend := rfl
@[simp] theorem inp_note (e : PortEvent) : (note e s).inp = s.inp := rfl
@[simp] theorem tree_note (e : PortEvent) : (note e s).tree = s.tree := rfl
@[simp] theorem out_note (e : PortEvent) : (note e s).out = s.out := rfl
@[simp] theorem outReady_note (e : PortEvent) : (note e s).outReady = s.outReady := rfl
@[simp] theorem trace_note (e : PortEvent) : (note e s).trace = e :: s.trace := rfl
@[simp] theorem readData_note (e : PortEvent) : (note e s).readData = s.readData := rfl
@[simp] theorem host_note (e : PortEvent) : (note e s).host = s.host := rfl

@[simp] theorem status_noteWrite (c : Word) : (noteWrite c s).status = s.status := rfl
@[simp] theorem ovr_noteWrite (c : Word) : (noteWrite c s).ovr = false := rfl
@[simp] theorem err_noteWrite (c : Word) : (noteWrite c s).err = .none := rfl
@[simp] theorem lastOp_noteWrite (c : Word) : (noteWrite c s).lastOp = opField c := rfl
@[simp] theorem info_noteWrite (c : Word) : (noteWrite c s).info = 0 := rfl
@[simp] theorem phase_noteWrite (c : Word) : (noteWrite c s).phase = s.phase := rfl
@[simp] theorem opc_noteWrite (c : Word) : (noteWrite c s).opc = s.opc := rfl
@[simp] theorem arena_noteWrite (c : Word) : (noteWrite c s).arena = s.arena := rfl
@[simp] theorem table_noteWrite (c : Word) : (noteWrite c s).table = s.table := rfl
@[simp] theorem pbuf_noteWrite (c : Word) : (noteWrite c s).pbuf = s.pbuf := rfl
@[simp] theorem cur_noteWrite (c : Word) : (noteWrite c s).cur = s.cur := rfl
@[simp] theorem serIdx_noteWrite (c : Word) : (noteWrite c s).serIdx = s.serIdx := rfl
@[simp] theorem bits_noteWrite (c : Word) : (noteWrite c s).bits = s.bits := rfl
@[simp] theorem pend_noteWrite (c : Word) : (noteWrite c s).pend = s.pend := rfl
@[simp] theorem inp_noteWrite (c : Word) : (noteWrite c s).inp = s.inp := rfl
@[simp] theorem tree_noteWrite (c : Word) : (noteWrite c s).tree = s.tree := rfl
@[simp] theorem out_noteWrite (c : Word) : (noteWrite c s).out = [] := rfl
@[simp] theorem outReady_noteWrite (c : Word) : (noteWrite c s).outReady = s.outReady := rfl
@[simp] theorem trace_noteWrite (c : Word) : (noteWrite c s).trace = [] := rfl
@[simp] theorem readData_noteWrite (c : Word) : (noteWrite c s).readData = s.readData := rfl
@[simp] theorem host_noteWrite (c : Word) : (noteWrite c s).host = s.host := rfl

@[simp] theorem status_dropWrite : (dropWrite s).status = s.status := rfl
@[simp] theorem ovr_dropWrite : (dropWrite s).ovr = true := rfl
@[simp] theorem err_dropWrite : (dropWrite s).err = s.err := rfl
@[simp] theorem lastOp_dropWrite : (dropWrite s).lastOp = s.lastOp := rfl
@[simp] theorem info_dropWrite : (dropWrite s).info = s.info := rfl
@[simp] theorem phase_dropWrite : (dropWrite s).phase = s.phase := rfl
@[simp] theorem opc_dropWrite : (dropWrite s).opc = s.opc := rfl
@[simp] theorem arena_dropWrite : (dropWrite s).arena = s.arena := rfl
@[simp] theorem table_dropWrite : (dropWrite s).table = s.table := rfl
@[simp] theorem pbuf_dropWrite : (dropWrite s).pbuf = s.pbuf := rfl
@[simp] theorem cur_dropWrite : (dropWrite s).cur = s.cur := rfl
@[simp] theorem serIdx_dropWrite : (dropWrite s).serIdx = s.serIdx := rfl
@[simp] theorem bits_dropWrite : (dropWrite s).bits = s.bits := rfl
@[simp] theorem pend_dropWrite : (dropWrite s).pend = s.pend := rfl
@[simp] theorem inp_dropWrite : (dropWrite s).inp = s.inp := rfl
@[simp] theorem tree_dropWrite : (dropWrite s).tree = s.tree := rfl
@[simp] theorem out_dropWrite : (dropWrite s).out = s.out := rfl
@[simp] theorem outReady_dropWrite : (dropWrite s).outReady = s.outReady := rfl
@[simp] theorem trace_dropWrite : (dropWrite s).trace = s.trace := rfl
@[simp] theorem readData_dropWrite : (dropWrite s).readData = s.readData := rfl
@[simp] theorem host_dropWrite : (dropWrite s).host = s.host := rfl

@[simp] theorem status_accept (i : Instr) : (accept i s).status = .busy := rfl
@[simp] theorem ovr_accept (i : Instr) : (accept i s).ovr = false := rfl
@[simp] theorem err_accept (i : Instr) : (accept i s).err = .none := rfl
@[simp] theorem lastOp_accept (i : Instr) : (accept i s).lastOp = opField (encode i) := rfl
@[simp] theorem info_accept (i : Instr) : (accept i s).info = 0 := rfl
@[simp] theorem phase_accept (i : Instr) : (accept i s).phase = s.phase := rfl
@[simp] theorem opc_accept (i : Instr) : (accept i s).opc = i := rfl
@[simp] theorem arena_accept (i : Instr) : (accept i s).arena = s.arena := rfl
@[simp] theorem table_accept (i : Instr) : (accept i s).table = s.table := rfl
@[simp] theorem pbuf_accept (i : Instr) : (accept i s).pbuf = s.pbuf := rfl
@[simp] theorem cur_accept (i : Instr) : (accept i s).cur = s.cur := rfl
@[simp] theorem serIdx_accept (i : Instr) : (accept i s).serIdx = s.serIdx := rfl
@[simp] theorem bits_accept (i : Instr) : (accept i s).bits = s.bits := rfl
@[simp] theorem pend_accept (i : Instr) : (accept i s).pend = none := rfl
@[simp] theorem inp_accept (i : Instr) : (accept i s).inp = s.inp := rfl
@[simp] theorem tree_accept (i : Instr) : (accept i s).tree = s.tree := rfl
@[simp] theorem out_accept (i : Instr) : (accept i s).out = [] := rfl
@[simp] theorem outReady_accept (i : Instr) : (accept i s).outReady = s.outReady := rfl
@[simp] theorem trace_accept (i : Instr) : (accept i s).trace = [] := rfl
@[simp] theorem readData_accept (i : Instr) : (accept i s).readData = s.readData := rfl
@[simp] theorem host_accept (i : Instr) : (accept i s).host = s.host := rfl

@[simp] theorem status_settle (e : EngState) : (settle e s).status = e := rfl
@[simp] theorem ovr_settle (e : EngState) : (settle e s).ovr = s.ovr := rfl
@[simp] theorem err_settle (e : EngState) : (settle e s).err = s.err := rfl
@[simp] theorem lastOp_settle (e : EngState) : (settle e s).lastOp = s.lastOp := rfl
@[simp] theorem info_settle (e : EngState) : (settle e s).info = s.info := rfl
@[simp] theorem phase_settle (e : EngState) : (settle e s).phase = .idle := rfl
@[simp] theorem opc_settle (e : EngState) : (settle e s).opc = s.opc := rfl
@[simp] theorem arena_settle (e : EngState) : (settle e s).arena = s.arena := rfl
@[simp] theorem table_settle (e : EngState) : (settle e s).table = s.table := rfl
@[simp] theorem pbuf_settle (e : EngState) : (settle e s).pbuf = s.pbuf := rfl
@[simp] theorem cur_settle (e : EngState) : (settle e s).cur = s.cur := rfl
@[simp] theorem serIdx_settle (e : EngState) : (settle e s).serIdx = s.serIdx := rfl
@[simp] theorem bits_settle (e : EngState) : (settle e s).bits = s.bits := rfl
@[simp] theorem pend_settle (e : EngState) : (settle e s).pend = none := rfl
@[simp] theorem inp_settle (e : EngState) : (settle e s).inp = s.inp := rfl
@[simp] theorem tree_settle (e : EngState) : (settle e s).tree = s.tree := rfl
@[simp] theorem out_settle (e : EngState) : (settle e s).out = s.out := rfl
@[simp] theorem outReady_settle (e : EngState) : (settle e s).outReady = s.outReady := rfl
@[simp] theorem trace_settle (e : EngState) : (settle e s).trace = .stateFinal e :: s.trace := rfl
@[simp] theorem readData_settle (e : EngState) : (settle e s).readData = s.readData := rfl
@[simp] theorem host_settle (e : EngState) : (settle e s).host = s.host := rfl

@[simp] theorem status_finish : (finish s).status = .done := rfl
@[simp] theorem ovr_finish : (finish s).ovr = s.ovr := rfl
@[simp] theorem err_finish : (finish s).err = s.err := rfl
@[simp] theorem lastOp_finish : (finish s).lastOp = s.lastOp := rfl
@[simp] theorem info_finish : (finish s).info = s.info := rfl
@[simp] theorem phase_finish : (finish s).phase = .idle := rfl
@[simp] theorem opc_finish : (finish s).opc = s.opc := rfl
@[simp] theorem arena_finish : (finish s).arena = s.arena := rfl
@[simp] theorem table_finish : (finish s).table = s.table := rfl
@[simp] theorem pbuf_finish : (finish s).pbuf = s.pbuf := rfl
@[simp] theorem cur_finish : (finish s).cur = s.cur := rfl
@[simp] theorem serIdx_finish : (finish s).serIdx = s.serIdx := rfl
@[simp] theorem bits_finish : (finish s).bits = s.bits := rfl
@[simp] theorem pend_finish : (finish s).pend = none := rfl
@[simp] theorem inp_finish : (finish s).inp = s.inp := rfl
@[simp] theorem tree_finish : (finish s).tree = s.tree := rfl
@[simp] theorem out_finish : (finish s).out = s.out := rfl
@[simp] theorem outReady_finish : (finish s).outReady = s.outReady := rfl
@[simp] theorem trace_finish : (finish s).trace = .stateFinal .done :: s.trace := rfl
@[simp] theorem readData_finish : (finish s).readData = s.readData := rfl
@[simp] theorem host_finish : (finish s).host = s.host := rfl

@[simp] theorem status_raiseError (e : ErrCode) (i : BitVec 16) :
    (raiseError e i s).status = .error := rfl
@[simp] theorem ovr_raiseError (e : ErrCode) (i : BitVec 16) : (raiseError e i s).ovr = s.ovr := rfl
@[simp] theorem err_raiseError (e : ErrCode) (i : BitVec 16) : (raiseError e i s).err = e := rfl
@[simp] theorem lastOp_raiseError (e : ErrCode) (i : BitVec 16) :
    (raiseError e i s).lastOp = s.lastOp := rfl
@[simp] theorem info_raiseError (e : ErrCode) (i : BitVec 16) : (raiseError e i s).info = i := rfl
@[simp] theorem phase_raiseError (e : ErrCode) (i : BitVec 16) :
    (raiseError e i s).phase = .idle := rfl
@[simp] theorem opc_raiseError (e : ErrCode) (i : BitVec 16) : (raiseError e i s).opc = s.opc := rfl
@[simp] theorem arena_raiseError (e : ErrCode) (i : BitVec 16) :
    (raiseError e i s).arena = s.arena := rfl
@[simp] theorem table_raiseError (e : ErrCode) (i : BitVec 16) :
    (raiseError e i s).table = s.table := rfl
@[simp] theorem pbuf_raiseError (e : ErrCode) (i : BitVec 16) :
    (raiseError e i s).pbuf = s.pbuf := rfl
@[simp] theorem cur_raiseError (e : ErrCode) (i : BitVec 16) : (raiseError e i s).cur = s.cur := rfl
@[simp] theorem serIdx_raiseError (e : ErrCode) (i : BitVec 16) :
    (raiseError e i s).serIdx = s.serIdx := rfl
@[simp] theorem bits_raiseError (e : ErrCode) (i : BitVec 16) :
    (raiseError e i s).bits = s.bits := rfl
@[simp] theorem pend_raiseError (e : ErrCode) (i : BitVec 16) :
    (raiseError e i s).pend = none := rfl
@[simp] theorem inp_raiseError (e : ErrCode) (i : BitVec 16) : (raiseError e i s).inp = s.inp := rfl
@[simp] theorem tree_raiseError (e : ErrCode) (i : BitVec 16) :
    (raiseError e i s).tree = s.tree := rfl
@[simp] theorem out_raiseError (e : ErrCode) (i : BitVec 16) : (raiseError e i s).out = s.out := rfl
@[simp] theorem outReady_raiseError (e : ErrCode) (i : BitVec 16) :
    (raiseError e i s).outReady = s.outReady := rfl
@[simp] theorem trace_raiseError (e : ErrCode) (i : BitVec 16) :
    (raiseError e i s).trace = .stateFinal .error :: s.trace := rfl
@[simp] theorem readData_raiseError (e : ErrCode) (i : BitVec 16) :
    (raiseError e i s).readData = s.readData := rfl
@[simp] theorem host_raiseError (e : ErrCode) (i : BitVec 16) :
    (raiseError e i s).host = s.host := rfl

@[simp] theorem status_inRewind : (inRewind s).status = s.status := rfl
@[simp] theorem ovr_inRewind : (inRewind s).ovr = s.ovr := rfl
@[simp] theorem err_inRewind : (inRewind s).err = s.err := rfl
@[simp] theorem lastOp_inRewind : (inRewind s).lastOp = s.lastOp := rfl
@[simp] theorem info_inRewind : (inRewind s).info = s.info := rfl
@[simp] theorem phase_inRewind : (inRewind s).phase = s.phase := rfl
@[simp] theorem opc_inRewind : (inRewind s).opc = s.opc := rfl
@[simp] theorem arena_inRewind : (inRewind s).arena = s.arena := rfl
@[simp] theorem table_inRewind : (inRewind s).table = s.table := rfl
@[simp] theorem pbuf_inRewind : (inRewind s).pbuf = s.pbuf := rfl
@[simp] theorem cur_inRewind : (inRewind s).cur = s.cur := rfl
@[simp] theorem serIdx_inRewind : (inRewind s).serIdx = s.serIdx := rfl
@[simp] theorem bits_inRewind : (inRewind s).bits = s.bits := rfl
@[simp] theorem pend_inRewind : (inRewind s).pend = s.pend := rfl
@[simp] theorem inp_inRewind :
    (inRewind s).inp = { s.inp with taken := [], ahead := s.inp.taken ++ s.inp.ahead } := rfl
@[simp] theorem tree_inRewind : (inRewind s).tree = s.tree := rfl
@[simp] theorem out_inRewind : (inRewind s).out = s.out := rfl
@[simp] theorem outReady_inRewind : (inRewind s).outReady = s.outReady := rfl
@[simp] theorem trace_inRewind : (inRewind s).trace = .inRewind :: s.trace := rfl
@[simp] theorem readData_inRewind : (inRewind s).readData = s.readData := rfl
@[simp] theorem host_inRewind : (inRewind s).host = s.host := rfl

@[simp] theorem status_enterAcc : (enterAcc s).status = s.status := rfl
@[simp] theorem ovr_enterAcc : (enterAcc s).ovr = s.ovr := rfl
@[simp] theorem err_enterAcc : (enterAcc s).err = s.err := rfl
@[simp] theorem lastOp_enterAcc : (enterAcc s).lastOp = s.lastOp := rfl
@[simp] theorem info_enterAcc : (enterAcc s).info = s.info := rfl
@[simp] theorem phase_enterAcc : (enterAcc s).phase = .acc := rfl
@[simp] theorem opc_enterAcc : (enterAcc s).opc = s.opc := rfl
@[simp] theorem arena_enterAcc : (enterAcc s).arena = clearWeights s.arena := rfl
@[simp] theorem table_enterAcc : (enterAcc s).table = s.table := rfl
@[simp] theorem pbuf_enterAcc : (enterAcc s).pbuf = s.pbuf := rfl
@[simp] theorem cur_enterAcc : (enterAcc s).cur = s.cur := rfl
@[simp] theorem serIdx_enterAcc : (enterAcc s).serIdx = s.serIdx := rfl
@[simp] theorem bits_enterAcc : (enterAcc s).bits = s.bits := rfl
@[simp] theorem pend_enterAcc : (enterAcc s).pend = s.pend := rfl
@[simp] theorem inp_enterAcc : (enterAcc s).inp = s.inp := rfl
@[simp] theorem tree_enterAcc : (enterAcc s).tree = s.tree := rfl
@[simp] theorem out_enterAcc : (enterAcc s).out = s.out := rfl
@[simp] theorem outReady_enterAcc : (enterAcc s).outReady = s.outReady := rfl
@[simp] theorem trace_enterAcc : (enterAcc s).trace = s.trace := rfl
@[simp] theorem readData_enterAcc : (enterAcc s).readData = s.readData := rfl
@[simp] theorem host_enterAcc : (enterAcc s).host = s.host := rfl

@[simp] theorem status_enterBuild : (enterBuild s).status = s.status := rfl
@[simp] theorem ovr_enterBuild : (enterBuild s).ovr = s.ovr := rfl
@[simp] theorem err_enterBuild : (enterBuild s).err = s.err := rfl
@[simp] theorem lastOp_enterBuild : (enterBuild s).lastOp = s.lastOp := rfl
@[simp] theorem info_enterBuild : (enterBuild s).info = s.info := rfl
@[simp] theorem phase_enterBuild : (enterBuild s).phase = .build := rfl
@[simp] theorem opc_enterBuild : (enterBuild s).opc = s.opc := rfl
@[simp] theorem arena_enterBuild : (enterBuild s).arena = initSlots s.arena := rfl
@[simp] theorem table_enterBuild : (enterBuild s).table = s.table := rfl
@[simp] theorem pbuf_enterBuild : (enterBuild s).pbuf = s.pbuf := rfl
@[simp] theorem cur_enterBuild : (enterBuild s).cur = s.cur := rfl
@[simp] theorem serIdx_enterBuild : (enterBuild s).serIdx = s.serIdx := rfl
@[simp] theorem bits_enterBuild : (enterBuild s).bits = s.bits := rfl
@[simp] theorem pend_enterBuild : (enterBuild s).pend = s.pend := rfl
@[simp] theorem inp_enterBuild : (enterBuild s).inp = s.inp := rfl
@[simp] theorem tree_enterBuild : (enterBuild s).tree = s.tree := rfl
@[simp] theorem out_enterBuild : (enterBuild s).out = s.out := rfl
@[simp] theorem outReady_enterBuild : (enterBuild s).outReady = s.outReady := rfl
@[simp] theorem trace_enterBuild : (enterBuild s).trace = s.trace := rfl
@[simp] theorem readData_enterBuild : (enterBuild s).readData = s.readData := rfl
@[simp] theorem host_enterBuild : (enterBuild s).host = s.host := rfl

@[simp] theorem status_enterSer : (enterSer s).status = s.status := rfl
@[simp] theorem ovr_enterSer : (enterSer s).ovr = s.ovr := rfl
@[simp] theorem err_enterSer : (enterSer s).err = s.err := rfl
@[simp] theorem lastOp_enterSer : (enterSer s).lastOp = s.lastOp := rfl
@[simp] theorem info_enterSer : (enterSer s).info = s.info := rfl
@[simp] theorem phase_enterSer : (enterSer s).phase = .ser := rfl
@[simp] theorem opc_enterSer : (enterSer s).opc = s.opc := rfl
@[simp] theorem arena_enterSer : (enterSer s).arena = s.arena := rfl
@[simp] theorem table_enterSer : (enterSer s).table = s.table := rfl
@[simp] theorem pbuf_enterSer : (enterSer s).pbuf = s.pbuf := rfl
@[simp] theorem cur_enterSer : (enterSer s).cur = s.cur := rfl
@[simp] theorem serIdx_enterSer : (enterSer s).serIdx = 0 := rfl
@[simp] theorem bits_enterSer : (enterSer s).bits = s.bits := rfl
@[simp] theorem pend_enterSer : (enterSer s).pend = s.pend := rfl
@[simp] theorem inp_enterSer : (enterSer s).inp = s.inp := rfl
@[simp] theorem tree_enterSer : (enterSer s).tree = s.tree := rfl
@[simp] theorem out_enterSer : (enterSer s).out = s.out := rfl
@[simp] theorem outReady_enterSer : (enterSer s).outReady = s.outReady := rfl
@[simp] theorem trace_enterSer : (enterSer s).trace = s.trace := rfl
@[simp] theorem readData_enterSer : (enterSer s).readData = s.readData := rfl
@[simp] theorem host_enterSer : (enterSer s).host = s.host := rfl

@[simp] theorem status_enterDeserRead : (enterDeserRead s).status = s.status := rfl
@[simp] theorem ovr_enterDeserRead : (enterDeserRead s).ovr = s.ovr := rfl
@[simp] theorem err_enterDeserRead : (enterDeserRead s).err = s.err := rfl
@[simp] theorem lastOp_enterDeserRead : (enterDeserRead s).lastOp = s.lastOp := rfl
@[simp] theorem info_enterDeserRead : (enterDeserRead s).info = s.info := rfl
@[simp] theorem phase_enterDeserRead : (enterDeserRead s).phase = .deserRead := rfl
@[simp] theorem opc_enterDeserRead : (enterDeserRead s).opc = s.opc := rfl
@[simp] theorem arena_enterDeserRead : (enterDeserRead s).arena = { s.arena with tcnt := 0 } := rfl
@[simp] theorem table_enterDeserRead : (enterDeserRead s).table = s.table := rfl
@[simp] theorem pbuf_enterDeserRead : (enterDeserRead s).pbuf = s.pbuf := rfl
@[simp] theorem cur_enterDeserRead : (enterDeserRead s).cur = s.cur := rfl
@[simp] theorem serIdx_enterDeserRead : (enterDeserRead s).serIdx = s.serIdx := rfl
@[simp] theorem bits_enterDeserRead : (enterDeserRead s).bits = s.bits := rfl
@[simp] theorem pend_enterDeserRead : (enterDeserRead s).pend = s.pend := rfl
@[simp] theorem inp_enterDeserRead : (enterDeserRead s).inp = s.inp := rfl
@[simp] theorem tree_enterDeserRead : (enterDeserRead s).tree = s.tree := rfl
@[simp] theorem out_enterDeserRead : (enterDeserRead s).out = s.out := rfl
@[simp] theorem outReady_enterDeserRead : (enterDeserRead s).outReady = s.outReady := rfl
@[simp] theorem trace_enterDeserRead : (enterDeserRead s).trace = s.trace := rfl
@[simp] theorem readData_enterDeserRead : (enterDeserRead s).readData = s.readData := rfl
@[simp] theorem host_enterDeserRead : (enterDeserRead s).host = s.host := rfl

@[simp] theorem status_enterReplay : (enterReplay s).status = s.status := rfl
@[simp] theorem ovr_enterReplay : (enterReplay s).ovr = s.ovr := rfl
@[simp] theorem err_enterReplay : (enterReplay s).err = s.err := rfl
@[simp] theorem lastOp_enterReplay : (enterReplay s).lastOp = s.lastOp := rfl
@[simp] theorem info_enterReplay : (enterReplay s).info = s.info := rfl
@[simp] theorem phase_enterReplay : (enterReplay s).phase = .deserReplay := rfl
@[simp] theorem opc_enterReplay : (enterReplay s).opc = s.opc := rfl
@[simp] theorem arena_enterReplay : (enterReplay s).arena = initSlots s.arena := rfl
@[simp] theorem table_enterReplay : (enterReplay s).table = s.table := rfl
@[simp] theorem pbuf_enterReplay : (enterReplay s).pbuf = s.pbuf := rfl
@[simp] theorem cur_enterReplay : (enterReplay s).cur = s.cur := rfl
@[simp] theorem serIdx_enterReplay : (enterReplay s).serIdx = s.serIdx := rfl
@[simp] theorem bits_enterReplay : (enterReplay s).bits = s.bits := rfl
@[simp] theorem pend_enterReplay : (enterReplay s).pend = s.pend := rfl
@[simp] theorem inp_enterReplay : (enterReplay s).inp = s.inp := rfl
@[simp] theorem tree_enterReplay : (enterReplay s).tree = s.tree := rfl
@[simp] theorem out_enterReplay : (enterReplay s).out = s.out := rfl
@[simp] theorem outReady_enterReplay : (enterReplay s).outReady = s.outReady := rfl
@[simp] theorem trace_enterReplay : (enterReplay s).trace = s.trace := rfl
@[simp] theorem readData_enterReplay : (enterReplay s).readData = s.readData := rfl
@[simp] theorem host_enterReplay : (enterReplay s).host = s.host := rfl

@[simp] theorem status_replayEnd : (replayEnd s).status = s.status := rfl
@[simp] theorem ovr_replayEnd : (replayEnd s).ovr = s.ovr := rfl
@[simp] theorem err_replayEnd : (replayEnd s).err = s.err := rfl
@[simp] theorem lastOp_replayEnd : (replayEnd s).lastOp = s.lastOp := rfl
@[simp] theorem info_replayEnd : (replayEnd s).info = s.info := rfl
@[simp] theorem phase_replayEnd : (replayEnd s).phase = s.phase := rfl
@[simp] theorem opc_replayEnd : (replayEnd s).opc = s.opc := rfl
@[simp] theorem arena_replayEnd : (replayEnd s).arena = takeRoot s.arena := rfl
@[simp] theorem table_replayEnd : (replayEnd s).table = s.table := rfl
@[simp] theorem pbuf_replayEnd : (replayEnd s).pbuf = s.pbuf := rfl
@[simp] theorem cur_replayEnd : (replayEnd s).cur = s.cur := rfl
@[simp] theorem serIdx_replayEnd : (replayEnd s).serIdx = s.serIdx := rfl
@[simp] theorem bits_replayEnd : (replayEnd s).bits = s.bits := rfl
@[simp] theorem pend_replayEnd : (replayEnd s).pend = s.pend := rfl
@[simp] theorem inp_replayEnd : (replayEnd s).inp = s.inp := rfl
@[simp] theorem tree_replayEnd : (replayEnd s).tree = s.tree := rfl
@[simp] theorem out_replayEnd : (replayEnd s).out = s.out := rfl
@[simp] theorem outReady_replayEnd : (replayEnd s).outReady = s.outReady := rfl
@[simp] theorem trace_replayEnd : (replayEnd s).trace = s.trace := rfl
@[simp] theorem readData_replayEnd : (replayEnd s).readData = s.readData := rfl
@[simp] theorem host_replayEnd : (replayEnd s).host = s.host := rfl

@[simp] theorem status_enterPack : (enterPack s).status = s.status := rfl
@[simp] theorem ovr_enterPack : (enterPack s).ovr = s.ovr := rfl
@[simp] theorem err_enterPack : (enterPack s).err = s.err := rfl
@[simp] theorem lastOp_enterPack : (enterPack s).lastOp = s.lastOp := rfl
@[simp] theorem info_enterPack : (enterPack s).info = s.info := rfl
@[simp] theorem phase_enterPack : (enterPack s).phase = .pack := rfl
@[simp] theorem opc_enterPack : (enterPack s).opc = s.opc := rfl
@[simp] theorem arena_enterPack : (enterPack s).arena = s.arena := rfl
@[simp] theorem table_enterPack : (enterPack s).table = s.table := rfl
@[simp] theorem pbuf_enterPack : (enterPack s).pbuf = [] := rfl
@[simp] theorem cur_enterPack : (enterPack s).cur = s.cur := rfl
@[simp] theorem serIdx_enterPack : (enterPack s).serIdx = s.serIdx := rfl
@[simp] theorem bits_enterPack : (enterPack s).bits = s.bits := rfl
@[simp] theorem pend_enterPack : (enterPack s).pend = s.pend := rfl
@[simp] theorem inp_enterPack : (enterPack s).inp = s.inp := rfl
@[simp] theorem tree_enterPack : (enterPack s).tree = s.tree := rfl
@[simp] theorem out_enterPack : (enterPack s).out = s.out := rfl
@[simp] theorem outReady_enterPack : (enterPack s).outReady = s.outReady := rfl
@[simp] theorem trace_enterPack : (enterPack s).trace = s.trace := rfl
@[simp] theorem readData_enterPack : (enterPack s).readData = s.readData := rfl
@[simp] theorem host_enterPack : (enterPack s).host = s.host := rfl

@[simp] theorem status_enterUnpack : (enterUnpack s).status = s.status := rfl
@[simp] theorem ovr_enterUnpack : (enterUnpack s).ovr = s.ovr := rfl
@[simp] theorem err_enterUnpack : (enterUnpack s).err = s.err := rfl
@[simp] theorem lastOp_enterUnpack : (enterUnpack s).lastOp = s.lastOp := rfl
@[simp] theorem info_enterUnpack : (enterUnpack s).info = s.info := rfl
@[simp] theorem phase_enterUnpack : (enterUnpack s).phase = .unpack := rfl
@[simp] theorem opc_enterUnpack : (enterUnpack s).opc = s.opc := rfl
@[simp] theorem arena_enterUnpack : (enterUnpack s).arena = s.arena := rfl
@[simp] theorem table_enterUnpack : (enterUnpack s).table = s.table := rfl
@[simp] theorem pbuf_enterUnpack : (enterUnpack s).pbuf = s.pbuf := rfl
@[simp] theorem cur_enterUnpack : (enterUnpack s).cur = s.arena.root := rfl
@[simp] theorem serIdx_enterUnpack : (enterUnpack s).serIdx = s.serIdx := rfl
@[simp] theorem bits_enterUnpack : (enterUnpack s).bits = [] := rfl
@[simp] theorem pend_enterUnpack : (enterUnpack s).pend = s.pend := rfl
@[simp] theorem inp_enterUnpack : (enterUnpack s).inp = s.inp := rfl
@[simp] theorem tree_enterUnpack : (enterUnpack s).tree = s.tree := rfl
@[simp] theorem out_enterUnpack : (enterUnpack s).out = s.out := rfl
@[simp] theorem outReady_enterUnpack : (enterUnpack s).outReady = s.outReady := rfl
@[simp] theorem trace_enterUnpack : (enterUnpack s).trace = s.trace := rfl
@[simp] theorem readData_enterUnpack : (enterUnpack s).readData = s.readData := rfl
@[simp] theorem host_enterUnpack : (enterUnpack s).host = s.host := rfl

@[simp] theorem status_appendCode (x : Byte) : (appendCode x s).status = s.status := rfl
@[simp] theorem ovr_appendCode (x : Byte) : (appendCode x s).ovr = s.ovr := rfl
@[simp] theorem err_appendCode (x : Byte) : (appendCode x s).err = s.err := rfl
@[simp] theorem lastOp_appendCode (x : Byte) : (appendCode x s).lastOp = s.lastOp := rfl
@[simp] theorem info_appendCode (x : Byte) : (appendCode x s).info = s.info := rfl
@[simp] theorem phase_appendCode (x : Byte) : (appendCode x s).phase = s.phase := rfl
@[simp] theorem opc_appendCode (x : Byte) : (appendCode x s).opc = s.opc := rfl
@[simp] theorem arena_appendCode (x : Byte) : (appendCode x s).arena = s.arena := rfl
@[simp] theorem table_appendCode (x : Byte) : (appendCode x s).table = s.table := rfl
@[simp] theorem pbuf_appendCode (x : Byte) :
    (appendCode x s).pbuf = s.pbuf ++ s.table.codeAt x := rfl
@[simp] theorem cur_appendCode (x : Byte) : (appendCode x s).cur = s.cur := rfl
@[simp] theorem serIdx_appendCode (x : Byte) : (appendCode x s).serIdx = s.serIdx := rfl
@[simp] theorem bits_appendCode (x : Byte) : (appendCode x s).bits = s.bits := rfl
@[simp] theorem pend_appendCode (x : Byte) : (appendCode x s).pend = s.pend := rfl
@[simp] theorem inp_appendCode (x : Byte) : (appendCode x s).inp = s.inp := rfl
@[simp] theorem tree_appendCode (x : Byte) : (appendCode x s).tree = s.tree := rfl
@[simp] theorem out_appendCode (x : Byte) : (appendCode x s).out = s.out := rfl
@[simp] theorem outReady_appendCode (x : Byte) : (appendCode x s).outReady = s.outReady := rfl
@[simp] theorem trace_appendCode (x : Byte) : (appendCode x s).trace = s.trace := rfl
@[simp] theorem readData_appendCode (x : Byte) : (appendCode x s).readData = s.readData := rfl
@[simp] theorem host_appendCode (x : Byte) : (appendCode x s).host = s.host := rfl

end

end Sys2Proof.Machine
end

