-- ==== Sys2Proof/Laws/Ports.lean ====
section
/-! SUPPORT. The stream primitives, one law each (R52 to R55), the generic form of the two input ports, and
what a trace counts. -/

namespace Sys2Proof.Machine

/-! ### Traces -/

theorem outBytes_append (x y : List PortEvent) : outBytes (x ++ y) = outBytes y ++ outBytes x := by
  induction x with
  | nil => simp [outBytes]
  | cons e x ih => cases e <;> simp [outBytes, ih]

theorem inReads_append (x y : List PortEvent) : inReads (x ++ y) = inReads y ++ inReads x := by
  induction x with
  | nil => simp [inReads]
  | cons e x ih => cases e <;> simp [inReads, ih]

theorem treeReads_append (x y : List PortEvent) : treeReads (x ++ y) = treeReads y ++ treeReads x := by
  induction x with
  | nil => simp [treeReads]
  | cons e x ih => cases e <;> simp [treeReads, ih]

theorem rewinds_append (x y : List PortEvent) : rewinds (x ++ y) = rewinds y + rewinds x := by
  induction x with
  | nil => simp [rewinds]
  | cons e x ih => cases e <;> simp [rewinds, ih]; omega

/-- A trace's port calls are its reads, its rewinds and its writes. -/
theorem portCalls_eq (x : List PortEvent) : portCalls x =
    (inReads x).length + (treeReads x).length + rewinds x + (outBytes x).length := by
  induction x with
  | nil => rfl
  | cons e x ih =>
    cases e <;> simp only [portCalls, inReads, treeReads, rewinds, outBytes, ih, List.length_append,
      List.length_singleton] <;> omega

/-- The events of writing some bytes, newest first. -/
def writesOf (xs : List Byte) : List PortEvent := (xs.map .outWrite).reverse

theorem writesOf_append (x y : List Byte) : writesOf (x ++ y) = writesOf y ++ writesOf x := by
  simp [writesOf]

@[simp] theorem outBytes_writesOf (xs : List Byte) : outBytes (writesOf xs) = xs := by
  induction xs with
  | nil => rfl
  | cons x xs ih =>
    rw [← List.singleton_append, writesOf_append, outBytes_append, ih]; rfl

@[simp] theorem inReads_writesOf (xs : List Byte) : inReads (writesOf xs) = [] := by
  induction xs with
  | nil => rfl
  | cons x xs ih =>
    rw [← List.singleton_append, writesOf_append, inReads_append, ih]; rfl

@[simp] theorem treeReads_writesOf (xs : List Byte) : treeReads (writesOf xs) = [] := by
  induction xs with
  | nil => rfl
  | cons x xs ih =>
    rw [← List.singleton_append, writesOf_append, treeReads_append, ih]; rfl

@[simp] theorem rewinds_writesOf (xs : List Byte) : rewinds (writesOf xs) = 0 := by
  induction xs with
  | nil => rfl
  | cons x xs ih =>
    rw [← List.singleton_append, writesOf_append, rewinds_append, ih]; rfl

/-! ### `OutWrite` -/

/-- The state after a byte is accepted by a host that accepts every byte. -/
def wrote (b : Byte) (s : State) : State := note (.outWrite b) { s with out := s.out ++ [b] }

theorem outWrite_always {s : State} (h : s.outReady = .always) (b : Byte) :
    outWrite b s = some (wrote b s) := by
  simp [outWrite, h, wrote]

/-- `OutWrite` appends the byte, notes the event and spends the host's readiness; all else stays. -/
theorem outWrite_spec {b : Byte} {s s' : State} (h : outWrite b s = some s') :
    ∃ r, s' = { s with out := s.out ++ [b], outReady := r, trace := .outWrite b :: s.trace } := by
  unfold outWrite at h
  split at h
  · next hr => cases h; exact ⟨s.outReady, rfl⟩
  · cases h
  · next n hr => cases h; exact ⟨.upTo n, rfl⟩

/-! ### The two input ports in one form -/

/-- The port a choice names. -/
def portOf : StreamSel → State → InPort
  | .inStream, s => s.inp
  | .treeStream, s => s.tree

/-- The state with that port replaced. -/
def setPort : StreamSel → InPort → State → State
  | .inStream, q, s => { s with inp := q }
  | .treeStream, q, s => { s with tree := q }

/-- The event of a read. -/
def readEvent : StreamSel → Option Byte → PortEvent
  | .inStream, r => .inRead r
  | .treeStream, r => .treeRead r

/-- A read of a port with a byte ahead consumes it (R52). -/
theorem portRead_cons {p : StreamSel} {s : State} {b : Byte} {rest : List Byte}
    (h : (portOf p s).ahead = b :: rest) :
    portRead p s = .byte b (note (readEvent p (some b))
      (setPort p { portOf p s with taken := (portOf p s).taken ++ [b], ahead := rest } s)) := by
  cases p <;> simp only [portOf] at h <;> simp only [portRead, inRead, treeRead, h] <;> rfl

/-- A read at the end of the sequence is `EOS` and consumes nothing (R52). -/
theorem portRead_eos {p : StreamSel} {s : State} (h : (portOf p s).ahead = [])
    (he : (portOf p s).ended = true) : portRead p s = .eos (note (readEvent p none) s) := by
  cases p <;> simp only [portOf] at h he <;> simp only [portRead, inRead, treeRead, h, he] <;> rfl

/-- A read with nothing delivered blocks (R52). -/
theorem portRead_blocked {p : StreamSel} {s : State} (h : (portOf p s).ahead = [])
    (he : (portOf p s).ended = false) : portRead p s = .blocked := by
  cases p <;> simp only [portOf] at h he <;> simp only [portRead, inRead, treeRead, h, he] <;> rfl

/-- The events of reading some bytes, newest first. -/
def readsOf (p : StreamSel) (xs : List Byte) : List PortEvent :=
  (xs.map fun b => readEvent p (some b)).reverse

theorem readsOf_cons (p : StreamSel) (b : Byte) (xs : List Byte) :
    readsOf p (b :: xs) = readsOf p xs ++ [readEvent p (some b)] := by
  simp [readsOf]

@[simp] theorem inReads_readsOf_in (xs : List Byte) :
    inReads (readsOf .inStream xs) = xs.map some := by
  induction xs with
  | nil => rfl
  | cons x xs ih => rw [readsOf_cons, inReads_append, ih]; rfl

@[simp] theorem inReads_readsOf_tree (xs : List Byte) : inReads (readsOf .treeStream xs) = [] := by
  induction xs with
  | nil => rfl
  | cons x xs ih => rw [readsOf_cons, inReads_append, ih]; rfl

@[simp] theorem treeReads_readsOf_tree (xs : List Byte) :
    treeReads (readsOf .treeStream xs) = xs.map some := by
  induction xs with
  | nil => rfl
  | cons x xs ih => rw [readsOf_cons, treeReads_append, ih]; rfl

@[simp] theorem treeReads_readsOf_in (xs : List Byte) : treeReads (readsOf .inStream xs) = [] := by
  induction xs with
  | nil => rfl
  | cons x xs ih => rw [readsOf_cons, treeReads_append, ih]; rfl

@[simp] theorem outBytes_readsOf (p : StreamSel) (xs : List Byte) : outBytes (readsOf p xs) = [] := by
  induction xs with
  | nil => rfl
  | cons x xs ih => rw [readsOf_cons, outBytes_append, ih]; cases p <;> rfl

@[simp] theorem rewinds_readsOf (p : StreamSel) (xs : List Byte) : rewinds (readsOf p xs) = 0 := by
  induction xs with
  | nil => rfl
  | cons x xs ih => rw [readsOf_cons, rewinds_append, ih]; cases p <;> rfl

end Sys2Proof.Machine
end

