-- ==== Sys2Proof/Laws/Forest.lean ====
section
/-! SUPPORT. The forest: what linking a pair does, and that it takes a forest of `256 - K` trees to one
of `255 - K` (R113, R114, R117, R122). Both the builder and the replay link this way. -/

namespace Sys2Proof.Machine

/-! ### The initial forest -/

theorem slotAt_initSlots (a : Arena) (i : Byte) : (initSlots a).slotAt i = leafNode i := by
  simp only [Arena.slotAt, initSlots, getElem_tabulate]
  apply BitVec.eq_of_toNat_eq
  simp [leafNode]

@[simp] theorem k_initSlots (a : Arena) : (initSlots a).k = 0 := rfl

theorem initSlots_forest (a : Arena) : Forest (initSlots a) where
  k_le := by simp
  ordered := by
    intro n h1 h2
    simp at h2
    omega
  below := by
    intro i _
    have := i.isLt
    simp [slotAt_initSlots, leafNode_toNat]; omega
  live := by
    have : ∀ i ∈ allBytes, decide ((initSlots a).slotAt i ≠ emptySlot) = true := by
      intro i _
      simp [slotAt_initSlots, leafNode_ne_empty]
    rw [liveSlots, List.countP_eq_length.2 this]
    simp [allBytes]
  zero := by
    rw [slotAt_initSlots]
    exact leafNode_ne_empty 0
  cover v := ⟨v, [], by rw [slotAt_initSlots]; exact leafNode_ne_empty v, by simp [slotAt_initSlots]⟩
  once := by
    intro v i j p q _ _ hp hq
    have lt : ∀ u : Byte, (leafNode u).toNat < 256 := fun u => by
      rw [leafNode_toNat]; exact u.isLt
    rw [slotAt_initSlots] at hp hq
    obtain ⟨rfl, h1⟩ := follow_leaf (lt i) hp
    obtain ⟨rfl, h2⟩ := follow_leaf (lt j) hq
    exact ⟨leafNode_inj (h1.symm.trans h2), rfl⟩

/-! ### Linking a pair -/

theorem slotAt_linkPair (lo hi : Byte) (a : Arena) (j : Byte) :
    (linkPair lo hi a).slotAt j =
      if hi = j then emptySlot else if lo = j then mergeNode a.k else a.slotAt j := by
  show (((a.setChildren a.k (a.slotAt lo) (a.slotAt hi)).setSlot lo (mergeNode a.k)).setSlot hi
    emptySlot).slotAt j = _
  simp only [slotAt_setSlot, slotAt_setChildren]

@[simp] theorem k_linkPair (lo hi : Byte) (a : Arena) : (linkPair lo hi a).k = a.k + 1 := rfl
@[simp] theorem weightAt_linkPair (lo hi : Byte) (a : Arena) (n : NodeIdx) :
    (linkPair lo hi a).weightAt n = a.weightAt n := rfl
@[simp] theorem mseqAt_linkPair (lo hi : Byte) (a : Arena) (j : Nat) :
    (linkPair lo hi a).mseqAt j = a.mseqAt j := rfl
@[simp] theorem mseq_linkPair (lo hi : Byte) (a : Arena) : (linkPair lo hi a).mseq = a.mseq := rfl
@[simp] theorem width_initSlots (a : Arena) : (initSlots a).weightWidth = a.weightWidth := by
  simp only [initSlots]
@[simp] theorem width_linkPair (lo hi : Byte) (a : Arena) :
    (linkPair lo hi a).weightWidth = a.weightWidth := rfl
@[simp] theorem total_linkPair (lo hi : Byte) (a : Arena) : (linkPair lo hi a).total = a.total := rfl

theorem child_linkPair (lo hi : Byte) (a : Arena) (n : NodeIdx) (b : Bool) (hk : a.k.toNat < 255)
    (hlo : a.slotAt lo ≠ emptySlot) (hhi : a.slotAt hi ≠ emptySlot) :
    (linkPair lo hi a).child n b =
      if n = mergeNode a.k then some (a.slotAt (if b then hi else lo)) else a.child n b := by
  have : (linkPair lo hi a).child n b
      = (a.setChildren a.k (a.slotAt lo) (a.slotAt hi)).child n b := by
    simp only [Arena.child, linkPair, Arena.setSlot]
  rw [this, child_setChildren a a.k _ _ n b hk hlo hhi]
  cases b <;> rfl

theorem toNat_succ_k {k : BitVec 8} (h : k.toNat < 255) : (k + 1).toNat = k.toNat + 1 := by
  have : (1 : BitVec 8).toNat = 1 := rfl
  simp only [BitVec.toNat_add, this]; omega

theorem mergeNode_lt_iff {k : BitVec 8} (h : k.toNat < 255) (n : NodeIdx) :
    n = mergeNode k ↔ n.toNat = 256 + k.toNat := by
  rw [← BitVec.toNat_inj, mergeNode_toNat k h]

theorem liveSlots_eq_card (a : Arena) :
    liveSlots a = (Finset.univ.filter fun i : Byte => a.slotAt i ≠ emptySlot).card := by
  rw [liveSlots, List.countP_eq_length_filter, ← List.toFinset_card_of_nodup (allBytes_nodup.filter _)]
  congr 1
  ext i
  simp [mem_allBytes]

theorem liveSlots_linkPair {lo hi : Byte} {a : Arena} (hk : a.k.toNat < 255)
    (hlo : a.slotAt lo ≠ emptySlot) (hhi : a.slotAt hi ≠ emptySlot) :
    liveSlots (linkPair lo hi a) = liveSlots a - 1 := by
  rw [liveSlots_eq_card, liveSlots_eq_card,
    ← Finset.card_erase_of_mem (a := hi) (by simpa using hhi)]
  congr 1
  ext j
  simp only [Finset.mem_filter, Finset.mem_univ, true_and, Finset.mem_erase, slotAt_linkPair]
  by_cases h1 : hi = j
  · simp [h1]
  · by_cases h2 : lo = j
    · subst h2; simp [h1, Ne.symm h1, hlo, mergeNode_ne_empty a.k hk]
    · simp [h1, h2, Ne.symm h1]

section
variable {a : Arena} {lo hi : Byte}

/-- Below the new node every path is as before. -/
theorem follow_linkPair (F : Forest a) (hk : a.k.toNat < 255) (hlo : a.slotAt lo ≠ emptySlot)
    (hhi : a.slotAt hi ≠ emptySlot) (n : NodeIdx) (hn : n.toNat < 256 + a.k.toNat) (p : BitString) :
    follow (linkPair lo hi a) n p = follow a n p := by
  refine follow_congr F.ordered (fun m hm b => ?_) p n hn
  rw [child_linkPair lo hi a m b hk hlo hhi, if_neg]
  rw [mergeNode_lt_iff hk]; omega

/-- A path of the new forest comes from one of the old: through the new node it has one bit more. -/
theorem old_path (F : Forest a) (hk : a.k.toNat < 255) (hlo : a.slotAt lo ≠ emptySlot)
    (hhi : a.slotAt hi ≠ emptySlot) {i v : Byte} {p : BitString}
    (hi' : (linkPair lo hi a).slotAt i ≠ emptySlot)
    (hp : follow (linkPair lo hi a) ((linkPair lo hi a).slotAt i) p = some (leafNode v)) :
    ∃ j q, a.slotAt j ≠ emptySlot ∧ follow a (a.slotAt j) q = some (leafNode v) ∧
      ((i = lo ∧ ∃ b, p = b :: q ∧ j = if b then hi else lo) ∨ (i ≠ lo ∧ i ≠ hi ∧ j = i ∧ q = p)) := by
  rw [slotAt_linkPair] at hp hi'
  by_cases h1 : hi = i
  · exact absurd (if_pos h1) hi'
  rw [if_neg h1] at hp hi'
  by_cases h2 : lo = i
  · subst h2
    rw [if_pos rfl] at hp
    cases p with
    | nil =>
      have := congrArg BitVec.toNat (Option.some.inj ((follow_nil _ _).symm.trans hp))
      rw [mergeNode_toNat a.k hk, leafNode_toNat] at this
      have := v.isLt; omega
    | cons b q =>
      obtain ⟨m, hm, hq⟩ := follow_cons_eq_some hp
      rw [child_linkPair lo hi a _ b hk hlo hhi, if_pos rfl] at hm
      obtain rfl := Option.some.inj hm
      have hb : a.slotAt (if b then hi else lo) ≠ emptySlot := by cases b <;> assumption
      rw [follow_linkPair F hk hlo hhi _ (F.below _ hb)] at hq
      exact ⟨_, q, hb, hq, .inl ⟨rfl, b, rfl, rfl⟩⟩
  · rw [if_neg h2] at hp hi'
    rw [follow_linkPair F hk hlo hhi _ (F.below _ hi')] at hp
    exact ⟨i, p, hi', hp, .inr ⟨Ne.symm h2, Ne.symm h1, rfl, rfl⟩⟩

/-- Linking two live slots, the lower kept, makes a forest of one tree fewer (R113). -/
theorem linkPair_forest (F : Forest a) (hk : a.k.toNat < 255) (hlo : a.slotAt lo ≠ emptySlot)
    (hhi : a.slotAt hi ≠ emptySlot) (hlt : lo < hi) : Forest (linkPair lo hi a) := by
  have hk1 := toNat_succ_k hk
  have hlt' : lo.toNat < hi.toNat := hlt
  have hne : lo ≠ hi := fun h => by simp [h] at hlt'
  refine ⟨by rw [k_linkPair, hk1]; omega, ?_, ?_, ?_, ?_, ?_, ?_⟩
  · intro n h1 h2 b
    rw [k_linkPair, hk1] at h2
    rw [child_linkPair lo hi a n b hk hlo hhi]
    by_cases hn : n = mergeNode a.k
    · rw [if_pos hn]
      have hb : a.slotAt (if b then hi else lo) ≠ emptySlot := by cases b <;> assumption
      exact ⟨_, rfl, by rw [hn, mergeNode_toNat _ hk]; exact F.below _ hb⟩
    · rw [if_neg hn]
      rw [mergeNode_lt_iff hk] at hn
      exact F.ordered n h1 (by omega) b
  · intro i hi'
    rw [k_linkPair, hk1]
    rw [slotAt_linkPair] at hi' ⊢
    split at hi'
    · exact absurd rfl hi'
    · next h1 =>
      rw [if_neg h1]
      split at hi'
      · next h2 => rw [if_pos h2, mergeNode_toNat _ hk]; omega
      · next h2 => rw [if_neg h2]; have := F.below i hi'; omega
  · rw [liveSlots_linkPair hk hlo hhi, F.live, k_linkPair, hk1]; omega
  · rw [slotAt_linkPair, if_neg (fun h => by simp [h] at hlt')]
    split
    · exact mergeNode_ne_empty _ hk
    · exact F.zero
  · intro v
    obtain ⟨i, p, hi', hp⟩ := F.cover v
    have hf := follow_linkPair F hk hlo hhi (a.slotAt i) (F.below i hi')
    have hnode : (linkPair lo hi a).slotAt lo = mergeNode a.k := by
      rw [slotAt_linkPair, if_neg (Ne.symm hne), if_pos rfl]
    by_cases h : i = lo ∨ i = hi
    · obtain ⟨b, hb⟩ : ∃ b : Bool, i = if b then hi else lo := by
        rcases h with rfl | rfl
        · exact ⟨false, rfl⟩
        · exact ⟨true, rfl⟩
      refine ⟨lo, b :: p, by rw [hnode]; exact mergeNode_ne_empty _ hk, ?_⟩
      rw [hnode, follow_cons (m := a.slotAt i), hf, hp]
      rw [child_linkPair lo hi a _ b hk hlo hhi, if_pos rfl, hb]
    · rw [not_or] at h
      have hs : (linkPair lo hi a).slotAt i = a.slotAt i := by
        rw [slotAt_linkPair, if_neg (Ne.symm h.2), if_neg (Ne.symm h.1)]
      exact ⟨i, p, by rw [hs]; exact hi', by rw [hs, hf, hp]⟩
  · intro v i j p q hi' hj hp hq
    obtain ⟨i0, p0, h1, h2, h3⟩ := old_path F hk hlo hhi hi' hp
    obtain ⟨j0, q0, h4, h5, h6⟩ := old_path F hk hlo hhi hj hq
    obtain ⟨h7, h8⟩ := F.once v i0 j0 p0 q0 h1 h4 h2 h5
    rcases h3 with ⟨rfl, b, rfl, hb⟩ | ⟨n1, n2, rfl, rfl⟩ <;>
    rcases h6 with ⟨rfl, c, rfl, hc⟩ | ⟨n3, n4, rfl, rfl⟩
    · refine ⟨rfl, ?_⟩
      have : b = c := by
        cases b <;> cases c <;> simp_all
      rw [this, h8]
    · exfalso
      cases b <;> simp_all
    · exfalso
      cases c <;> simp_all
    · exact ⟨h7, h8⟩

end

/-! ### The finished tree -/

/-- When one slot is live it is slot 0 (R117). -/
theorem only_slot_zero {a : Arena} (F : Forest a) (hk : a.k.toNat = 255) (i : Byte)
    (hi : a.slotAt i ≠ emptySlot) : i = 0 := by
  have h1 := F.live
  rw [liveSlots_eq_card, hk] at h1
  exact Finset.card_le_one.1 h1.le i (by simpa using hi) 0 (by simpa using F.zero)

@[simp] theorem root_takeRoot (a : Arena) : (takeRoot a).root = a.slotAt 0 := rfl
@[simp] theorem child_takeRoot (a : Arena) (n b) : (takeRoot a).child n b = a.child n b := by
  simp only [Arena.child, takeRoot, Arena.setSlot]
@[simp] theorem width_takeRoot (a : Arena) : (takeRoot a).weightWidth = a.weightWidth := rfl
@[simp] theorem weightAt_takeRoot (a : Arena) (n) : (takeRoot a).weightAt n = a.weightAt n := rfl
@[simp] theorem mseq_takeRoot (a : Arena) : (takeRoot a).mseq = a.mseq := rfl
@[simp] theorem k_takeRoot (a : Arena) : (takeRoot a).k = a.k := rfl

theorem follow_takeRoot (a : Arena) (p : BitString) :
    ∀ n, follow (takeRoot a) n p = follow a n p := by
  induction p with
  | nil => intro n; simp
  | cons b p ih => intro n; simp only [follow, child_takeRoot, ih]

theorem slotAt_takeRoot (a : Arena) (i : Byte) :
    (takeRoot a).slotAt i = if i = 0 then emptySlot else a.slotAt i := by
  have : (takeRoot a).slotAt i = (a.setSlot 0 emptySlot).slotAt i := rfl
  rw [this, slotAt_setSlot]
  simp only [eq_comm]

/-- After 255 merges, taking the root leaves a tree over all 256 leaves (R117, R122). -/
theorem takeRoot_tree {a : Arena} (F : Forest a) (hk : a.k.toNat = 255) : Tree (takeRoot a) := by
  have hb := F.below 0 F.zero
  have cov : ∀ v, ∃ p, follow a (a.slotAt 0) p = some (leafNode v) := by
    intro v
    obtain ⟨i, p, hi, hp⟩ := F.cover v
    obtain rfl := only_slot_zero F hk i hi
    exact ⟨p, hp⟩
  refine ⟨?_, by rw [root_takeRoot]; omega, ?_, ?_, ?_⟩
  · by_contra hl
    rw [root_takeRoot] at hl
    obtain ⟨p, hp⟩ := cov 0
    obtain ⟨q, hq⟩ := cov 1
    have h0 := (follow_leaf (by omega) hp).2
    have h1 := (follow_leaf (by omega) hq).2
    exact absurd (leafNode_inj (h0.trans h1.symm)) (by decide)
  · intro n h1 h2 b
    have := F.ordered n h1 (by omega) b
    simpa using this
  · intro v
    obtain ⟨p, hp⟩ := cov v
    exact ⟨p, by rw [follow_takeRoot, root_takeRoot, hp]⟩
  · intro v p q hp hq
    rw [follow_takeRoot, root_takeRoot] at hp hq
    exact (F.once v 0 0 p q F.zero F.zero hp hq).2

end Sys2Proof.Machine
end

