-- ==== Sys2Proof/Laws/Builder.lean ====
section
/-! SUPPORT. The builder: what SelectMin finds (R112), that a merge never fails (R110), that weights add
without wrapping (R118), and that the record replays to the same tree (R139). -/

namespace Sys2Proof.Machine

/-! ### SelectMin -/

theorem pairLe_trans {a : Arena} {i j l : Byte} (h : PairLe a i j) (g : PairLe a j l) : PairLe a i l := by
  simp only [PairLe, BitVec.le_def] at *
  omega

/-- The best of a scanned part: eligible, scanned, and not above any other. -/
def BestOf (a : Arena) (excl : Option Byte) (seen : Byte → Prop) : Option Byte → Prop
  | none => ∀ j, seen j → ¬ Eligible a excl j
  | some i => seen i ∧ Eligible a excl i ∧ ∀ j, seen j → Eligible a excl j → PairLe a i j

theorem selectStep_bestOf {a : Arena} {excl best : Option Byte} {seen : Byte → Prop} {x : Byte}
    (hx : ∀ i, seen i → i.toNat < x.toNat) (h : BestOf a excl seen best) :
    BestOf a excl (fun i => seen i ∨ i = x) (selectStep a excl best x) := by
  unfold selectStep
  by_cases he : a.slotAt x = emptySlot ∨ excl = some x
  · rw [if_pos he]
    have hne : ¬ Eligible a excl x := by
      unfold Eligible; tauto
    cases best with
    | none =>
      rintro j (hj | rfl)
      · exact h j hj
      · exact hne
    | some i =>
      refine ⟨.inl h.1, h.2.1, ?_⟩
      rintro j (hj | rfl) hel
      · exact h.2.2 j hj hel
      · exact absurd hel hne
  · rw [if_neg he]
    have hel : Eligible a excl x := by
      unfold Eligible; tauto
    have self : PairLe a x x := .inr ⟨rfl, Nat.le_refl _⟩
    cases best with
    | none =>
      refine ⟨.inr rfl, hel, ?_⟩
      rintro j (hj | rfl) hj'
      · exact absurd hj' (h j hj)
      · exact self
    | some i =>
      have hix : i.toNat < x.toNat := hx i h.1
      by_cases hlt : a.weightAt (a.slotAt x) < a.weightAt (a.slotAt i)
      · simp only [if_pos hlt]
        refine ⟨.inr rfl, hel, ?_⟩
        rintro j (hj | rfl) hj'
        · exact pairLe_trans (.inl hlt) (h.2.2 j hj hj')
        · exact self
      · simp only [if_neg hlt]
        refine ⟨.inl h.1, h.2.1, ?_⟩
        rintro j (hj | rfl) hj'
        · exact h.2.2 j hj hj'
        · simp only [PairLe, BitVec.le_def] at *
          omega

theorem foldl_selectStep {a : Arena} {excl : Option Byte} (l : List Byte) :
    ∀ (best : Option Byte) (seen : Byte → Prop), l.Pairwise (fun i j => i.toNat < j.toNat) →
      (∀ i, seen i → ∀ x ∈ l, i.toNat < x.toNat) → BestOf a excl seen best →
      BestOf a excl (fun i => seen i ∨ i ∈ l) (l.foldl (selectStep a excl) best) := by
  induction l with
  | nil => intro best seen _ _ h; simpa using h
  | cons x l ih =>
    intro best seen hp hs h
    rw [List.pairwise_cons] at hp
    have h1 := selectStep_bestOf (x := x) (fun i hi => hs i hi x (by simp)) h
    have h2 := ih _ _ hp.2 (by
      rintro i (hi | rfl) y hy
      · exact hs i hi y (by simp [hy])
      · exact hp.1 y hy) h1
    simpa [or_assoc] using h2

theorem selectMin_bestOf (a : Arena) (excl : Option Byte) :
    BestOf a excl (fun _ => True) (selectMin a excl) := by
  have h := foldl_selectStep (a := a) (excl := excl) allBytes none (fun _ => False) allBytes_sorted
    (by simp) (by simp [BestOf])
  simpa [mem_allBytes, selectMin] using h

/-- SelectMin finds nothing only if there is nothing (R112). -/
theorem selectMin_none {a : Arena} {excl : Option Byte} (h : selectMin a excl = none) (i : Byte) :
    ¬ Eligible a excl i := by
  have := selectMin_bestOf a excl
  rw [h] at this
  exact this i trivial

/-- What SelectMin finds is the eligible slot of the least `(weight, index)` pair (R112). -/
theorem selectMin_some {a : Arena} {excl : Option Byte} {i : Byte} (h : selectMin a excl = some i) :
    Eligible a excl i ∧ ∀ j, Eligible a excl j → PairLe a i j := by
  have := selectMin_bestOf a excl
  rw [h] at this
  exact ⟨this.2.1, fun j hj => this.2.2 j trivial hj⟩

theorem pairLe_antisymm {a : Arena} {i j : Byte} (h : PairLe a i j) (h' : PairLe a j i) : i = j := by
  apply BitVec.eq_of_toNat_eq
  simp only [PairLe, BitVec.le_def] at *
  omega

/-- The eligible slot whose pair is not above any other's is the one SelectMin finds (R112). -/
theorem selectMin_least {a : Arena} {excl : Option Byte} {i : Byte} (he : Eligible a excl i)
    (hm : ∀ j, Eligible a excl j → j ≠ i → PairLe a i j) : selectMin a excl = some i := by
  cases hs : selectMin a excl with
  | none => exact absurd he (selectMin_none hs i)
  | some k =>
    obtain ⟨k1, k2⟩ := selectMin_some hs
    by_cases hk : k = i
    · rw [hk]
    · exact congrArg some (pairLe_antisymm (k2 i he) (hm k k1 hk))

/-! ### A merge -/

theorem mergePair_eq (lo hi : Byte) (a : Arena) :
    ∃ w m, mergePair lo hi a = linkPair lo hi { a with w := w, mseq := m } := ⟨_, _, rfl⟩

@[simp] theorem slotAt_mergePair (lo hi : Byte) (a : Arena) (j : Byte) :
    (mergePair lo hi a).slotAt j = (linkPair lo hi a).slotAt j := by
  rw [mergePair, slotAt_linkPair, slotAt_linkPair]; rfl

@[simp] theorem k_mergePair (lo hi : Byte) (a : Arena) : (mergePair lo hi a).k = a.k + 1 := rfl
@[simp] theorem total_mergePair (lo hi : Byte) (a : Arena) : (mergePair lo hi a).total = a.total := rfl
@[simp] theorem width_mergePair (lo hi : Byte) (a : Arena) :
    (mergePair lo hi a).weightWidth = a.weightWidth := rfl

@[simp] theorem child_mergePair (lo hi : Byte) (a : Arena) (n : NodeIdx) (b : Bool) :
    (mergePair lo hi a).child n b = (linkPair lo hi a).child n b := by
  simp only [Arena.child, mergePair, linkPair, Arena.setSlot, Arena.setChildren, Arena.setMseq,
    Arena.setWeight, Arena.slotAt]

theorem weightAt_mergePair (lo hi : Byte) (a : Arena) (n : NodeIdx) (hk : a.k.toNat < 255) :
    (mergePair lo hi a).weightAt n =
      if n = mergeNode a.k then a.fit (a.weightAt (a.slotAt lo) + a.weightAt (a.slotAt hi))
      else a.weightAt n := by
  have : (mergePair lo hi a).weightAt n = (a.setWeight (mergeNode a.k)
    (a.weightAt (a.slotAt lo) + a.weightAt (a.slotAt hi))).weightAt n := rfl
  rw [this, weightAt_setWeight _ _ _ _ (by rw [mergeNode_toNat _ hk]; omega)]
  simp only [eq_comm]

theorem mseqAt_mergePair (lo hi : Byte) (a : Arena) (j : Nat) (hk : a.k.toNat < 255) :
    (mergePair lo hi a).mseqAt j =
      if j = 2 * a.k.toNat + 1 then hi else if j = 2 * a.k.toNat then lo else a.mseqAt j := by
  have : (mergePair lo hi a).mseqAt j =
      ((a.setMseq (2 * a.k.toNat) lo).setMseq (2 * a.k.toNat + 1) hi).mseqAt j := rfl
  rw [this, mseqAt_setMseq _ _ _ _ (by omega), mseqAt_setMseq _ _ _ _ (by omega)]
  simp only [eq_comm]

/-- The forest facts look only at `SLOT`, `K` and the children. -/
theorem forest_congr {a a' : Arena} (hs : ∀ i, a'.slotAt i = a.slotAt i) (hk : a'.k = a.k)
    (hc : ∀ n b, a'.child n b = a.child n b) (F : Forest a) : Forest a' := by
  have hf : ∀ p n, follow a' n p = follow a n p := by
    intro p
    induction p with
    | nil => intro n; simp
    | cons b p ih => intro n; simp only [follow, hc, ih]
  constructor
  · rw [hk]; exact F.k_le
  · rw [hk]; intro n h1 h2 b; rw [hc]; exact F.ordered n h1 h2 b
  · intro i; rw [hk, hs]; exact F.below i
  · rw [hk, ← F.live]; simp only [liveSlots, hs]
  · rw [hs]; exact F.zero
  · intro v; simp only [hs, hf]; exact F.cover v
  · intro v i j p q; simp only [hs, hf]; exact F.once v i j p q

theorem mergePair_forest {a : Arena} {lo hi : Byte} (F : Forest a) (hk : a.k.toNat < 255)
    (hlo : a.slotAt lo ≠ emptySlot) (hhi : a.slotAt hi ≠ emptySlot) (hlt : lo < hi) :
    Forest (mergePair lo hi a) :=
  forest_congr (slotAt_mergePair lo hi a) rfl (child_mergePair lo hi a)
    (linkPair_forest F hk hlo hhi hlt)

theorem minByte_lt_maxByte {i j : Byte} (h : i ≠ j) : minByte i j < maxByte i j := by
  unfold minByte maxByte
  have : i.toNat ≠ j.toNat := fun he => h (BitVec.eq_of_toNat_eq he)
  split <;> simp only [BitVec.lt_def, BitVec.le_def] at * <;> omega

/-- BUILD's merge cannot fail: with two live slots or more it links the two of least weight (R110, R112). -/
theorem mergeStep_spec {a : Arena} (F : Forest a) (hk : a.k.toNat < 255) :
    ∃ i1 i2, selectMin a none = some i1 ∧ selectMin a (some i1) = some i2 ∧ i1 ≠ i2 ∧
      a.slotAt i1 ≠ emptySlot ∧ a.slotAt i2 ≠ emptySlot ∧
      mergeStep a = some (mergePair (minByte i1 i2) (maxByte i1 i2) a) := by
  obtain ⟨i1, h1⟩ : ∃ i1, selectMin a none = some i1 := by
    cases h : selectMin a none with
    | none => exact absurd ⟨F.zero, by simp⟩ (selectMin_none h 0)
    | some i => exact ⟨i, rfl⟩
  obtain ⟨i2, h2⟩ : ∃ i2, selectMin a (some i1) = some i2 := by
    cases h : selectMin a (some i1) with
    | some i => exact ⟨i, rfl⟩
    | none =>
      exfalso
      have hl := F.live
      rw [liveSlots_eq_card] at hl
      have hle : (Finset.univ.filter fun i : Byte => a.slotAt i ≠ emptySlot).card ≤ 1 := by
        rw [Finset.card_le_one_iff_subset_singleton]
        refine ⟨i1, fun j hj => ?_⟩
        by_contra hji
        refine selectMin_none h j ⟨by simpa using hj, ?_⟩
        simp only [Finset.mem_singleton] at hji
        simpa [eq_comm] using hji
      omega
  have e1 := (selectMin_some h1).1
  have e2 := (selectMin_some h2).1
  refine ⟨i1, i2, h1, h2, ?_, e1.1, e2.1, ?_⟩
  · rintro rfl; exact e2.2 rfl
  · simp only [mergeStep, h1, h2]

/-- Every merge that is made is of two slots. -/
theorem mergeStep_eq {a b : Arena} (h : mergeStep a = some b) : ∃ lo hi, b = mergePair lo hi a := by
  unfold mergeStep at h
  split at h
  · cases h
  · split at h
    · cases h
    · cases h; exact ⟨_, _, rfl⟩

theorem k_mergeStep {a b : Arena} (h : mergeStep a = some b) : b.k = a.k + 1 := by
  obtain ⟨lo, hi, rfl⟩ := mergeStep_eq h; rfl

theorem width_mergeStep {a b : Arena} (h : mergeStep a = some b) : b.weightWidth = a.weightWidth := by
  obtain ⟨lo, hi, rfl⟩ := mergeStep_eq h; rfl

/-- The merge of `mergeStep_spec`, by its two slots in order. -/
theorem mergeStep_pair {a : Arena} (F : Forest a) (hk : a.k.toNat < 255) :
    ∃ lo hi, lo < hi ∧ a.slotAt lo ≠ emptySlot ∧ a.slotAt hi ≠ emptySlot ∧
      mergeStep a = some (mergePair lo hi a) := by
  obtain ⟨i1, i2, -, -, hne, h1, h2, h⟩ := mergeStep_spec F hk
  refine ⟨_, _, minByte_lt_maxByte hne, ?_, ?_, h⟩
  · unfold minByte; split <;> assumption
  · unfold maxByte; split <;> assumption

/-! ### The whole of BUILD -/

/-- So many merges succeed and leave a forest, and leave the record so far as it was. -/
theorem mergeLoop_spec (n : Nat) : ∀ {a : Arena}, Forest a → a.k.toNat + n ≤ 255 →
    ∃ a', mergeLoop n a = some a' ∧ Forest a' ∧ a'.k.toNat = a.k.toNat + n ∧ a'.total = a.total ∧
      a'.tcnt = a.tcnt ∧ a'.root = a.root ∧ a'.weightWidth = a.weightWidth ∧
      (∀ j, j < 2 * a.k.toNat → a'.mseqAt j = a.mseqAt j) ∧
      (∀ m : NodeIdx, m.toNat < 256 + a.k.toNat → a'.weightAt m = a.weightAt m) := by
  induction n with
  | zero =>
    intro a F _
    exact ⟨a, rfl, F, rfl, rfl, rfl, rfl, rfl, fun _ _ => rfl, fun _ _ => rfl⟩
  | succ n ih =>
    intro a F hk
    have hk' : a.k.toNat < 255 := by omega
    obtain ⟨lo, hi, hlt, hlo, hhi, hs⟩ := mergeStep_pair F hk'
    have hk1 : (mergePair lo hi a).k.toNat = a.k.toNat + 1 := by
      rw [k_mergePair, toNat_succ_k hk']
    obtain ⟨a', h1, h2, h3, h4, h5, h6, hw, h7, h8⟩ :=
      ih (mergePair_forest F hk' hlo hhi hlt) (by omega)
    refine ⟨a', ?_, h2, by omega, h4, h5, h6, hw, ?_, ?_⟩
    · rw [mergeLoop, hs]; exact h1
    · intro j hj
      rw [h7 j (by omega), mseqAt_mergePair lo hi a j hk', if_neg (by omega), if_neg (by omega)]
    · intro m hm
      rw [h8 m (by omega), weightAt_mergePair lo hi a m hk', if_neg]
      rw [mergeNode_lt_iff hk']; omega

/-- BUILD succeeds and leaves a tree; leaf weights and `TOTAL` stay (R110, R117). -/
theorem buildArena_spec (a : Arena) : ∃ a', buildArena a = some a' ∧ Tree a' ∧ a'.k = 255 ∧
    a'.total = a.total ∧ a'.tcnt = a.tcnt ∧ (∀ i, a'.slotAt i = emptySlot) ∧
    a'.weightWidth = a.weightWidth ∧ ∀ m : NodeIdx, m.toNat < 256 → a'.weightAt m = a.weightAt m := by
  obtain ⟨a', h1, F, h3, h4, h5, -, hw, -, h8⟩ :=
    mergeLoop_spec 255 (initSlots_forest a) (by simp)
  have hk : a'.k.toNat = 255 := by simpa using h3
  refine ⟨takeRoot a', ?_, takeRoot_tree F hk, ?_, h4, h5, ?_, hw, ?_⟩
  · rw [buildArena, h1]; rfl
  · rw [k_takeRoot]; exact BitVec.eq_of_toNat_eq (by rw [hk]; rfl)
  · intro i
    rw [slotAt_takeRoot]
    split
    · rfl
    · next h =>
      by_contra hne
      exact h (only_slot_zero F hk i hne)
  · intro m hm
    rw [weightAt_takeRoot]
    exact h8 m (by simpa using hm)

/-! ### Weights -/

/-- Two trees of the forest weigh no more than the forest. -/
theorem pair_le_liveWeight {a : Arena} {lo hi : Byte} (hlo : a.slotAt lo ≠ emptySlot)
    (hhi : a.slotAt hi ≠ emptySlot) (hne : lo ≠ hi) :
    a.weightAt (a.slotAt lo) + a.weightAt (a.slotAt hi) ≤ liveWeight a := by
  rw [← Finset.sum_pair (f := fun i => a.weightAt (a.slotAt i)) hne, liveWeight]
  refine Finset.sum_le_sum_of_subset fun i hi' => ?_
  rcases Finset.mem_insert.1 hi' with rfl | h
  · simpa using hlo
  · rw [Finset.mem_singleton.1 h]; simpa using hhi

/-- A merge adds two weights without wrapping (R115, R118). -/
theorem weightAt_merged {a : Arena} {lo hi : Byte} (hk : a.k.toNat < 255)
    (hlo : a.slotAt lo ≠ emptySlot) (hhi : a.slotAt hi ≠ emptySlot) (hlt : lo < hi)
    (hw : liveWeight a ≤ a.maxInput) : (mergePair lo hi a).weightAt (mergeNode a.k) =
      a.weightAt (a.slotAt lo) + a.weightAt (a.slotAt hi) := by
  have hne : lo ≠ hi := fun h => absurd (h ▸ hlt : hi < hi) (by simp)
  rw [weightAt_mergePair lo hi a _ hk, if_pos rfl,
    fit_of_le ((pair_le_liveWeight hlo hhi hne).trans hw)]

/-- A merge leaves the weights of the nodes there are. -/
theorem weightAt_below {a : Arena} (lo hi : Byte) (hk : a.k.toNat < 255) {n : NodeIdx}
    (hn : n.toNat < 256 + a.k.toNat) : (mergePair lo hi a).weightAt n = a.weightAt n := by
  rw [weightAt_mergePair lo hi a _ hk, if_neg]
  rw [mergeNode_lt_iff hk]; omega

/-- A merge keeps the forest's weight (R118). -/
theorem liveWeight_mergePair {a : Arena} {lo hi : Byte} (F : Forest a) (hk : a.k.toNat < 255)
    (hlo : a.slotAt lo ≠ emptySlot) (hhi : a.slotAt hi ≠ emptySlot) (hlt : lo < hi)
    (hw : liveWeight a ≤ a.maxInput) : liveWeight (mergePair lo hi a) = liveWeight a := by
  have hne : lo ≠ hi := fun h => absurd (h ▸ hlt : hi < hi) (by simp)
  have hmem : ∀ i, i ∈ (Finset.univ.filter fun i : Byte => a.slotAt i ≠ emptySlot) ↔
      a.slotAt i ≠ emptySlot := by simp
  set S := Finset.univ.filter fun i : Byte => a.slotAt i ≠ emptySlot with hS
  set R := (S.erase hi).erase lo with hR
  have e1 : S.erase hi = insert lo R := by
    rw [hR, Finset.insert_erase]
    exact Finset.mem_erase.2 ⟨hne, (hmem lo).2 hlo⟩
  have e2 : S = insert hi (S.erase hi) := (Finset.insert_erase ((hmem hi).2 hhi)).symm
  have hS' : (Finset.univ.filter fun i : Byte => (mergePair lo hi a).slotAt i ≠ emptySlot)
      = insert lo R := by
    rw [← e1]
    ext j
    simp only [Finset.mem_filter, Finset.mem_univ, true_and, Finset.mem_erase, hS,
      slotAt_mergePair, slotAt_linkPair]
    by_cases h1 : hi = j
    · simp [h1]
    · by_cases h2 : lo = j
      · subst h2; simp [h1, Ne.symm h1, hlo, mergeNode_ne_empty a.k hk]
      · simp [h1, h2, Ne.symm h1]
  have hlR : lo ∉ R := by simp [hR]
  have hhR : hi ∉ insert lo R := by rw [← e1]; simp
  have old : liveWeight a = a.weightAt (a.slotAt hi) + (a.weightAt (a.slotAt lo)
      + ∑ i ∈ R, a.weightAt (a.slotAt i)) := by
    rw [liveWeight, ← hS, e2, e1, Finset.sum_insert hhR, Finset.sum_insert hlR]
  have hsum : ∑ i ∈ R, (mergePair lo hi a).weightAt ((mergePair lo hi a).slotAt i)
      = ∑ i ∈ R, a.weightAt (a.slotAt i) := by
    refine Finset.sum_congr rfl fun i hi' => ?_
    have hil : i ≠ lo := fun h => hlR (h ▸ hi')
    have hih : i ≠ hi := fun h => hhR (Finset.mem_insert_of_mem (h ▸ hi'))
    have hs : (mergePair lo hi a).slotAt i = a.slotAt i := by
      rw [slotAt_mergePair, slotAt_linkPair, if_neg (Ne.symm hih), if_neg (Ne.symm hil)]
    have hlive : a.slotAt i ≠ emptySlot := by
      rw [← hmem, e2, e1]
      exact Finset.mem_insert_of_mem (Finset.mem_insert_of_mem hi')
    rw [hs, weightAt_below lo hi hk (F.below i hlive)]
  have hnew : (mergePair lo hi a).weightAt ((mergePair lo hi a).slotAt lo)
      = a.weightAt (a.slotAt lo) + a.weightAt (a.slotAt hi) := by
    rw [slotAt_mergePair, slotAt_linkPair, if_neg (Ne.symm hne), if_pos rfl,
      weightAt_merged hk hlo hhi hlt hw]
  rw [liveWeight, hS', Finset.sum_insert hlR, hsum, hnew, old]
  omega

/-- A merge adds a node that weighs exactly what its children do (R115, R118). -/
theorem sumsExact_mergePair {a : Arena} {lo hi : Byte} (F : Forest a) (hk : a.k.toNat < 255)
    (hlo : a.slotAt lo ≠ emptySlot) (hhi : a.slotAt hi ≠ emptySlot) (hlt : lo < hi)
    (hw : liveWeight a ≤ a.maxInput) (E : SumsExact a a.k.toNat) :
    SumsExact (mergePair lo hi a) (a.k.toNat + 1) := by
  intro n h1 h2
  simp only [child_mergePair, child_linkPair lo hi a n _ hk hlo hhi]
  by_cases hn : n = mergeNode a.k
  · subst hn
    refine ⟨a.slotAt lo, a.slotAt hi, by simp, by simp, ?_⟩
    rw [weightAt_merged hk hlo hhi hlt hw, weightAt_below lo hi hk (F.below _ hlo),
      weightAt_below lo hi hk (F.below _ hhi)]
  · have hlt' : n.toNat < 256 + a.k.toNat := by
      rw [mergeNode_lt_iff hk] at hn; omega
    obtain ⟨l, r, hl, hr, he⟩ := E n h1 hlt'
    have below : ∀ b m, a.child n b = some m → m.toNat < 256 + a.k.toNat := fun b m hm => by
      obtain ⟨m', hm', hlt⟩ := F.ordered n h1 hlt' b
      rw [hm] at hm'; obtain rfl := Option.some.inj hm'; omega
    refine ⟨l, r, by simpa [hn] using hl, by simpa [hn] using hr, ?_⟩
    rw [weightAt_below lo hi hk hlt', weightAt_below lo hi hk (below _ _ hl),
      weightAt_below lo hi hk (below _ _ hr), he]

/-- So many merges keep the forest's weight, and every node they make weighs what its children do. -/
theorem mergeLoop_weights (n : Nat) : ∀ {a a' : Arena}, Forest a → a.k.toNat + n ≤ 255 →
    liveWeight a ≤ a.maxInput → SumsExact a a.k.toNat → mergeLoop n a = some a' →
    liveWeight a' = liveWeight a ∧ SumsExact a' (a.k.toNat + n) := by
  induction n with
  | zero => intro a a' _ _ _ E h; obtain rfl := Option.some.inj h; exact ⟨rfl, E⟩
  | succ n ih =>
    intro a a' F hk hw E h
    have hk' : a.k.toNat < 255 := by omega
    obtain ⟨lo, hi, hlt, hlo, hhi, hs⟩ := mergeStep_pair F hk'
    have hw1 := liveWeight_mergePair F hk' hlo hhi hlt hw
    have hk1 : (mergePair lo hi a).k.toNat = a.k.toNat + 1 := by rw [k_mergePair, toNat_succ_k hk']
    rw [mergeLoop, hs] at h
    obtain ⟨h1, h2⟩ := ih (mergePair_forest F hk' hlo hhi hlt) (by omega) (by rw [hw1]; exact hw)
      (by rw [hk1]; exact sumsExact_mergePair F hk' hlo hhi hlt hw E) h
    refine ⟨h1.trans hw1, ?_⟩
    rw [hk1, Nat.add_right_comm] at h2
    exact h2

/-- The forest of leaves weighs what the leaves do. -/
theorem liveWeight_initSlots (a : Arena) :
    liveWeight (initSlots a) = ∑ v : Byte, a.weightAt (leafNode v) := by
  have hall : (Finset.univ.filter fun i : Byte => (initSlots a).slotAt i ≠ emptySlot) = Finset.univ := by
    ext i; simp [slotAt_initSlots, leafNode_ne_empty]
  rw [liveWeight, hall]
  refine Finset.sum_congr rfl fun i _ => ?_
  rw [slotAt_initSlots]; rfl

/-- The root weighs as much as the 256 leaves together, and no add on the way to it has wrapped (R118). -/
theorem root_weight {a a' : Arena} (hw : ∑ v : Byte, a.weightAt (leafNode v) ≤ a.maxInput)
    (h : buildArena a = some a') :
    a'.weightAt a'.root = ∑ v : Byte, a.weightAt (leafNode v) ∧ SumsExact a' 255 := by
  obtain ⟨b, h1, F, h3, -⟩ := mergeLoop_spec 255 (initSlots_forest a) (by simp)
  have hk : b.k.toNat = 255 := by simpa using h3
  obtain ⟨hb, E⟩ := mergeLoop_weights 255 (initSlots_forest a) (by simp)
    (by rw [liveWeight_initSlots]; exact hw) (fun n h1 h2 => by simp at h2; omega) h1
  rw [buildArena, h1] at h
  obtain rfl := Option.some.inj h
  have hone : (Finset.univ.filter fun i : Byte => b.slotAt i ≠ emptySlot) = {0} := by
    ext i
    simp only [Finset.mem_filter, Finset.mem_univ, true_and, Finset.mem_singleton]
    exact ⟨only_slot_zero F hk i, fun h => h ▸ F.zero⟩
  rw [liveWeight, hone, Finset.sum_singleton, liveWeight_initSlots] at hb
  refine ⟨by rw [root_takeRoot, weightAt_takeRoot, hb], fun n h1 h2 => ?_⟩
  obtain ⟨l, r, hl, hr, he⟩ := E n h1 (by simpa using h2)
  exact ⟨l, r, by rw [child_takeRoot]; exact hl, by rw [child_takeRoot]; exact hr, by simpa using he⟩

end Sys2Proof.Machine
end

