-- ==== Sys2Proof/Laws/Replay.lean ====
section
/-! SUPPORT. The replay: it accepts exactly the encodings of R81, names the first failing pair (R137), and
rebuilds the builder's tree from the builder's record (R82, R139). -/

namespace Sys2Proof.Machine

theorem getD_mseqList (a : Arena) (j : Nat) : (mseqList a).getD j 0 = a.mseqAt j := by
  rw [List.getD_eq_getElem?_getD, mseqList, Vector.getElem?_toList]; rfl

theorem loIndex_mseqList (a : Arena) (k : Nat) : loIndex (mseqList a) k = a.mseqAt (2 * k) :=
  getD_mseqList a _

theorem hiIndex_mseqList (a : Arena) (k : Nat) : hiIndex (mseqList a) k = a.mseqAt (2 * k + 1) :=
  getD_mseqList a _

theorem mseqList_length (a : Arena) : (mseqList a).length = 510 := by simp [mseqList]

theorem mem_clearedBefore {t : List Byte} {k : Nat} {i : Byte} :
    i ∈ clearedBefore t k ↔ ∃ j, j < k ∧ hiIndex t j = i := by
  simp [clearedBefore]

/-- The empty slots are those the record has cleared so far (`Q_k` of R81). -/
def ClearedAs (t : List Byte) (a : Arena) : Prop :=
  ∀ i, a.slotAt i = emptySlot ↔ i ∈ clearedBefore t a.k.toNat

theorem clearedAs_initSlots (t : List Byte) (a : Arena) : ClearedAs t (initSlots a) := by
  intro i
  rw [slotAt_initSlots]
  simp [leafNode_ne_empty, clearedBefore]

theorem clearedAs_linkPair {t : List Byte} {a : Arena} {lo hi : Byte} (h : ClearedAs t a)
    (hk : a.k.toNat < 255) (hlo : a.slotAt lo ≠ emptySlot) (hi' : hi = hiIndex t a.k.toNat) :
    ClearedAs t (linkPair lo hi a) := by
  intro i
  have step : i ∈ clearedBefore t (a.k.toNat + 1) ↔ i ∈ clearedBefore t a.k.toNat ∨ hi = i := by
    simp only [mem_clearedBefore, hi']
    constructor
    · rintro ⟨j, hj, rfl⟩
      rcases Nat.lt_succ_iff_lt_or_eq.1 hj with h | rfl
      · exact .inl ⟨j, h, rfl⟩
      · exact .inr rfl
    · rintro (⟨j, hj, rfl⟩ | rfl)
      · exact ⟨j, by omega, rfl⟩
      · exact ⟨_, Nat.lt_succ_self _, rfl⟩
  rw [slotAt_linkPair, k_linkPair, toNat_succ_k hk, step, ← h i]
  by_cases h1 : hi = i
  · simp [h1]
  · rw [if_neg h1]
    by_cases h2 : lo = i
    · subst h2; simp [h1, hlo, mergeNode_ne_empty a.k hk]
    · simp [h1, h2]

theorem pairSlotsFull_iff {t : List Byte} {a : Arena} (h : ClearedAs t a) :
    pairSlotsFull t a.k.toNat = true ↔
      a.slotAt (loIndex t a.k.toNat) ≠ emptySlot ∧ a.slotAt (hiIndex t a.k.toNat) ≠ emptySlot := by
  have h1 := h (loIndex t a.k.toNat)
  have h2 := h (hiIndex t a.k.toNat)
  simp only [pairSlotsFull, Bool.and_eq_true, Bool.not_eq_true', List.contains_eq_mem, ne_eq, h1, h2]
  simp

/-- What one pair comes to, by the conditions of R81 (R134, R137). -/
theorem replayPair_spec {t : List Byte} {a : Arena} (ht : t = mseqList a) (h : ClearedAs t a) :
    replayPair a =
      if pairSlotsFull t a.k.toNat = false then .error .malformedEmptySlot
      else if pairOrdered t a.k.toNat = false then .error .malformedPairOrder
      else .ok (linkPair (loIndex t a.k.toNat) (hiIndex t a.k.toNat) a) := by
  have h1 : pairSlotsFull t a.k.toNat = false ↔
      a.slotAt (loIndex t a.k.toNat) = emptySlot ∨ a.slotAt (hiIndex t a.k.toNat) = emptySlot := by
    rw [← Bool.not_eq_true, pairSlotsFull_iff h]; tauto
  have h2 : pairOrdered t a.k.toNat = false ↔ ¬ loIndex t a.k.toNat < hiIndex t a.k.toNat := by
    simp [pairOrdered]
  subst ht
  simp only [h1, h2]
  simp only [replayPair, loIndex_mseqList, hiIndex_mseqList]

theorem replayLoop_add (m n : Nat) : ∀ s : State,
    replayLoop (m + n) s = (replayLoop m s).andThen (replayLoop n) := by
  induction m with
  | zero => intro s; simp [replayLoop, Run.andThen]
  | succ m ih =>
    intro s
    rw [Nat.add_right_comm, replayLoop, replayLoop]
    cases replayStep s <;> simp [Run.andThen, ih]

/-- A stretch of good pairs replays, and leaves everything but `SLOT`, `K` and the children. -/
theorem replayLoop_spec (n : Nat) : ∀ {t : List Byte} {s : State}, t = mseqList s.arena →
    Forest s.arena → ClearedAs t s.arena → s.arena.k.toNat + n ≤ 255 →
    (∀ j, s.arena.k.toNat ≤ j → j < s.arena.k.toNat + n → pairSlotsFull t j = true ∧ pairOrdered t j = true) →
    ∃ a', replayLoop n s = .going { s with arena := a' } ∧ Forest a' ∧ ClearedAs t a' ∧
      a'.k.toNat = s.arena.k.toNat + n ∧ a'.mseq = s.arena.mseq ∧ a'.w = s.arena.w ∧
      a'.total = s.arena.total ∧ a'.tcnt = s.arena.tcnt ∧ a'.root = s.arena.root := by
  induction n with
  | zero =>
    intro t s _ F C _ _
    exact ⟨s.arena, rfl, F, C, rfl, rfl, rfl, rfl, rfl, rfl⟩
  | succ n ih =>
    intro t s ht F C hk hg
    have hk' : s.arena.k.toNat < 255 := by omega
    obtain ⟨g1, g2⟩ := hg s.arena.k.toNat (le_refl _) (by omega)
    have hf := (pairSlotsFull_iff C).1 g1
    have hp : replayStep s = .going
        { s with arena := linkPair (loIndex t s.arena.k.toNat) (hiIndex t s.arena.k.toNat) s.arena } := by
      rw [replayStep, replayPair_spec ht C, g1, g2]; rfl
    have hlt : loIndex t s.arena.k.toNat < hiIndex t s.arena.k.toNat := by
      simpa [pairOrdered] using g2
    have hk1 := toNat_succ_k hk'
    rw [replayLoop, hp]
    obtain ⟨a', h1, h2, h3, h4, h5, h6, h7, h8, h9⟩ :=
      ih (s := { s with arena := linkPair (loIndex t s.arena.k.toNat) (hiIndex t s.arena.k.toNat) s.arena })
        (t := t) ht (linkPair_forest F hk' hf.1 hf.2 hlt)
        (clearedAs_linkPair C hk' hf.1 rfl) (by rw [k_linkPair, hk1]; omega)
        (by intro j h1 h2; rw [k_linkPair, hk1] at h1 h2; exact hg j (by omega) (by omega))
    refine ⟨a', h1, h2, h3, ?_, h5, h6, h7, h8, h9⟩
    rw [h4, k_linkPair, hk1]; omega

theorem wellFormedTree_iff (t : List Byte) : wellFormedTree t = true ↔
    t.length = 510 ∧ ∀ k, k < 255 → pairSlotsFull t k = true ∧ pairOrdered t k = true := by
  simp [wellFormedTree, treeLengthOk, Config.treeBytes, Config.merges]

/-- An accepted encoding replays to a tree (R134, R122). -/
theorem deserReplay_accepted {s : State} (h : wellFormedTree (mseqList s.arena) = true) :
    ∃ a', deserReplay s = .going { s with phase := .deserReplay, arena := a' } ∧ Tree a' ∧ a'.k = 255 ∧
      a'.mseq = s.arena.mseq ∧ a'.w = s.arena.w ∧ a'.total = s.arena.total ∧
      a'.tcnt = s.arena.tcnt := by
  rw [wellFormedTree_iff] at h
  obtain ⟨a', h1, F, -, h4, h5, h6, h7, h8, -⟩ :=
    replayLoop_spec 255 (t := mseqList s.arena) (s := enterReplay s) rfl (initSlots_forest s.arena)
      (clearedAs_initSlots _ _) (by simp [enterReplay]) (by
        intro j _ hj
        simp [enterReplay] at hj
        exact h.2 j hj)
  have hk : a'.k.toNat = 255 := by simpa [enterReplay] using h4
  refine ⟨takeRoot a', ?_, takeRoot_tree F hk, ?_, h5, h6, h7, h8⟩
  · rw [deserReplay, h1]; rfl
  · rw [k_takeRoot]; exact BitVec.eq_of_toNat_eq (by rw [hk]; rfl)

/-- The first failing pair is the one reported, an empty slot before a wrong order (R137). -/
theorem deserReplay_rejected {s : State} {k : Nat} (hk : k < 255)
    (hg : ∀ j, j < k → pairSlotsFull (mseqList s.arena) j = true ∧ pairOrdered (mseqList s.arena) j = true)
    (hb : ¬ (pairSlotsFull (mseqList s.arena) k = true ∧ pairOrdered (mseqList s.arena) k = true)) :
    ∃ a', deserReplay s = .raised
        (if pairSlotsFull (mseqList s.arena) k = false then .malformedEmptySlot else .malformedPairOrder)
        (BitVec.ofNat 16 k) { s with phase := .deserReplay, arena := a' } ∧
      a'.mseq = s.arena.mseq ∧ a'.w = s.arena.w ∧ a'.total = s.arena.total ∧
      a'.tcnt = s.arena.tcnt ∧ a'.root = s.arena.root := by
  obtain ⟨a', h1, F, C, h4, h5, h6, h7, h8, h9⟩ :=
    replayLoop_spec k (t := mseqList s.arena) (s := enterReplay s) rfl (initSlots_forest s.arena)
      (clearedAs_initSlots _ _) (by simp [enterReplay]; omega) (by
        intro j _ hj
        simp [enterReplay] at hj
        exact hg j hj)
  have hk' : a'.k.toNat = k := by simpa [enterReplay] using h4
  have ht : mseqList s.arena = mseqList a' := by rw [mseqList, mseqList, h5]; rfl
  refine ⟨a', ?_, h5, h6, h7, h8, h9⟩
  have hsplit : Config.merges = k + ((254 - k) + 1) := by simp only [Config.merges]; omega
  rw [deserReplay, hsplit, replayLoop_add, h1]
  have hstep := replayPair_spec ht C
  rw [hk'] at hstep
  have hinfo : a'.k.setWidth 16 = BitVec.ofNat 16 k := by
    apply BitVec.eq_of_toNat_eq
    rw [BitVec.toNat_setWidth, BitVec.toNat_ofNat, hk']
  by_cases g1 : pairSlotsFull (mseqList s.arena) k = false
  · simp only [g1, if_true] at hstep ⊢
    simp only [Run.andThen, replayLoop, replayStep, hstep, hinfo]
    rfl
  · have g2 : pairOrdered (mseqList s.arena) k = false := by
      rw [Bool.not_eq_false] at g1
      rw [← Bool.not_eq_true]
      exact fun g => hb ⟨g1, g⟩
    simp only [g1, g2, if_true] at hstep ⊢
    simp only [Run.andThen, replayLoop, replayStep, hstep, hinfo]
    rfl

/-! ### The builder's record -/

/-- Every pair the builder records passes the three conditions (R82). -/
theorem record_good (n : Nat) : ∀ {a f : Arena}, Forest a → a.k.toNat + n = 255 →
    mergeLoop n a = some f → ClearedAs (mseqList f) a →
    ∀ j, a.k.toNat ≤ j → j < 255 →
      pairSlotsFull (mseqList f) j = true ∧ pairOrdered (mseqList f) j = true := by
  induction n with
  | zero => intro a f _ hk _ _ j h1 h2; omega
  | succ n ih =>
    intro a f F hk h C j h1 h2
    have hk' : a.k.toNat < 255 := by omega
    have hk1 := toNat_succ_k hk'
    obtain ⟨lo, hi, hlt, hlo, hhi, hs⟩ := mergeStep_pair F hk'
    have F' := mergePair_forest F hk' hlo hhi hlt
    rw [mergeLoop, hs] at h
    obtain ⟨f', g1, -, -, -, -, -, -, g7, -⟩ := mergeLoop_spec n F' (by rw [k_mergePair, hk1]; omega)
    obtain rfl : f' = f := Option.some.inj (g1.symm.trans h)
    have elo : loIndex (mseqList f') a.k.toNat = lo := by
      rw [loIndex_mseqList, g7 _ (by rw [k_mergePair, hk1]; omega), mseqAt_mergePair lo hi a _ hk',
        if_neg (by omega), if_pos rfl]
    have ehi : hiIndex (mseqList f') a.k.toNat = hi := by
      rw [hiIndex_mseqList, g7 _ (by rw [k_mergePair, hk1]; omega), mseqAt_mergePair lo hi a _ hk',
        if_pos rfl]
    by_cases hj : j = a.k.toNat
    · subst hj
      rw [pairSlotsFull_iff C, elo, ehi, pairOrdered, elo, ehi]
      exact ⟨⟨hlo, hhi⟩, by simpa using hlt⟩
    · refine ih F' (by rw [k_mergePair, hk1]; omega) h ?_ j (by rw [k_mergePair, hk1]; omega) h2
      have := clearedAs_linkPair C hk' hlo ehi.symm
      intro i
      rw [slotAt_mergePair, this i, k_mergePair, k_linkPair]

/-- BUILD's record is an accepted encoding (R82). -/
theorem build_record_accepted {a a' : Arena} (h : buildArena a = some a') :
    wellFormedTree (mseqList a') = true := by
  obtain ⟨b, h1, -⟩ := mergeLoop_spec 255 (initSlots_forest a) (by simp)
  rw [buildArena, h1] at h
  obtain rfl := Option.some.inj h
  rw [wellFormedTree_iff]
  refine ⟨mseqList_length _, fun k hk => ?_⟩
  exact record_good 255 (initSlots_forest a) (by simp) h1 (clearedAs_initSlots _ _) k
    (by simp) hk

/-- Replaying the builder's pairs beside it makes the same slots and children. -/
theorem replay_follows_build (n : Nat) : ∀ {a f : Arena} {s : State}, Forest a → a.k.toNat + n = 255 →
    mergeLoop n a = some f → s.arena.k = a.k → s.arena.mseq = f.mseq →
    (∀ i, s.arena.slotAt i = a.slotAt i) →
    (∀ m : NodeIdx, m.toNat < 256 + a.k.toNat → ∀ b, s.arena.child m b = a.child m b) →
    ∃ g, replayLoop n s = .going { s with arena := g } ∧ (∀ i, g.slotAt i = f.slotAt i) ∧
      (∀ m : NodeIdx, m.toNat < 511 → ∀ b, g.child m b = f.child m b) := by
  induction n with
  | zero =>
    intro a f s _ hk h _ _ hs hc
    obtain rfl := Option.some.inj h
    exact ⟨s.arena, rfl, hs, fun m hm => hc m (by omega)⟩
  | succ n ih =>
    intro a f s F hk h hsk hm hs hc
    have hk' : a.k.toNat < 255 := by omega
    have hk1 := toNat_succ_k hk'
    obtain ⟨lo, hi, hlt, hlo, hhi, hst⟩ := mergeStep_pair F hk'
    have F' := mergePair_forest F hk' hlo hhi hlt
    rw [mergeLoop, hst] at h
    obtain ⟨f', g1, -, -, -, -, -, -, g7, -⟩ := mergeLoop_spec n F' (by rw [k_mergePair, hk1]; omega)
    obtain rfl : f' = f := Option.some.inj (g1.symm.trans h)
    have em : ∀ j, s.arena.mseqAt j = f'.mseqAt j := by intro j; rw [Arena.mseqAt, hm]; rfl
    have elo : s.arena.mseqAt (2 * s.arena.k.toNat) = lo := by
      rw [em, hsk, g7 _ (by rw [k_mergePair, hk1]; omega), mseqAt_mergePair lo hi a _ hk',
        if_neg (by omega), if_pos rfl]
    have ehi : s.arena.mseqAt (2 * s.arena.k.toNat + 1) = hi := by
      rw [em, hsk, g7 _ (by rw [k_mergePair, hk1]; omega), mseqAt_mergePair lo hi a _ hk', if_pos rfl]
    have hlo' : s.arena.slotAt lo ≠ emptySlot := by rw [hs]; exact hlo
    have hhi' : s.arena.slotAt hi ≠ emptySlot := by rw [hs]; exact hhi
    have hp : replayStep s = .going { s with arena := linkPair lo hi s.arena } := by
      have : replayPair s.arena = .ok (linkPair lo hi s.arena) := by
        simp only [replayPair, elo, ehi, hlo', hhi', or_self, if_false, hlt, not_true_eq_false]
      rw [replayStep, this]
    rw [replayLoop, hp]
    refine ih F' (by rw [k_mergePair, hk1]; omega) h ?_ hm ?_ ?_
    · show s.arena.k + 1 = a.k + 1
      rw [hsk]
    · intro i
      rw [slotAt_mergePair]
      simp only [slotAt_linkPair, hs, hsk]
    · intro m hmk b
      rw [k_mergePair, hk1] at hmk
      rw [child_mergePair, child_linkPair lo hi a m b hk' hlo hhi]
      show (linkPair lo hi s.arena).child m b = _
      rw [child_linkPair lo hi s.arena m b (by rw [hsk]; exact hk') hlo' hhi', hsk, hs]
      split
      · rfl
      · next hne =>
        rw [mergeNode_lt_iff hk'] at hne
        exact hc m (by omega) b

/-- In a finished tree equal children are equal `LEFT` and `RIGHT`. -/
theorem children_ext {a a' : Arena} (T : Tree a)
    (hc : ∀ m : NodeIdx, m.toNat < 511 → ∀ b, a'.child m b = a.child m b) :
    a'.left = a.left ∧ a'.right = a.right := by
  have key : ∀ (b : Bool) j, (hj : j < 255) →
      (if b then a'.right else a'.left)[j] = (if b then a.right else a.left)[j] := by
    intro b j hj
    have hn : (BitVec.ofNat 9 (256 + j)).toNat = 256 + j := by
      rw [BitVec.toNat_ofNat]; omega
    obtain ⟨m, hm, -⟩ := T.ordered (BitVec.ofNat 9 (256 + j)) (by omega) (by omega) b
    have hm' := hc (BitVec.ofNat 9 (256 + j)) (by omega) b
    rw [hm] at hm'
    have val : ∀ c : Arena, c.child (BitVec.ofNat 9 (256 + j)) b = some m →
        (if b then c.right else c.left)[j] = m := by
      intro c h
      have hl : isLeaf (BitVec.ofNat 9 (256 + j)) = false := by
        rw [Bool.eq_false_iff, ne_eq, isLeaf_iff]; omega
      have hidx : (BitVec.ofNat 9 (256 + j)).toNat - Config.alphabet = j := by
        rw [hn]; simp only [Config.alphabet]; omega
      simp only [Arena.child, hl, hidx] at h
      rw [Vector.getElem?_eq_getElem hj] at h
      cases b <;> simp only [Bool.false_eq_true, if_false, if_true] at h ⊢ <;> split at h <;> simp_all
    rw [val a' hm', val a hm]
  constructor
  · exact Vector.ext fun j hj => by simpa using key false j hj
  · exact Vector.ext fun j hj => by simpa using key true j hj

/-- The round trip (R139): replaying BUILD's record anywhere rebuilds `LEFT`, `RIGHT` and `ROOT`. -/
theorem replay_build {a a' : Arena} {s : State} (h : buildArena a = some a')
    (hm : s.arena.mseq = a'.mseq) :
    ∃ g, deserReplay s = .going { s with phase := .deserReplay, arena := g } ∧
      g.left = a'.left ∧ g.right = a'.right ∧ g.root = a'.root := by
  obtain ⟨b, h1, F, h3, -⟩ := mergeLoop_spec 255 (initSlots_forest a) (by simp)
  have hk : b.k.toNat = 255 := by simpa using h3
  rw [buildArena, h1] at h
  obtain rfl := Option.some.inj h
  obtain ⟨g, g1, g2, g3⟩ := replay_follows_build 255 (s := enterReplay s) (initSlots_forest a) (by simp) h1
    rfl hm (by
      intro i
      show (initSlots s.arena).slotAt i = _
      rw [slotAt_initSlots, slotAt_initSlots]) (by
      intro m hm b
      have hm' : m.toNat < 256 := by simpa using hm
      rw [child_leaf _ m b hm', child_leaf _ m b hm'])
  refine ⟨takeRoot g, by rw [deserReplay, g1]; rfl, ?_⟩
  have hc := children_ext (a := takeRoot b) (a' := takeRoot g) (takeRoot_tree F hk) (by
    intro m hm b
    rw [child_takeRoot, child_takeRoot]
    exact g3 m hm b)
  exact ⟨hc.1, hc.2, by rw [root_takeRoot, root_takeRoot, g2]⟩

end Sys2Proof.Machine
end

