-- ==== Sys2Proof/Laws/Phases.lean ====
section
/-! SUPPORT. The phases that read and write streams, one law each: what ACCUMULATE, SERIALIZE and DESER_READ
come to when the host meets its duties (R100, R101, R130, R133). -/

namespace Sys2Proof.Machine

/-! ### ACCUMULATE -/

/-- Every byte counted. -/
def countAll (a : Arena) (xs : List Byte) : Arena := xs.foldl (fun a x => countByte x a) a

@[simp] theorem width_countByte (x : Byte) (a : Arena) :
    (countByte x a).weightWidth = a.weightWidth := rfl

theorem total_countByte (x : Byte) (a : Arena) : (countByte x a).total = a.fit (a.total + 1) := rfl

theorem weightAt_countByte (x : Byte) (a : Arena) (v : Byte) :
    (countByte x a).weightAt (leafNode v) =
      if x = v then a.fit (a.weightAt (leafNode v) + 1) else a.weightAt (leafNode v) := by
  have hx : (leafNode x).toNat < 511 := by rw [leafNode_toNat]; have := x.isLt; omega
  rw [countByte, weightAt_setWeight _ _ _ _ hx]
  by_cases h : x = v
  · subst h; simp [Arena.fit]
  · rw [if_neg (fun e => h (leafNode_inj e)), if_neg h]; rfl

/-- Counting one byte more is exact while the total is below its largest value (R100, R101). -/
theorem countByte_spec {a : Arena} (x : Byte) (ht : a.total < a.maxInput)
    (hw : ∀ v, a.weightAt (leafNode v) ≤ a.total) : (countByte x a).total = a.total + 1 ∧
    ∀ v, (countByte x a).weightAt (leafNode v) = a.weightAt (leafNode v) + if x = v then 1 else 0 := by
  refine ⟨by rw [total_countByte, fit_of_le (by omega)], fun v => ?_⟩
  rw [weightAt_countByte]
  split
  · rw [fit_of_le]; have := hw v; omega
  · rfl

/-- Counting is exact as long as the total fits (R101). -/
theorem countAll_spec (xs : List Byte) : ∀ a : Arena, a.total + xs.length ≤ a.maxInput →
    (∀ v, a.weightAt (leafNode v) ≤ a.total) →
    (countAll a xs).total = a.total + xs.length ∧
    ∀ v, (countAll a xs).weightAt (leafNode v) = a.weightAt (leafNode v) + xs.count v := by
  induction xs with
  | nil => intro a _ _; exact ⟨rfl, fun v => rfl⟩
  | cons x xs ih =>
    intro a h hw
    simp only [List.length_cons] at h
    obtain ⟨ht, hv⟩ := countByte_spec (a := a) x (by omega) hw
    obtain ⟨h1, h2⟩ := ih (countByte x a) (by rw [ht]; exact (by omega : a.total + 1 + xs.length ≤ a.maxInput))
      (by intro v; rw [hv, ht]; have := hw v; split <;> omega)
    refine ⟨by rw [countAll, List.foldl_cons, ← countAll, h1, ht, List.length_cons]; omega, fun v => ?_⟩
    rw [countAll, List.foldl_cons, ← countAll, h2, hv, List.count_cons]
    by_cases hx : x = v <;> simp [hx]; omega

theorem width_countAll (xs : List Byte) : ∀ a : Arena, (countAll a xs).weightWidth = a.weightWidth := by
  induction xs with
  | nil => intro a; rfl
  | cons x xs ih => intro a; exact ih (countByte x a)

@[simp] theorem maxInput_countAll (xs : List Byte) (a : Arena) :
    (countAll a xs).maxInput = a.maxInput := by
  simp only [Arena.maxInput, width_countAll]

@[simp] theorem width_clearWeights (a : Arena) : (clearWeights a).weightWidth = a.weightWidth := by
  simp only [clearWeights]

@[simp] theorem maxInput_clearWeights (a : Arena) : (clearWeights a).maxInput = a.maxInput := by
  simp only [Arena.maxInput, width_clearWeights]

theorem total_clearWeights (a : Arena) : (clearWeights a).total = 0 := rfl

theorem weightAt_clearWeights (a : Arena) (n : NodeIdx) : (clearWeights a).weightAt n =
    if n.toNat < 256 then 0 else a.weightAt n := by
  simp only [Arena.weightAt, clearWeights, getElem?_tabulate, Config.nodes, Config.alphabet]
  by_cases h : n.toNat < 511
  · simp only [h, if_true, Option.getD_some]
  · simp only [h, if_false, Option.getD_none]
    rw [if_neg (by omega), Vector.getElem?_eq_none (by simp only [Config.nodes]; omega)]
    rfl

/-- The counting loop up to any byte of the input that is not refused. -/
theorem accLoop_spec (xs : List Byte) : ∀ (ys : List Byte) (n : Nat) (s : State),
    s.inp.ahead = xs ++ ys → s.arena.total + xs.length ≤ s.arena.maxInput →
    readLoop accByte (xs.length + n) s = readLoop accByte n
      { s with
        arena := countAll s.arena xs
        inp := { s.inp with taken := s.inp.taken ++ xs, ahead := ys }
        trace := readsOf .inStream xs ++ s.trace } := by
  induction xs with
  | nil =>
    intro ys n s h _
    simp only [List.nil_append] at h
    simp [countAll, readsOf, ← h]
  | cons x xs ih =>
    intro ys n s h ht
    simp only [List.length_cons] at ht
    have hr := portRead_cons (p := .inStream) (s := s) (b := x) (rest := xs ++ ys) h
    simp only [portRead] at hr
    rw [List.length_cons, Nat.add_right_comm, readLoop, hr]
    simp only [accByte]
    rw [if_neg (by simp [setPort, note]; omega)]
    simp only [Run.andThen]
    rw [ih ys n]
    · simp [countAll, readsOf_cons, note, setPort, portOf, readEvent]
    · rfl
    · show (countByte x s.arena).total + xs.length ≤ s.arena.maxInput
      rw [total_countByte, fit_of_le (by omega)]
      omega

/-- ACCUMULATE on a whole input that fits (R100, R102). -/
theorem accumulate_spec {s : State} (he : s.inp.ended = true) (hl : s.inp.ahead.length ≤ s.arena.maxInput) :
    accumulate s = .going
      { s with
        phase := .acc
        arena := countAll (clearWeights s.arena) s.inp.ahead
        inp := { taken := s.inp.taken ++ s.inp.ahead, ahead := [], ended := true }
        trace := .inRead none :: (readsOf .inStream s.inp.ahead ++ s.trace) } := by
  rw [accumulate, accLoop_spec s.inp.ahead [] 1 (enterAcc s) (by simp)
    (by simp [total_clearWeights]; exact hl)]
  have hr := portRead_eos (p := .inStream)
    (s := { enterAcc s with
      arena := countAll (enterAcc s).arena s.inp.ahead
      inp := { (enterAcc s).inp with taken := (enterAcc s).inp.taken ++ s.inp.ahead, ahead := [] }
      trace := readsOf .inStream s.inp.ahead ++ (enterAcc s).trace }) rfl he
  simp only [portRead] at hr
  rw [readLoop, hr]
  simp [note, readEvent, enterAcc, he]

/-- What ACCUMULATE counts (R101). -/
theorem countAll_clearWeights {a : Arena} {xs : List Byte} (hl : xs.length ≤ a.maxInput) :
    (countAll (clearWeights a) xs).total = xs.length ∧
    ∀ v, (countAll (clearWeights a) xs).weightAt (leafNode v) = xs.count v := by
  have hz : ∀ v, (clearWeights a).weightAt (leafNode v) = 0 := by
    intro v
    have := v.isLt
    rw [weightAt_clearWeights, if_pos (by rw [leafNode_toNat]; omega)]
  have ht : (clearWeights a).total = 0 := rfl
  obtain ⟨h1, h2⟩ := countAll_spec xs (clearWeights a)
    (by rw [ht, Nat.zero_add, maxInput_clearWeights]; exact hl)
    (fun v => by rw [hz, ht])
  exact ⟨by rw [h1, ht, Nat.zero_add], fun v => by rw [h2, hz, Nat.zero_add]⟩

/-- The counts of the 256 byte values add up to the length (R101). -/
theorem sum_count (xs : List Byte) : ∑ v : Byte, xs.count v = xs.length := by
  induction xs with
  | nil => simp
  | cons x xs ih =>
    simp only [List.count_cons, Finset.sum_add_distrib, ih, List.length_cons]
    simp

/-- An input one byte too long is refused at that byte, before it is counted (R217, R221). -/
theorem accumulate_overflow {s : State} (hl : s.arena.maxInput < s.inp.ahead.length) :
    accumulate s = .raised .weightOverflow 0
      { s with
        phase := .acc
        arena := countAll (clearWeights s.arena) (s.inp.ahead.take s.arena.maxInput)
        inp := { s.inp with
          taken := s.inp.taken ++ s.inp.ahead.take (s.arena.maxInput + 1)
          ahead := s.inp.ahead.drop (s.arena.maxInput + 1) }
        trace := readsOf .inStream (s.inp.ahead.take (s.arena.maxInput + 1)) ++ s.trace } := by
  obtain ⟨x, ys, hx⟩ : ∃ x ys, s.inp.ahead.drop s.arena.maxInput = x :: ys := by
    cases h : s.inp.ahead.drop s.arena.maxInput with
    | nil => have := List.drop_eq_nil_iff.1 h; omega
    | cons x ys => exact ⟨x, ys, rfl⟩
  have hsplit : s.inp.ahead = s.inp.ahead.take s.arena.maxInput ++ x :: ys := by
    rw [← hx, List.take_append_drop]
  have hlen : (s.inp.ahead.take s.arena.maxInput).length = s.arena.maxInput := by
    rw [List.length_take, min_eq_left hl.le]
  have h1 : s.inp.ahead.take (s.arena.maxInput + 1) = s.inp.ahead.take s.arena.maxInput ++ [x] := by
    rw [List.take_add, hx]; rfl
  have h2 : s.inp.ahead.drop (s.arena.maxInput + 1) = ys := by
    rw [← List.drop_drop, hx]; rfl
  have hcount := (countAll_clearWeights (a := s.arena) (xs := s.inp.ahead.take s.arena.maxInput)
    (by omega)).1
  have hn : s.inp.ahead.length + 1 = (s.inp.ahead.take s.arena.maxInput).length +
      ((s.inp.ahead.length - s.arena.maxInput) + 1) := by rw [hlen]; omega
  have hle : ((enterAcc s).arena).total + (s.inp.ahead.take s.arena.maxInput).length ≤
      (enterAcc s).arena.maxInput := by
    rw [hlen, arena_enterAcc, total_clearWeights, maxInput_clearWeights, Nat.zero_add]
  rw [accumulate, hn, accLoop_spec _ (x :: ys) _ (enterAcc s) hsplit hle]
  have hr := portRead_cons (p := .inStream) (b := x) (rest := ys)
    (s := { enterAcc s with
      arena := countAll (enterAcc s).arena (s.inp.ahead.take s.arena.maxInput)
      inp := { (enterAcc s).inp with
        taken := (enterAcc s).inp.taken ++ s.inp.ahead.take s.arena.maxInput, ahead := x :: ys }
      trace := readsOf .inStream (s.inp.ahead.take s.arena.maxInput) ++ (enterAcc s).trace }) rfl
  simp only [portRead] at hr
  rw [readLoop, hr]
  simp only [accByte]
  rw [if_pos (by
    show (countAll (clearWeights s.arena) (s.inp.ahead.take s.arena.maxInput)).total =
      (countAll (clearWeights s.arena) (s.inp.ahead.take s.arena.maxInput)).maxInput
    rw [hcount, hlen, maxInput_countAll, maxInput_clearWeights])]
  rw [h1, h2]
  simp [Run.andThen, note, readEvent, setPort, portOf, enterAcc, readsOf, List.append_assoc]

/-! ### SERIALIZE -/

theorem serLoop_spec (n : Nat) : ∀ s : State, s.outReady = .always → s.serIdx + n = 510 →
    serLoop n s = .going
      { s with
        serIdx := 510
        out := s.out ++ (mseqList s.arena).drop s.serIdx
        trace := writesOf ((mseqList s.arena).drop s.serIdx) ++ s.trace } := by
  induction n with
  | zero =>
    intro s _ h
    have hd : (mseqList s.arena).drop s.serIdx = [] := by
      rw [List.drop_eq_nil_iff, mseqList_length]; omega
    rw [serLoop, hd]
    simp [writesOf, ← h]
  | succ n ih =>
    intro s ho h
    have hlt : s.serIdx < (mseqList s.arena).length := by rw [mseqList_length]; omega
    have hd : (mseqList s.arena).drop s.serIdx =
        s.arena.mseqAt s.serIdx :: (mseqList s.arena).drop (s.serIdx + 1) := by
      rw [List.drop_eq_getElem_cons hlt, ← getD_mseqList, List.getD_eq_getElem _ _ hlt]
    rw [serLoop, serByte, outWrite_always ho]
    simp only [Run.andThen]
    rw [ih _ (by simpa [wrote] using ho) (by show s.serIdx + 1 + n = 510; omega), hd,
      ← List.singleton_append, writesOf_append]
    simp [wrote, note, writesOf]

/-- SERIALIZE writes the 510 bytes of `MSEQ` (R130). -/
theorem serialize_spec {s : State} (ho : s.outReady = .always) : serialize s = .going
    { s with
      phase := .ser
      serIdx := 510
      out := s.out ++ mseqList s.arena
      trace := writesOf (mseqList s.arena) ++ s.trace } := by
  rw [serialize, serLoop_spec 510 (enterSer s) ho rfl]
  simp [enterSer]

/-! ### DESER_READ -/

@[simp] theorem portOf_setPort (p : StreamSel) (q : InPort) (s : State) : portOf p (setPort p q s) = q := by
  cases p <;> rfl

@[simp] theorem portOf_note (p : StreamSel) (e : PortEvent) (s : State) : portOf p (note e s) = portOf p s := by
  cases p <;> rfl

@[simp] theorem portOf_arena (p : StreamSel) (a : Arena) (s : State) :
    portOf p { s with arena := a } = portOf p s := by
  cases p <;> rfl

/-- Bytes stored one after another from `TCNT` on. -/
def storeAll (a : Arena) (xs : List Byte) : Arena := xs.foldl (fun a x => storeTreeByte x a) a

theorem storeAll_spec (xs : List Byte) : ∀ a : Arena, a.tcnt.toNat + xs.length ≤ 510 →
    (storeAll a xs).tcnt.toNat = a.tcnt.toNat + xs.length ∧
    mseqList (storeAll a xs) = (mseqList a).take a.tcnt.toNat ++ xs ++
      (mseqList a).drop (a.tcnt.toNat + xs.length) ∧
    (storeAll a xs).w = a.w ∧ (storeAll a xs).total = a.total ∧ (storeAll a xs).root = a.root := by
  induction xs with
  | nil => intro a _; simp [storeAll]
  | cons x xs ih =>
    intro a h
    simp only [List.length_cons] at h
    have ht : (storeTreeByte x a).tcnt.toNat = a.tcnt.toNat + 1 := by
      have e : (1 : BitVec 10).toNat = 1 := rfl
      show (a.tcnt + 1).toNat = _
      rw [BitVec.toNat_add, e]; omega
    have hm : mseqList (storeTreeByte x a) = (mseqList a).set a.tcnt.toNat x := by
      simp only [mseqList, storeTreeByte, Arena.setMseq, Vector.toList_setIfInBounds]
    obtain ⟨h1, h2, h3, h4, h5⟩ := ih (storeTreeByte x a) (by omega)
    have hl := mseqList_length a
    refine ⟨?_, ?_, h3, h4, h5⟩
    · rw [storeAll, List.foldl_cons, ← storeAll, h1, ht, List.length_cons]; omega
    · rw [storeAll, List.foldl_cons, ← storeAll, h2, ht, hm]
      have e1 : ((mseqList a).set a.tcnt.toNat x).take (a.tcnt.toNat + 1) =
          (mseqList a).take a.tcnt.toNat ++ [x] := by
        rw [List.set_eq_take_append_cons_drop, if_pos (by omega), List.take_append]
        simp [hl, Nat.min_eq_left (by omega : a.tcnt.toNat ≤ 510), List.take_take]
      have e2 : ((mseqList a).set a.tcnt.toNat x).drop (a.tcnt.toNat + 1 + xs.length) =
          (mseqList a).drop (a.tcnt.toNat + 1 + xs.length) := by
        rw [List.drop_set_of_lt (by omega)]
      rw [e1, e2, List.length_cons]
      simp [Nat.add_assoc, Nat.add_comm 1]

/-- A stretch of DESER_READ for which the port has the bytes. -/
theorem deserReadLoop_spec (p : StreamSel) (xs : List Byte) : ∀ (ys : List Byte) (n : Nat) (s : State),
    (portOf p s).ahead = xs ++ ys →
    deserReadLoop p (xs.length + n) s = deserReadLoop p n
      { setPort p { portOf p s with taken := (portOf p s).taken ++ xs, ahead := ys } s with
        arena := storeAll s.arena xs
        trace := readsOf p xs ++ s.trace } := by
  induction xs with
  | nil =>
    intro ys n s h
    simp only [List.nil_append] at h
    cases p <;> simp [storeAll, readsOf, setPort, portOf] <;> simp only [portOf] at h <;> rw [← h]
  | cons x xs ih =>
    intro ys n s h
    rw [List.length_cons, Nat.add_right_comm, deserReadLoop, deserReadByte, portRead_cons h]
    simp only [Run.andThen]
    rw [ih ys n _ (by cases p <;> rfl)]
    cases p <;> simp [storeAll, readsOf_cons, setPort, portOf, note]

/-- DESER_READ on a port with 510 bytes or more takes exactly 510 (R133, R138). -/
theorem deserRead_spec {p : StreamSel} {s : State} (h : 510 ≤ (portOf p s).ahead.length) :
    ∃ a, deserRead p s = .going
      { setPort p
          { portOf p s with
            taken := (portOf p s).taken ++ (portOf p s).ahead.take 510
            ahead := (portOf p s).ahead.drop 510 } s with
        phase := .deserRead
        arena := a
        trace := readsOf p ((portOf p s).ahead.take 510) ++ s.trace } ∧
      mseqList a = (portOf p s).ahead.take 510 ∧ a.tcnt = 510 ∧ a.w = s.arena.w ∧
      a.total = s.arena.total := by
  have hlen : ((portOf p s).ahead.take 510).length = 510 := by rw [List.length_take, min_eq_left h]
  have hpo : portOf p (enterDeserRead s) = portOf p s := by cases p <;> rfl
  obtain ⟨h1, h2, h3, h4, -⟩ := storeAll_spec ((portOf p s).ahead.take 510) (enterDeserRead s).arena
    (by rw [hlen]; simp)
  refine ⟨storeAll (enterDeserRead s).arena ((portOf p s).ahead.take 510), ?_, ?_, ?_, h3, h4⟩
  · have := deserReadLoop_spec p ((portOf p s).ahead.take 510) ((portOf p s).ahead.drop 510) 0
      (enterDeserRead s) (by rw [hpo, List.take_append_drop])
    rw [hlen] at this
    rw [deserRead, Config.treeBytes, this]
    cases p <;> rfl
  · have hz : ((0 : BitVec 10)).toNat = 0 := rfl
    rw [h2, hlen]
    simp only [arena_enterDeserRead, hz, List.take_zero, List.nil_append, Nat.zero_add]
    rw [List.drop_eq_nil_of_le (by rw [mseqList_length]), List.append_nil]
  · apply BitVec.eq_of_toNat_eq
    rw [h1, hlen]; rfl

/-- DESER_READ on a port that ends too soon raises `TRUNCATED_TREE` with the count (R133, R213). -/
theorem deserRead_truncated {p : StreamSel} {s : State} (h : (portOf p s).ahead.length < 510)
    (he : (portOf p s).ended = true) :
    ∃ a, deserRead p s = .raised .truncatedTree (BitVec.ofNat 16 (portOf p s).ahead.length)
      { setPort p
          { portOf p s with taken := (portOf p s).taken ++ (portOf p s).ahead, ahead := [] } s with
        phase := .deserRead
        arena := a
        trace := readEvent p none :: (readsOf p (portOf p s).ahead ++ s.trace) } ∧
      a.w = s.arena.w ∧ a.total = s.arena.total := by
  have hpo : portOf p (enterDeserRead s) = portOf p s := by cases p <;> rfl
  obtain ⟨h1, -, h3, h4, -⟩ := storeAll_spec (portOf p s).ahead (enterDeserRead s).arena
    (by simp; omega)
  refine ⟨storeAll (enterDeserRead s).arena (portOf p s).ahead, ?_, h3, h4⟩
  have hn : Config.treeBytes = (portOf p s).ahead.length + ((509 - (portOf p s).ahead.length) + 1) := by
    simp only [Config.treeBytes]; omega
  have := deserReadLoop_spec p (portOf p s).ahead [] ((509 - (portOf p s).ahead.length) + 1)
    (enterDeserRead s) (by rw [hpo, List.append_nil])
  rw [deserRead, hn, this, deserReadLoop, deserReadByte, portRead_eos (by cases p <;> rfl)
    (by cases p <;> exact he)]
  have hi : (storeAll (enterDeserRead s).arena (portOf p s).ahead).tcnt.setWidth 16 =
      BitVec.ofNat 16 (portOf p s).ahead.length := by
    apply BitVec.eq_of_toNat_eq
    rw [BitVec.toNat_setWidth, BitVec.toNat_ofNat, h1]
    simp
  simp only [Run.andThen, arena_note, hi]
  cases p <;> rfl

end Sys2Proof.Machine
end

