-- ==== Sys2Proof/Laws/Alike.lean ====
section
/-! SUPPORT. What depends on what: BUILD on the 256 leaf weights alone (R119), paths, codes and decoded
symbols on the children and the root alone (R150, R180). -/

namespace Sys2Proof.Machine

/-- Two arenas of one width that agree on everything the merges so far have written, and on the leaf weights. -/
structure Alike (a a' : Arena) : Prop where
  width : a'.weightWidth = a.weightWidth
  k_eq : a'.k = a.k
  slots : ∀ i, a'.slotAt i = a.slotAt i
  weights : ∀ n : NodeIdx, n.toNat < 256 + a.k.toNat → a'.weightAt n = a.weightAt n
  record : ∀ j, j < 2 * a.k.toNat → a'.mseqAt j = a.mseqAt j
  kids : ∀ m : NodeIdx, m.toNat < 256 + a.k.toNat → ∀ b, a'.child m b = a.child m b

/-- SelectMin finds the same slot in two arenas that are alike (R112, R119). -/
theorem selectMin_alike {a a' : Arena} (F : Forest a) (L : Alike a a') (excl : Option Byte) :
    selectMin a' excl = selectMin a excl := by
  have key : ∀ (l : List Byte) (best : Option Byte), (∀ i, best = some i → a.slotAt i ≠ emptySlot) →
      l.foldl (selectStep a' excl) best = l.foldl (selectStep a excl) best := by
    intro l
    induction l with
    | nil => intro best _; rfl
    | cons x l ih =>
      intro best hb
      have hstep : selectStep a' excl best x = selectStep a excl best x := by
        unfold selectStep
        rw [L.slots]
        by_cases he : a.slotAt x = emptySlot ∨ excl = some x
        · rw [if_pos he, if_pos he]
        · rw [if_neg he, if_neg he]
          cases best with
          | none => rfl
          | some i =>
            simp only [L.slots]
            rw [L.weights _ (F.below x (fun h => he (.inl h))), L.weights _ (F.below i (hb i rfl))]
      rw [List.foldl_cons, List.foldl_cons, hstep]
      apply ih
      intro i hi
      unfold selectStep at hi
      split at hi
      · exact hb i hi
      · next he =>
        split at hi
        · cases hi; exact fun h => he (.inl h)
        · split at hi
          · cases hi; exact fun h => he (.inl h)
          · exact hb i hi
  exact key allBytes none (by simp)

/-- A merge of the same pair keeps two arenas alike (R113 to R116). -/
theorem mergePair_alike {a a' : Arena} {lo hi : Byte} (F : Forest a) (hk : a.k.toNat < 255)
    (hlo : a.slotAt lo ≠ emptySlot) (hhi : a.slotAt hi ≠ emptySlot) (L : Alike a a') :
    Alike (mergePair lo hi a) (mergePair lo hi a') := by
  have hk' : a'.k.toNat < 255 := by rw [L.k_eq]; exact hk
  have hk1 := toNat_succ_k hk
  refine ⟨L.width, ?_, ?_, ?_, ?_, ?_⟩
  · rw [k_mergePair, k_mergePair, L.k_eq]
  · intro i
    simp only [slotAt_mergePair, slotAt_linkPair, L.slots, L.k_eq]
  · intro n hn
    rw [k_mergePair, hk1] at hn
    rw [weightAt_mergePair _ _ _ _ hk', weightAt_mergePair _ _ _ _ hk, L.k_eq, L.slots, L.slots,
      L.weights _ (F.below _ hlo), L.weights _ (F.below _ hhi), Arena.fit, Arena.fit, L.width]
    split
    · rfl
    · next h => rw [mergeNode_lt_iff hk] at h; exact L.weights n (by omega)
  · intro j hj
    rw [k_mergePair, hk1] at hj
    rw [mseqAt_mergePair _ _ _ _ hk', mseqAt_mergePair _ _ _ _ hk, L.k_eq]
    split
    · rfl
    · split
      · rfl
      · exact L.record j (by omega)
  · intro m hm b
    rw [k_mergePair, hk1] at hm
    rw [child_mergePair, child_mergePair,
      child_linkPair _ _ _ _ _ hk' (by rw [L.slots]; exact hlo) (by rw [L.slots]; exact hhi),
      child_linkPair _ _ _ _ _ hk hlo hhi, L.k_eq, L.slots]
    split
    · rfl
    · next h => rw [mergeNode_lt_iff hk] at h; exact L.kids m (by omega) b

/-- So many merges keep two arenas alike. -/
theorem mergeLoop_alike (n : Nat) : ∀ {a a' b : Arena}, Forest a → a.k.toNat + n ≤ 255 → Alike a a' →
    mergeLoop n a = some b → ∃ b', mergeLoop n a' = some b' ∧ Alike b b' := by
  induction n with
  | zero => intro a a' b _ _ L h; obtain rfl := Option.some.inj h; exact ⟨a', rfl, L⟩
  | succ n ih =>
    intro a a' b F hk L h
    have hk' : a.k.toNat < 255 := by omega
    obtain ⟨i1, i2, h1, h2, hne, h3, h4, h5⟩ := mergeStep_spec F hk'
    have g : mergeStep a' = some (mergePair (minByte i1 i2) (maxByte i1 i2) a') := by
      simp only [mergeStep, selectMin_alike F L, h1, h2]
    have hlo : a.slotAt (minByte i1 i2) ≠ emptySlot := by unfold minByte; split <;> assumption
    have hhi : a.slotAt (maxByte i1 i2) ≠ emptySlot := by unfold maxByte; split <;> assumption
    rw [mergeLoop, h5] at h
    rw [mergeLoop, g]
    exact ih (mergePair_forest F hk' hlo hhi (minByte_lt_maxByte hne))
      (by rw [k_mergePair, toNat_succ_k hk']; omega)
      (mergePair_alike F hk' hlo hhi L) h

/-- Two arenas with the same leaf weights are alike where BUILD begins. -/
theorem initSlots_alike {a a' : Arena} (hw : a'.weightWidth = a.weightWidth)
    (h : ∀ v, a.weightAt (leafNode v) = a'.weightAt (leafNode v)) :
    Alike (initSlots a) (initSlots a') := by
  refine ⟨hw, rfl, fun i => by rw [slotAt_initSlots, slotAt_initSlots], ?_, ?_, ?_⟩
  · intro n hn
    have hn' : n.toNat < 256 := by simpa using hn
    have := (h (leafByte n)).symm
    rw [leafNode_leafByte n hn'] at this
    exact this
  · intro j hj; simp at hj
  · intro m hm b
    have hm' : m.toNat < 256 := by simpa using hm
    rw [child_leaf _ m b hm', child_leaf _ m b hm']

/-- BUILD gives the same tree, record and weights from the same leaf weights (R119). -/
theorem buildArena_alike {a a' : Arena} (hw : a'.weightWidth = a.weightWidth)
    (h : ∀ v, a.weightAt (leafNode v) = a'.weightAt (leafNode v)) :
    ∃ b b', buildArena a = some b ∧ buildArena a' = some b' ∧ b.mseq = b'.mseq ∧ b.left = b'.left ∧
      b.right = b'.right ∧ b.root = b'.root ∧ b.w = b'.w := by
  obtain ⟨c, h1, F, h3, -⟩ := mergeLoop_spec 255 (initSlots_forest a) (by simp)
  have hk : c.k.toNat = 255 := by simpa using h3
  obtain ⟨c', h1', L⟩ := mergeLoop_alike 255 (initSlots_forest a) (by simp) (initSlots_alike hw h) h1
  have hc := children_ext (a := takeRoot c) (a' := takeRoot c') (takeRoot_tree F hk) (by
    intro m hm b; rw [child_takeRoot, child_takeRoot]; exact L.kids m (by omega) b)
  refine ⟨takeRoot c, takeRoot c', by rw [buildArena, h1]; rfl, by rw [buildArena, h1']; rfl, ?_,
    hc.1.symm, hc.2.symm, ?_, ?_⟩
  · refine Vector.ext fun j hj => ?_
    have hj : j < 510 := hj
    have := (L.record j (by omega)).symm
    simp only [Arena.mseqAt] at this
    rw [Vector.getElem?_eq_getElem hj, Vector.getElem?_eq_getElem hj] at this
    exact this
  · rw [root_takeRoot, root_takeRoot, L.slots]
  · refine Vector.ext fun j hj => ?_
    have hj : j < 511 := hj
    have hn : (BitVec.ofNat 9 j).toNat = j := by rw [BitVec.toNat_ofNat]; omega
    have := (L.weights (BitVec.ofNat 9 j) (by omega)).symm
    simp only [Arena.weightAt, hn] at this
    rw [Vector.getElem?_eq_getElem hj, Vector.getElem?_eq_getElem hj] at this
    exact this

/-- Paths depend on the children alone. -/
theorem follow_ext {a a' : Arena} (hl : a'.left = a.left) (hr : a'.right = a.right) (p : BitString) :
    ∀ n, follow a' n p = follow a n p := by
  have hc : ∀ n b, a'.child n b = a.child n b := by intro n b; simp only [Arena.child, hl, hr]
  induction p with
  | nil => intro n; rfl
  | cons b p ih => intro n; simp only [follow, hc, ih]

/-- What UNPACK reads depends on the children and the root alone. -/
theorem symbols_ext {a a' : Arena} (hl : a'.left = a.left) (hr : a'.right = a.right) (ht : a'.root = a.root)
    (p : BitString) : ∀ n, symbols a' n p = symbols a n p := by
  have hc : ∀ n b, a'.child n b = a.child n b := by intro n b; simp only [Arena.child, hl, hr]
  induction p with
  | nil => intro n; rfl
  | cons b p ih => intro n; simp only [symbols, hc, ih, ht]

/-- Two trees with the same children and root have the same code table (R150). -/
theorem table_ext {a a' : Arena} {t t' : CodeTable} (T : Tree a) (C : CodesOf a t) (C' : CodesOf a' t')
    (hl : a'.left = a.left) (hr : a'.right = a.right) (ht : a'.root = a.root) : t' = t := by
  have hcode : ∀ v, t'.codeAt v = t.codeAt v := fun v => by
    have h := (C' v).1
    rw [follow_ext hl hr, ht] at h
    exact T.once v _ _ h (C v).1
  have hlen : ∀ v, t'.lenAt v = t.lenAt v := fun v => BitVec.eq_of_toNat_eq (by
    rw [(C' v).2.1, (C v).2.1, hcode])
  have : t'.code = t.code := Vector.ext fun j hj => by
    have hj : j < 256 := hj
    have := hcode (BitVec.ofNat 8 j)
    simp only [CodeTable.codeAt, BitVec.toNat_ofNat, Nat.mod_eq_of_lt hj] at this
    exact this
  have h2 : t'.len = t.len := Vector.ext fun j hj => by
    have hj : j < 256 := hj
    have := hlen (BitVec.ofNat 8 j)
    simp only [CodeTable.lenAt, BitVec.toNat_ofNat, Nat.mod_eq_of_lt hj] at this
    exact this
  cases t; cases t'; simp_all

/-- Inputs with the same bytes, in any order, have the same leaf weights (R101). -/
theorem leafCounts_perm {a a' : Arena} {xs ys : List Byte} (hw : a'.weightWidth = a.weightWidth)
    (hl : xs.length ≤ a.maxInput) (hp : xs.Perm ys) :
    ∀ v, (countAll (clearWeights a) xs).weightAt (leafNode v) =
      (countAll (clearWeights a') ys).weightAt (leafNode v) := by
  intro v
  rw [(countAll_clearWeights hl).2,
    (countAll_clearWeights (by rw [← hp.length_eq, Arena.maxInput, hw]; exact hl)).2, hp.count_eq]

end Sys2Proof.Machine
end

