-- ==== Sys2Proof/Laws/Payload.lean ====
section
/-! SUPPORT. The payload: PACK and PAD write it as R84 says, UNPACK reads it as R183 says, and the second
undoes the first (R164, R185). -/

namespace Sys2Proof.Machine

/-! ### Packing bits -/

theorem packBits_cons8 (x y : BitString) (h : x.length = 8) :
    packBits (x ++ y) = pack8 x :: packBits y := by
  match x, h with
  | [a, b, c, d, e, f, g, i], _ => rfl

theorem packBits_short {x : BitString} (h : x.length < 8) : packBits x = [] := by
  match x, h with
  | [], _ => rfl
  | [_], _ => rfl
  | [_, _], _ => rfl
  | [_, _, _], _ => rfl
  | [_, _, _, _], _ => rfl
  | [_, _, _, _, _], _ => rfl
  | [_, _, _, _, _, _], _ => rfl
  | [_, _, _, _, _, _, _], _ => rfl

theorem take_drop_8 {x : BitString} {n : Nat} (h : x.length = 8 * (n + 1)) :
    ∃ y z, x = y ++ z ∧ y.length = 8 ∧ z.length = 8 * n :=
  ⟨x.take 8, x.drop 8, (List.take_append_drop 8 x).symm, by simp; omega, by simp; omega⟩

theorem packBits_append (n : Nat) : ∀ {x : BitString} (_ : x.length = 8 * n) (y : BitString),
    packBits (x ++ y) = packBits x ++ packBits y := by
  induction n with
  | zero =>
    intro x h y
    obtain rfl := List.eq_nil_of_length_eq_zero (by omega : x.length = 0)
    rfl
  | succ n ih =>
    intro x h y
    obtain ⟨u, v, rfl, hu, hv⟩ := take_drop_8 h
    rw [List.append_assoc, packBits_cons8 _ _ hu, packBits_cons8 _ _ hu, ih hv, List.cons_append]

theorem packBits_length (n : Nat) : ∀ {x : BitString}, x.length = 8 * n → (packBits x).length = n := by
  induction n with
  | zero =>
    intro x h
    rw [packBits_short (by omega)]; rfl
  | succ n ih =>
    intro x h
    obtain ⟨u, v, rfl, hu, hv⟩ := take_drop_8 h
    rw [packBits_cons8 _ _ hu, List.length_cons, ih hv]

/-- Full groups of 8 come back out of their bytes (R10, R162). -/
theorem flatMap_bits8_packBits (n : Nat) : ∀ {x : BitString}, x.length = 8 * n →
    (packBits x).flatMap bits8 = x := by
  induction n with
  | zero =>
    intro x h
    obtain rfl := List.eq_nil_of_length_eq_zero (by omega : x.length = 0)
    rfl
  | succ n ih =>
    intro x h
    obtain ⟨u, v, rfl, hu, hv⟩ := take_drop_8 h
    rw [packBits_cons8 _ _ hu, List.flatMap_cons, ih hv, bits8_pack8 _ hu]

/-- The bits of a bit-string that fill no whole byte. -/
def leftover (x : BitString) : BitString := x.drop (8 * (x.length / 8))

theorem leftover_length (x : BitString) : (leftover x).length = x.length % 8 := by
  simp only [leftover, List.length_drop]; omega

theorem take_append_leftover (x : BitString) : x.take (8 * (x.length / 8)) ++ leftover x = x :=
  List.take_append_drop _ _

theorem packBits_take (x : BitString) : packBits (x.take (8 * (x.length / 8))) = packBits x := by
  have h1 : (x.take (8 * (x.length / 8))).length = 8 * (x.length / 8) := by
    rw [List.length_take]; omega
  conv_rhs => rw [← take_append_leftover x]
  rw [packBits_append _ h1, packBits_short (x := leftover x) (by rw [leftover_length]; omega),
    List.append_nil]

theorem packBits_leftover (x y : BitString) : packBits (x ++ y) = packBits x ++ packBits (leftover x ++ y) := by
  have h1 : (x.take (8 * (x.length / 8))).length = 8 * (x.length / 8) := by
    rw [List.length_take]; omega
  conv_lhs => rw [← take_append_leftover x]
  rw [List.append_assoc, packBits_append _ h1, packBits_take]

theorem leftover_append (x y : BitString) : leftover (x ++ y) = leftover (leftover x ++ y) := by
  have h1 : (x.take (8 * (x.length / 8))).length = 8 * (x.length / 8) := by
    rw [List.length_take]; omega
  have hl := leftover_length x
  have e : 8 * ((x ++ y).length / 8) =
      8 * (x.length / 8) + 8 * ((leftover x ++ y).length / 8) := by
    simp only [List.length_append, hl]; omega
  have h2 : (x ++ y).drop (8 * (x.length / 8)) = leftover x ++ y :=
    List.drop_append_of_le_length (by omega)
  rw [leftover, e, ← List.drop_drop, h2]
  rfl

/-! ### PACK -/

theorem emitLoop_spec (n : Nat) : ∀ s : State, s.outReady = .always → 8 * n ≤ s.pbuf.length →
    emitLoop n s = .going
      { s with
        pbuf := s.pbuf.drop (8 * n)
        out := s.out ++ packBits (s.pbuf.take (8 * n))
        trace := writesOf (packBits (s.pbuf.take (8 * n))) ++ s.trace } := by
  induction n with
  | zero => intro s _ _; simp [emitLoop, packBits, writesOf]
  | succ n ih =>
    intro s ho h
    rw [emitLoop, emitByte, outWrite_always ho]
    simp only [Run.andThen]
    rw [ih _ (by simpa [wrote] using ho) (by show 8 * n ≤ (s.pbuf.drop 8).length; simp; omega)]
    have e : s.pbuf.take (8 * (n + 1)) = s.pbuf.take 8 ++ (s.pbuf.drop 8).take (8 * n) := by
      rw [Nat.mul_succ, Nat.add_comm, List.take_add]
    rw [e, packBits_cons8 _ _ (by simp; omega), ← List.singleton_append (l := packBits _), writesOf_append]
    simp [wrote, note, writesOf, Nat.mul_succ, Nat.add_comm]

theorem packByte_spec {s : State} (ho : s.outReady = .always) (x : Byte) : packByte x s = .going
    { s with
      pbuf := leftover (s.pbuf ++ s.table.codeAt x)
      out := s.out ++ packBits (s.pbuf ++ s.table.codeAt x)
      trace := writesOf (packBits (s.pbuf ++ s.table.codeAt x)) ++ s.trace } := by
  rw [packByte, emitLoop_spec _ (appendCode x s) ho (by omega)]
  simp only [pbuf_appendCode, packBits_take]
  rfl

/-- What a stretch of a command adds to the trace. -/
structure Adds (ins : List (Option Byte)) (outs : List Byte) (tr : List PortEvent) : Prop where
  ins_eq : inReads tr = ins
  trees_eq : treeReads tr = []
  rewinds_eq : rewinds tr = 0
  outs_eq : outBytes tr = outs

theorem adds_append {i1 i2 : List (Option Byte)} {o1 o2 : List Byte} {t1 t2 : List PortEvent}
    (h1 : Adds i1 o1 t1) (h2 : Adds i2 o2 t2) : Adds (i1 ++ i2) (o1 ++ o2) (t2 ++ t1) where
  ins_eq := by rw [inReads_append, h1.ins_eq, h2.ins_eq]
  trees_eq := by rw [treeReads_append, h1.trees_eq, h2.trees_eq]; rfl
  rewinds_eq := by rw [rewinds_append, h1.rewinds_eq, h2.rewinds_eq]
  outs_eq := by rw [outBytes_append, h1.outs_eq, h2.outs_eq]

theorem adds_writesOf (xs : List Byte) : Adds [] xs (writesOf xs) :=
  ⟨by simp, by simp, by simp, by simp⟩

theorem adds_inRead (r : Option Byte) : Adds [r] [] [.inRead r] := ⟨rfl, rfl, rfl, rfl⟩

theorem adds_readsOf (xs : List Byte) : Adds (xs.map some) [] (readsOf .inStream xs) :=
  ⟨by simp, by simp, by simp, by simp⟩

/-- PACK's loop over a whole input (R160, R161). -/
theorem packLoop_spec (xs : List Byte) : ∀ s : State, s.inp.ahead = xs → s.inp.ended = true →
    s.outReady = .always → s.pbuf.length < 8 →
    ∃ tr, readLoop packByte (xs.length + 1) s = .going
      { s with
        pbuf := leftover (s.pbuf ++ codeBits s.table xs)
        inp := { taken := s.inp.taken ++ xs, ahead := [], ended := true }
        out := s.out ++ packBits (s.pbuf ++ codeBits s.table xs)
        trace := tr ++ s.trace } ∧
      Adds (xs.map some ++ [none]) (packBits (s.pbuf ++ codeBits s.table xs)) tr := by
  induction xs with
  | nil =>
    intro s h he ho hp
    have hr := portRead_eos (p := .inStream) h he
    simp only [portRead] at hr
    refine ⟨[.inRead none], ?_, ?_⟩
    · rw [List.length_nil, readLoop, hr]
      have hl : leftover (s.pbuf) = s.pbuf := by
        rw [leftover, Nat.div_eq_of_lt hp]; rfl
      simp [codeBits, hl, packBits_short hp, note, readEvent]
      rw [← h, ← he]
    · simpa [codeBits, packBits_short hp] using adds_inRead none
  | cons x xs ih =>
    intro s h he ho hp
    have hr := portRead_cons (p := .inStream) (s := s) h
    simp only [portRead] at hr
    have hpk := packByte_spec (s := note (readEvent .inStream (some x)) (setPort .inStream
      { portOf .inStream s with taken := (portOf .inStream s).taken ++ [x], ahead := xs } s)) ho x
    obtain ⟨tr, h1, h2⟩ := ih
      { s with
        pbuf := leftover (s.pbuf ++ s.table.codeAt x)
        inp := { s.inp with taken := s.inp.taken ++ [x], ahead := xs }
        out := s.out ++ packBits (s.pbuf ++ s.table.codeAt x)
        trace := writesOf (packBits (s.pbuf ++ s.table.codeAt x)) ++ .inRead (some x) :: s.trace }
      rfl he ho (by show (leftover _).length < 8; rw [leftover_length]; omega)
    have hb : packBits (s.pbuf ++ codeBits s.table (x :: xs)) = packBits (s.pbuf ++ s.table.codeAt x) ++
        packBits (leftover (s.pbuf ++ s.table.codeAt x) ++ codeBits s.table xs) := by
      rw [codeBits, List.flatMap_cons, ← List.append_assoc, packBits_leftover]; rfl
    have hl : leftover (s.pbuf ++ codeBits s.table (x :: xs)) =
        leftover (leftover (s.pbuf ++ s.table.codeAt x) ++ codeBits s.table xs) := by
      rw [codeBits, List.flatMap_cons, ← List.append_assoc, leftover_append]; rfl
    refine ⟨tr ++ (writesOf (packBits (s.pbuf ++ s.table.codeAt x)) ++ [.inRead (some x)]), ?_, ?_⟩
    · rw [List.length_cons, readLoop, hr]
      simp only [hpk, Run.andThen]
      refine Eq.trans h1 ?_
      rw [hb, hl]
      simp [List.append_assoc]
    · rw [hb]
      have := adds_append (adds_append (adds_inRead (some x))
        (adds_writesOf (packBits (s.pbuf ++ s.table.codeAt x)))) h2
      simpa using this

/-- PACK and PAD write the payload of R84 and never lack a padding code (R165). -/
theorem packPhase_spec {a : Arena} {s : State} (C : CodesOf a s.table) (he : s.inp.ended = true)
    (ho : s.outReady = .always) :
    ∃ ph tr, packPhase s = .going
      { s with
        phase := ph
        pbuf := []
        inp := { taken := s.inp.taken ++ s.inp.ahead, ahead := [], ended := true }
        out := s.out ++ payload s.table s.inp.ahead
        trace := tr ++ s.trace } ∧
      Adds (s.inp.ahead.map some ++ [none]) (payload s.table s.inp.ahead) tr := by
  obtain ⟨tr, h1, h2⟩ := packLoop_spec s.inp.ahead (enterPack s) rfl he ho (by simp)
  set bits := codeBits s.table s.inp.ahead with hbits
  have hb : (enterPack s).pbuf ++ codeBits (enterPack s).table s.inp.ahead = bits := by simp [hbits]
  rw [hb] at h1 h2
  have hl := leftover_length bits
  rw [packPhase, h1]
  simp only [Run.andThen, padPhase, padFill, padNeed]
  by_cases hz : bits.length % 8 = 0
  · have hnil : leftover bits = [] := List.eq_nil_of_length_eq_zero (by omega)
    have hpay : payload s.table s.inp.ahead = packBits bits := by
      rw [payload, ← hbits, padBits, if_pos hz, List.append_nil]
    refine ⟨.pack, tr, ?_, by rw [hpay]; exact h2⟩
    rw [hpay]
    simp [hnil, padEmit, enterPack]
  · have hne : leftover bits ≠ [] := fun h => by rw [h] at hl; exact hz hl.symm
    obtain ⟨v, hv, hlt⟩ := padChoice_some C (need := 8 - bits.length % 8) (by omega)
    have h8 : (leftover bits ++ (s.table.codeAt v).take (8 - bits.length % 8)).length = 8 := by
      rw [List.length_append, hl, List.length_take]; omega
    have hpay : payload s.table s.inp.ahead = packBits bits ++
        [pack8 (leftover bits ++ (s.table.codeAt v).take (8 - bits.length % 8))] := by
      rw [payload, ← hbits, padBits, if_neg hz, hv]
      simp only
      rw [packBits_leftover]
      have := packBits_cons8 _ [] h8
      rw [List.append_nil] at this
      rw [this]; rfl
    have hne2 : leftover bits ++ (s.table.codeAt v).take (8 - bits.length % 8) ≠ [] := fun h => by
      rw [h] at h8; cases h8
    refine ⟨.pad, .outWrite (pack8 (leftover bits ++ (s.table.codeAt v).take (8 - bits.length % 8))) :: tr,
      ?_, ?_⟩
    · rw [hpay]
      simp only [hne, if_false, hl, table_enterPack, hv, padEmit]
      rw [if_neg hne2, outWrite_always (by exact ho)]
      simp [wrote, note, enterPack]
    · rw [hpay]
      have := adds_append h2 (adds_writesOf [pack8 (leftover bits ++
        (s.table.codeAt v).take (8 - bits.length % 8))])
      simpa [writesOf] using this

/-- The payload is `ceil(L / 8)` bytes (R84). -/
theorem payload_length {a : Arena} {t : CodeTable} (C : CodesOf a t) (xs : List Byte) :
    (payload t xs).length = ((codeBits t xs).length + 7) / 8 ∧
    (payload t xs).flatMap bits8 = codeBits t xs ++ padBits t (codeBits t xs).length := by
  set bits := codeBits t xs with hbits
  have hlen : ∃ n, (bits ++ padBits t bits.length).length = 8 * n ∧ n = (bits.length + 7) / 8 := by
    refine ⟨(bits.length + 7) / 8, ?_, rfl⟩
    rw [padBits]
    by_cases hz : bits.length % 8 = 0
    · rw [if_pos hz, List.append_nil]; omega
    · obtain ⟨v, hv, hlt⟩ := padChoice_some C (need := 8 - bits.length % 8) (by omega)
      rw [if_neg hz, hv]
      simp only [List.length_append, List.length_take]
      omega
  obtain ⟨n, hn, rfl⟩ := hlen
  exact ⟨packBits_length _ hn, flatMap_bits8_packBits _ hn⟩

/-! ### Reading symbols -/

/-- A path to a leaf reads as that leaf's symbol, and the walk starts again at the root (R180, R181). -/
theorem symbols_path {a : Arena} {v : Byte} (p : BitString) : ∀ (n : NodeIdx) (y : BitString), p ≠ [] →
    follow a n p = some (leafNode v) → symbols a n (p ++ y) = v :: symbols a a.root y := by
  induction p with
  | nil => intro n y h; exact absurd rfl h
  | cons b p ih =>
    intro n y _ h
    obtain ⟨m, hm, hp⟩ := follow_cons_eq_some h
    rw [List.cons_append, symbols, hm]
    simp only
    by_cases hl : isLeaf m = true
    · rw [isLeaf_iff] at hl
      obtain ⟨rfl, h2⟩ := follow_leaf hl hp
      rw [← h2, if_pos (isLeaf_leafNode v), leafByte_leafNode, List.nil_append]
    · rw [if_neg hl]
      refine ih m y ?_ hp
      rintro rfl
      rw [follow_nil] at hp
      rw [Option.some.inj hp] at hl
      exact hl (isLeaf_leafNode v)

/-- A proper beginning of a path to a leaf gives no symbol (R164). -/
theorem symbols_partial {a : Arena} {v : Byte} (p : BitString) : ∀ (n : NodeIdx) (r : BitString), r ≠ [] →
    follow a n (p ++ r) = some (leafNode v) → symbols a n p = [] := by
  induction p with
  | nil => intro n r _ _; rfl
  | cons b p ih =>
    intro n r hr h
    obtain ⟨m, hm, hp⟩ := follow_cons_eq_some h
    rw [symbols, hm]
    simp only
    have hl : ¬ isLeaf m = true := by
      intro hl
      rw [isLeaf_iff] at hl
      have := (follow_leaf hl hp).1
      simp at this
      exact hr this.2
    rw [if_neg hl]
    exact ih m r hr hp

/-- The codes of an input and their padding read back as the input (R185). -/
theorem symbols_codeBits {a : Arena} {t : CodeTable} (C : CodesOf a t) (q : BitString)
    (hq : symbols a a.root q = []) (xs : List Byte) :
    symbols a a.root (codeBits t xs ++ q) = xs := by
  induction xs with
  | nil => simpa [codeBits] using hq
  | cons x xs ih =>
    have hne : t.codeAt x ≠ [] := by
      intro h
      have := (C x).2.2.1
      rw [h] at this
      exact absurd this (by decide)
    rw [codeBits, List.flatMap_cons, List.append_assoc, symbols_path (v := x) _ _ _ hne (C x).1]
    rw [← codeBits, ih]

/-- Padding alone gives no symbol (R164). -/
theorem symbols_padBits {a : Arena} {t : CodeTable} (C : CodesOf a t) (n : Nat) :
    symbols a a.root (padBits t n) = [] := by
  rw [padBits]
  by_cases hz : n % 8 = 0
  · rw [if_pos hz]; rfl
  · obtain ⟨v, hv, hlt⟩ := padChoice_some C (need := 8 - n % 8) (by omega)
    rw [if_neg hz, hv]
    refine symbols_partial (v := v) _ _ ((t.codeAt v).drop (8 - n % 8)) ?_ ?_
    · rw [ne_eq, List.drop_eq_nil_iff]; omega
    · rw [List.take_append_drop]; exact (C v).1

/-- A payload reads back as the input it was made of (R185). -/
theorem symbols_payload {a : Arena} {t : CodeTable} (C : CodesOf a t) (xs : List Byte) :
    symbols a a.root ((payload t xs).flatMap bits8) = xs := by
  rw [(payload_length C xs).2]
  exact symbols_codeBits C _ (symbols_padBits C _) xs

/-! ### UNPACK -/

/-- The internal node where reading a bit-string from a node ends. -/
def readEnd (a : Arena) : NodeIdx → BitString → NodeIdx
  | n, [] => n
  | n, b :: p =>
    match a.child n b with
    | some m => if isLeaf m then readEnd a a.root p else readEnd a m p
    | none => n

theorem readEnd_internal {a : Arena} (T : Tree a) (p : BitString) : ∀ n : NodeIdx, 256 ≤ n.toNat →
    n.toNat < 511 → 256 ≤ (readEnd a n p).toNat ∧ (readEnd a n p).toNat < 511 := by
  induction p with
  | nil => intro n h1 h2; exact ⟨h1, h2⟩
  | cons b p ih =>
    intro n h1 h2
    obtain ⟨m, hm, hlt⟩ := T.ordered n h1 (by omega) b
    rw [readEnd, hm]
    simp only
    by_cases hl : isLeaf m = true
    · rw [if_pos hl]; exact ih _ T.root_internal T.root_node
    · rw [if_neg hl]
      rw [isLeaf_iff] at hl
      exact ih m (by omega) (by omega)

theorem symbols_append {a : Arena} (T : Tree a) (p q : BitString) : ∀ n : NodeIdx, 256 ≤ n.toNat →
    n.toNat < 511 → symbols a n (p ++ q) = symbols a n p ++ symbols a (readEnd a n p) q ∧
      readEnd a n (p ++ q) = readEnd a (readEnd a n p) q := by
  induction p with
  | nil => intro n _ _; exact ⟨rfl, rfl⟩
  | cons b p ih =>
    intro n h1 h2
    obtain ⟨m, hm, hlt⟩ := T.ordered n h1 (by omega) b
    simp only [List.cons_append, symbols, readEnd, hm]
    by_cases hl : isLeaf m = true
    · simp only [hl, if_true]
      obtain ⟨h3, h4⟩ := ih _ T.root_internal T.root_node
      exact ⟨by rw [h3, List.cons_append], h4⟩
    · simp only [hl]
      rw [isLeaf_iff] at hl
      exact ih m (by omega) (by omega)

/-- UNPACK on some bits, when the host accepts every byte: the symbols are written (R180). -/
theorem unpackBits_spec (p : BitString) : ∀ s : State, Tree s.arena → s.outReady = .always →
    256 ≤ s.cur.toNat → s.cur.toNat < 511 →
    unpackBits p s = .going
      { s with
        cur := readEnd s.arena s.cur p
        bits := []
        out := s.out ++ symbols s.arena s.cur p
        trace := writesOf (symbols s.arena s.cur p) ++ s.trace } := by
  induction p with
  | nil => intro s _ _ _ _; simp [unpackBits, readEnd, symbols, writesOf]
  | cons b p ih =>
    intro s T ho h1 h2
    obtain ⟨m, hm, hlt⟩ := T.ordered s.cur h1 (by omega) b
    rw [unpackBits, moveDown, hm]
    simp only [Run.andThen, symbols, readEnd, hm]
    by_cases hl : isLeaf m = true
    · rw [if_pos hl, if_pos hl, if_pos hl, emitSymbol, outWrite_always (by exact ho)]
      simp only
      rw [ih _ (by exact T) (by exact ho) (by exact T.root_internal) (by exact T.root_node)]
      simp [wrote, note, writesOf]
    · rw [if_neg hl, if_neg hl, if_neg hl]
      rw [isLeaf_iff] at hl
      rw [ih _ (by exact T) (by exact ho) (by show 256 ≤ m.toNat; omega) (by show m.toNat < 511; omega)]

theorem unpackLoop_spec (xs : List Byte) : ∀ s : State, s.inp.ahead = xs → s.inp.ended = true →
    Tree s.arena → s.outReady = .always → 256 ≤ s.cur.toNat → s.cur.toNat < 511 → s.bits = [] →
    ∃ tr, readLoop unpackByte (xs.length + 1) s = .going
      { s with
        cur := readEnd s.arena s.cur (xs.flatMap bits8)
        inp := { taken := s.inp.taken ++ xs, ahead := [], ended := true }
        out := s.out ++ symbols s.arena s.cur (xs.flatMap bits8)
        trace := tr ++ s.trace } ∧
      Adds (xs.map some ++ [none]) (symbols s.arena s.cur (xs.flatMap bits8)) tr := by
  induction xs with
  | nil =>
    intro s h he _ _ _ _ hb
    have hr := portRead_eos (p := .inStream) h he
    simp only [portRead] at hr
    refine ⟨[.inRead none], ?_, by simpa [symbols] using adds_inRead none⟩
    rw [List.length_nil, readLoop, hr]
    simp [note, readEvent, readEnd, symbols]
    rw [← h, ← he]
  | cons x xs ih =>
    intro s h he T ho h1 h2 hb
    have hr := portRead_cons (p := .inStream) (s := s) h
    simp only [portRead] at hr
    have hun := unpackBits_spec (bits8 x) (note (readEvent .inStream (some x)) (setPort .inStream
      { portOf .inStream s with taken := (portOf .inStream s).taken ++ [x], ahead := xs } s)) T ho h1 h2
    obtain ⟨e1, e2⟩ := readEnd_internal T (bits8 x) s.cur h1 h2
    obtain ⟨a1, a2⟩ := symbols_append T (bits8 x) (xs.flatMap bits8) s.cur h1 h2
    obtain ⟨tr, g1, g2⟩ := ih
      { s with
        cur := readEnd s.arena s.cur (bits8 x)
        bits := []
        inp := { s.inp with taken := s.inp.taken ++ [x], ahead := xs }
        out := s.out ++ symbols s.arena s.cur (bits8 x)
        trace := writesOf (symbols s.arena s.cur (bits8 x)) ++ .inRead (some x) :: s.trace }
      rfl he T ho e1 e2 rfl
    refine ⟨tr ++ (writesOf (symbols s.arena s.cur (bits8 x)) ++ [.inRead (some x)]), ?_, ?_⟩
    · rw [List.length_cons, readLoop, hr]
      simp only [unpackByte]
      rw [hun]
      refine Eq.trans g1 ?_
      rw [List.flatMap_cons, a1, a2]
      simp [List.append_assoc, hb]
    · rw [List.flatMap_cons, a1]
      have := adds_append (adds_append (adds_inRead (some x))
        (adds_writesOf (symbols s.arena s.cur (bits8 x)))) g2
      simpa using this

/-- UNPACK writes the symbols of the rest of `IN` and never reports an error (R180, R182, R183). -/
theorem unpackPhase_spec {s : State} (T : Tree s.arena) (he : s.inp.ended = true)
    (ho : s.outReady = .always) :
    ∃ c tr, unpackPhase s = .going
      { s with
        phase := .unpack
        cur := c
        bits := []
        inp := { taken := s.inp.taken ++ s.inp.ahead, ahead := [], ended := true }
        out := s.out ++ symbols s.arena s.arena.root (s.inp.ahead.flatMap bits8)
        trace := tr ++ s.trace } ∧
      Adds (s.inp.ahead.map some ++ [none])
        (symbols s.arena s.arena.root (s.inp.ahead.flatMap bits8)) tr := by
  obtain ⟨tr, h1, h2⟩ := unpackLoop_spec s.inp.ahead (enterUnpack s) rfl he T ho
    T.root_internal T.root_node rfl
  exact ⟨_, tr, h1, h2⟩

end Sys2Proof.Machine
end

