-- ==== Sys2Proof/Laws/Commands.lean ====
section
/-! SUPPORT. The four bodies, one law each: what a command's phases come to, one after another, when the
host meets its duties (R192 to R195), and how each body ends that raises an error. -/

namespace Sys2Proof.Machine

theorem andThen_going {r : Run} {s : State} (h : r = .going s) (f : State → Run) : r.andThen f = f s := by
  rw [h]; rfl

theorem andThen_raised {r : Run} {e : ErrCode} {i : BitVec 16} {s : State} (h : r = .raised e i s)
    (f : State → Run) : r.andThen f = .raised e i s := by
  rw [h]; rfl

theorem buildPhase_eq {s : State} {a : Arena} (h : buildArena s.arena = some a) :
    buildPhase s = .going { s with phase := .build, arena := a } := by
  unfold buildPhase
  split
  · next b hb => rw [h] at hb; rw [Option.some.inj hb]
  · next hb => rw [h] at hb; cases hb

/-- BUILD as a phase (R110, R111). -/
theorem buildPhase_spec (s : State) : ∃ a, buildArena s.arena = some a ∧
    buildPhase s = .going { s with phase := .build, arena := a } ∧ Tree a ∧ a.k = 255 ∧
    a.total = s.arena.total ∧ a.tcnt = s.arena.tcnt ∧ a.weightWidth = s.arena.weightWidth ∧
    (∀ i, a.slotAt i = emptySlot) ∧
    (∀ v, a.weightAt (leafNode v) = s.arena.weightAt (leafNode v)) ∧
    wellFormedTree (mseqList a) = true := by
  obtain ⟨a, h1, h2, h3, h4, h5, h6, hw, h7⟩ := buildArena_spec s.arena
  refine ⟨a, h1, buildPhase_eq h1, h2, h3, h4, h5, hw, h6, fun v => ?_, build_record_accepted h1⟩
  exact h7 _ (by rw [leafNode_toNat]; exact v.isLt)

theorem tcnt_countAll (xs : List Byte) : ∀ a : Arena, (countAll a xs).tcnt = a.tcnt := by
  induction xs with
  | nil => intro a; rfl
  | cons x xs ih => intro a; exact ih (countByte x a)

theorem tcnt_clearWeights (a : Arena) : (clearWeights a).tcnt = a.tcnt := by
  simp only [clearWeights]

/-- The counts and the tree that BUILD_TREE and ENCODE come to (R192, R193). -/
theorem countBuild_spec {s : State} (he : s.inp.ended = true) (ho : s.outReady = .always)
    (hl : s.inp.ahead.length ≤ s.arena.maxInput) :
    ∃ a tr, buildArena (countAll (clearWeights s.arena) s.inp.ahead) = some a ∧
      ((accumulate s).andThen buildPhase).andThen serialize = .going
        { s with
          phase := .ser
          serIdx := 510
          arena := a
          inp := readOut s.inp
          out := s.out ++ mseqList a
          trace := tr ++ s.trace } ∧
      Adds (s.inp.ahead.map some ++ [none]) (mseqList a) tr := by
  obtain ⟨a, h1, h2, -⟩ := buildPhase_spec
    { s with
      phase := .acc
      arena := countAll (clearWeights s.arena) s.inp.ahead
      inp := { taken := s.inp.taken ++ s.inp.ahead, ahead := [], ended := true }
      trace := .inRead none :: (readsOf .inStream s.inp.ahead ++ s.trace) }
  refine ⟨a, writesOf (mseqList a) ++ .inRead none :: readsOf .inStream s.inp.ahead, h1, ?_, ?_⟩
  · refine (andThen_going ((andThen_going (accumulate_spec he hl) _).trans h2) _).trans
      ((serialize_spec (by exact ho)).trans ?_)
    simp [readOut, he]
  · have := adds_append (adds_append (adds_readsOf s.inp.ahead) (adds_inRead none)) (adds_writesOf (mseqList a))
    simpa using this

/-- What the counts of a whole input make of the tree (R101, R118, R122). -/
theorem countBuild_arena {a b : Arena} {xs : List Byte} (hl : xs.length ≤ a.maxInput)
    (h : buildArena (countAll (clearWeights a) xs) = some b) :
    Tree b ∧ b.k = 255 ∧ (∀ i, b.slotAt i = emptySlot) ∧ wellFormedTree (mseqList b) = true ∧
      (∀ v, b.weightAt (leafNode v) = xs.count v) ∧ b.total = xs.length ∧
      b.weightAt b.root = b.total ∧ SumsExact b 255 ∧ b.tcnt = a.tcnt := by
  obtain ⟨b', h1, h2, h3, h4, h5, h6, -, h7⟩ := buildArena_spec (countAll (clearWeights a) xs)
  obtain rfl := Option.some.inj (h1.symm.trans h)
  obtain ⟨c1, c2⟩ := countAll_clearWeights (a := a) hl
  have hsum : ∑ v : Byte, (countAll (clearWeights a) xs).weightAt (leafNode v) = xs.length := by
    rw [← sum_count xs]
    exact Finset.sum_congr rfl fun v _ => c2 v
  have hfit : ∑ v : Byte, (countAll (clearWeights a) xs).weightAt (leafNode v) ≤
      (countAll (clearWeights a) xs).maxInput := by
    rw [hsum, maxInput_countAll, maxInput_clearWeights]; exact hl
  obtain ⟨hr, E⟩ := root_weight hfit h1
  refine ⟨h2, h3, h6, build_record_accepted h1, fun v => ?_, by rw [h4, c1], ?_, E, ?_⟩
  · rw [h7 _ (by rw [leafNode_toNat]; exact v.isLt), c2]
  · rw [hr, hsum, h4, c1]
  · rw [h5, tcnt_countAll, tcnt_clearWeights]

/-- The body of `ENCODE` on an input that fits (R193). -/
theorem bodyEncode_spec {s : State} (he : s.inp.ended = true) (ho : s.outReady = .always)
    (hl : s.inp.ahead.length ≤ s.arena.maxInput) :
    ∃ a t ph tr, buildArena (countAll (clearWeights s.arena) s.inp.ahead) = some a ∧ CodesOf a t ∧
      bodyEncode s = .going
        { s with
          phase := ph
          serIdx := 510
          arena := a
          table := t
          pbuf := []
          inp := readOut s.inp
          out := s.out ++ (mseqList a ++ payload t (s.inp.taken ++ s.inp.ahead))
          trace := tr ++ s.trace } ∧
      inReads tr = s.inp.ahead.map some ++ [none] ++ ((s.inp.taken ++ s.inp.ahead).map some ++ [none]) ∧
      treeReads tr = [] ∧ rewinds tr = 1 ∧
      outBytes tr = mseqList a ++ payload t (s.inp.taken ++ s.inp.ahead) := by
  obtain ⟨a, tr, h1, h2, h3⟩ := countBuild_spec he ho hl
  have T := (countBuild_arena hl h1).1
  obtain ⟨t, h4, C⟩ := derive_spec (s :=
    { s with
      phase := .ser
      serIdx := 510
      arena := a
      inp := readOut s.inp
      out := s.out ++ mseqList a
      trace := tr ++ s.trace }) T
  obtain ⟨ph, tr', h5, h6⟩ := packPhase_spec (a := a) (s := inRewind
    { s with
      phase := .derive
      serIdx := 510
      arena := a
      table := t
      inp := readOut s.inp
      out := s.out ++ mseqList a
      trace := tr ++ s.trace }) C (by exact he) (by exact ho)
  have hahead : (readOut s.inp).taken ++ (readOut s.inp).ahead = s.inp.taken ++ s.inp.ahead := by
    simp [readOut]
  refine ⟨a, t, ph, tr' ++ .inRewind :: tr, h1, C, ?_, ?_, ?_, ?_, ?_⟩
  · refine (andThen_going ((andThen_going h2 _).trans h4) _).trans (h5.trans ?_)
    simp [inRewind, note, readOut, he]
  · have e : tr' ++ PortEvent.inRewind :: tr = tr' ++ ([.inRewind] ++ tr) := rfl
    rw [e, inReads_append, inReads_append, h3.ins_eq, h6.ins_eq]
    simp [inRewind, note, readOut, inReads]
  · have e : tr' ++ PortEvent.inRewind :: tr = tr' ++ ([.inRewind] ++ tr) := rfl
    rw [e, treeReads_append, treeReads_append, h3.trees_eq, h6.trees_eq]; rfl
  · have e : tr' ++ PortEvent.inRewind :: tr = tr' ++ ([.inRewind] ++ tr) := rfl
    rw [e, rewinds_append, rewinds_append, h3.rewinds_eq, h6.rewinds_eq]; rfl
  · have e : tr' ++ PortEvent.inRewind :: tr = tr' ++ ([.inRewind] ++ tr) := rfl
    rw [e, outBytes_append, outBytes_append, h3.outs_eq, h6.outs_eq]
    simp [inRewind, note, readOut, outBytes]

/-- Reading and replaying an accepted tree encoding (R133, R134). -/
theorem readTree_spec {p : StreamSel} {s : State} (h : wellFormedTree ((portOf p s).ahead.take 510) = true) :
    ∃ a, (deserRead p s).andThen deserReplay = .going
      { setPort p (readPart 510 (portOf p s)) s with
        phase := .deserReplay
        arena := a
        trace := readsOf p ((portOf p s).ahead.take 510) ++ s.trace } ∧
      Tree a ∧ mseqList a = (portOf p s).ahead.take 510 ∧ a.k = 255 ∧ a.tcnt = 510 ∧ a.w = s.arena.w ∧
      a.total = s.arena.total := by
  have hlen : 510 ≤ (portOf p s).ahead.length := by
    have := ((wellFormedTree_iff _).1 h).1
    rw [List.length_take] at this
    omega
  obtain ⟨a, h1, h2, h3, h4, h5⟩ := deserRead_spec hlen
  obtain ⟨a', g1, g2, g3, g4, g5, g6, g7⟩ := deserReplay_accepted (s :=
    { setPort p (readPart 510 (portOf p s)) s with
      phase := .deserRead
      arena := a
      trace := readsOf p ((portOf p s).ahead.take 510) ++ s.trace }) (by rw [← h2] at h; exact h)
  refine ⟨a', (andThen_going h1 _).trans g1, g2, ?_, g3, by rw [g7]; exact h3, by rw [g5]; exact h4,
    by rw [g6]; exact h5⟩
  rw [mseqList, g4]
  exact h2

/-- The body of `DECODE` on an accepted header (R194). -/
theorem bodyDecode_spec {s : State} (he : s.inp.ended = true) (ho : s.outReady = .always)
    (h : wellFormedTree (s.inp.ahead.take 510) = true) :
    ∃ a c tr, Tree a ∧ mseqList a = s.inp.ahead.take 510 ∧ a.w = s.arena.w ∧ a.total = s.arena.total ∧
      (∃ s1, (deserRead .inStream s).andThen deserReplay = .going s1 ∧ s1.arena = a) ∧
      bodyDecode s = .going
        { s with
          phase := .unpack
          arena := a
          cur := c
          bits := []
          inp := readOut s.inp
          out := s.out ++ symbols a a.root ((s.inp.ahead.drop 510).flatMap bits8)
          trace := tr ++ s.trace } ∧
      Adds (s.inp.ahead.map some ++ [none])
        (symbols a a.root ((s.inp.ahead.drop 510).flatMap bits8)) tr := by
  obtain ⟨a, h1, T, h2, -, -, h3, h4⟩ := readTree_spec (p := .inStream) h
  obtain ⟨c, tr, h5, h6⟩ := unpackPhase_spec (s :=
    { s with
      phase := .deserReplay
      arena := a
      inp := readPart 510 s.inp
      trace := readsOf .inStream (s.inp.ahead.take 510) ++ s.trace }) T (by exact he) (by exact ho)
  refine ⟨a, c, tr ++ readsOf .inStream (s.inp.ahead.take 510), T, h2, h3, h4, ⟨_, h1, rfl⟩, ?_, ?_⟩
  · refine (andThen_going h1 _).trans (h5.trans ?_)
    simp [readPart, readOut, he]
  · have := adds_append (adds_readsOf (s.inp.ahead.take 510)) h6
    rw [← List.append_assoc, ← List.map_append] at this
    simpa [readPart] using this

/-- The body of `ENCODE_EXT` on an accepted tree encoding (R195). -/
theorem bodyEncodeExt_spec {s : State} (he : s.inp.ended = true) (ho : s.outReady = .always)
    (h : wellFormedTree (s.tree.ahead.take 510) = true) :
    ∃ a t ph tr, Tree a ∧ CodesOf a t ∧ mseqList a = s.tree.ahead.take 510 ∧ a.w = s.arena.w ∧
      a.total = s.arena.total ∧
      (∃ s1, (deserRead .treeStream s).andThen deserReplay = .going s1 ∧ s1.arena = a) ∧
      bodyEncodeExt s = .going
        { s with
          phase := ph
          serIdx := 510
          arena := a
          table := t
          pbuf := []
          inp := readOut s.inp
          tree := readPart 510 s.tree
          out := s.out ++ (s.tree.ahead.take 510 ++ payload t s.inp.ahead)
          trace := tr ++ s.trace } ∧
      inReads tr = s.inp.ahead.map some ++ [none] ∧
      treeReads tr = (s.tree.ahead.take 510).map some ∧ rewinds tr = 0 ∧
      outBytes tr = s.tree.ahead.take 510 ++ payload t s.inp.ahead := by
  obtain ⟨a, h1, T, h2, -, -, h3, h4⟩ := readTree_spec (p := .treeStream) h
  have h5 := serialize_spec (s :=
    { s with
      phase := .deserReplay
      arena := a
      tree := readPart 510 s.tree
      trace := readsOf .treeStream (s.tree.ahead.take 510) ++ s.trace }) ho
  obtain ⟨t, h6, C⟩ := derive_spec (s :=
    { s with
      phase := .ser
      serIdx := 510
      arena := a
      tree := readPart 510 s.tree
      out := s.out ++ mseqList a
      trace := writesOf (mseqList a) ++ (readsOf .treeStream (s.tree.ahead.take 510) ++ s.trace) }) T
  obtain ⟨ph, tr, h7, h8⟩ := packPhase_spec (a := a) (s :=
    { s with
      phase := .derive
      serIdx := 510
      arena := a
      table := t
      tree := readPart 510 s.tree
      out := s.out ++ mseqList a
      trace := writesOf (mseqList a) ++ (readsOf .treeStream (s.tree.ahead.take 510) ++ s.trace) }) C (by exact he) (by exact ho)
  refine ⟨a, t, ph, tr ++ (writesOf (mseqList a) ++ readsOf .treeStream (s.tree.ahead.take 510)), T, C, h2,
    h3, h4, ⟨_, h1, rfl⟩, ?_, ?_, ?_, ?_, ?_⟩
  · refine (andThen_going ((andThen_going ((andThen_going h1 _).trans h5) _).trans h6) _).trans (h7.trans ?_)
    simp [readOut, he, h2, portOf]
  · rw [inReads_append, inReads_append, h8.ins_eq]; simp
  · rw [treeReads_append, treeReads_append, h8.trees_eq]; simp
  · rw [rewinds_append, rewinds_append, h8.rewinds_eq]; simp
  · rw [outBytes_append, outBytes_append, h8.outs_eq]; simp [h2, portOf]

/-! ### Bodies that raise an error -/

/-- A tree port that ends too soon, as far as both commands that read one go (R213). -/
theorem readTree_truncated {p : StreamSel} {s : State} (h : (portOf p s).ahead.length < 510)
    (he : (portOf p s).ended = true) :
    ∃ a tr, (deserRead p s).andThen deserReplay =
      .raised .truncatedTree (BitVec.ofNat 16 (portOf p s).ahead.length)
        { setPort p (readOut (portOf p s)) s with phase := .deserRead, arena := a, trace := tr ++ s.trace } := by
  obtain ⟨a, h1, -⟩ := deserRead_truncated h he
  refine ⟨a, readEvent p none :: readsOf p (portOf p s).ahead, (andThen_raised h1 _).trans ?_⟩
  rfl

/-- A tree encoding with a bad pair, as far as both commands that read one go (R214, R215). -/
theorem readTree_rejected {p : StreamSel} {s : State} {k : Nat} (hlen : 510 ≤ (portOf p s).ahead.length)
    (hk : k < 255)
    (hg : ∀ j, j < k → pairSlotsFull ((portOf p s).ahead.take 510) j = true ∧
      pairOrdered ((portOf p s).ahead.take 510) j = true)
    (hb : ¬ (pairSlotsFull ((portOf p s).ahead.take 510) k = true ∧
      pairOrdered ((portOf p s).ahead.take 510) k = true)) :
    ∃ a, (deserRead p s).andThen deserReplay =
      .raised (if pairSlotsFull ((portOf p s).ahead.take 510) k = false then .malformedEmptySlot
        else .malformedPairOrder) (BitVec.ofNat 16 k)
        { setPort p (readPart 510 (portOf p s)) s with
          phase := .deserReplay
          arena := a
          trace := readsOf p ((portOf p s).ahead.take 510) ++ s.trace } := by
  obtain ⟨a, h1, h2, -⟩ := deserRead_spec hlen
  obtain ⟨a', g1, -⟩ := deserReplay_rejected (s :=
    { setPort p (readPart 510 (portOf p s)) s with
      phase := .deserRead
      arena := a
      trace := readsOf p ((portOf p s).ahead.take 510) ++ s.trace }) hk
    (by rw [← h2] at hg; exact hg) (by rw [← h2] at hb; exact hb)
  refine ⟨a', (andThen_going h1 _).trans (g1.trans ?_)⟩
  simp only [← h2]

/-! ### From a body to its command (R190) -/

/-- The body of each command. -/
def bodyOf : Instr → State → Run
  | .buildTree => bodyBuildTree
  | .encode => bodyEncode
  | .decode => bodyDecode
  | .encodeExt => bodyEncodeExt

/-- While the engine is not `BUSY` a command is accepted and its body run (R190). -/
theorem exec_idle (i : Instr) {s : State} (h : busy s = false) :
    exec i s = conclude (bodyOf i (accept i s)) := by
  cases i <;> simp only [exec, execBuildTree, execEncode, execDecode, execEncodeExt, bodyOf, h,
    Bool.false_eq_true, if_false]

/-- While it is `BUSY` a command is dropped (R191). -/
theorem exec_busy (i : Instr) {s : State} (h : busy s = true) : exec i s = .next (dropWrite s) := by
  cases i <;> simp only [exec, execBuildTree, execEncode, execDecode, execEncodeExt, h, if_true]

/-- What holds of every finished tree with its code holds where the two encoding commands end (R193, R195). -/
theorem encodesTo_of_codes {s : State} {P : State → Prop} (hr : Ready s)
    (h : ∀ (t : State), Tree t.arena → CodesOf t.arena t.table → P t) : EncodesTo s P := by
  obtain ⟨hb, he, ho⟩ := hr
  constructor
  · intro hl
    obtain ⟨a, t, ph, tr, h1, C, h2, h3⟩ := bodyEncode_spec (s := accept .encode s)
      (by exact he) (by exact ho) (by exact hl)
    obtain ⟨T, -⟩ := countBuild_arena (xs := s.inp.ahead) hl h1
    exact ⟨_, (exec_idle _ hb).trans (congrArg conclude h2), h _ T C⟩
  · intro hw
    obtain ⟨a, t, ph, tr, T, C, hm, -, -, -, h2, h3⟩ := bodyEncodeExt_spec (s := accept .encodeExt s)
      (by exact he) (by exact ho) (by exact hw)
    exact ⟨_, (exec_idle _ hb).trans (congrArg conclude h2), h _ T C⟩

end Sys2Proof.Machine
end

