-- ==== Sys2Proof/Laws/Frames.lean ====
section
/-! SUPPORT. Frames: which fields each phase and each small step may change, whatever the host does. A law
here takes any function of the state that does not look at the fields a phase writes, and says that the phase
leaves it alone wherever it stops. -/

namespace Sys2Proof.Machine

/-- Wherever the stretch stops, `f` of the state is `c`. -/
inductive Run.Fix {α : Type} (f : State → α) (c : α) : Run → Prop where
  | going {s : State} (h : f s = c) : Run.Fix f c (.going s)
  | waiting {s : State} (h : f s = c) : Run.Fix f c (.waiting s)
  | raised {s : State} (e : ErrCode) (i : BitVec 16) (h : f s = c) : Run.Fix f c (.raised e i s)
  | ended {s : State} (h : f s = c) : Run.Fix f c (.ended s)
  | broken (b : Fault) : Run.Fix f c (.broken b)

section
variable {α : Type} {f : State → α} {c : α}

theorem fix_andThen {r : Run} {g : State → Run} (h : r.Fix f c) (hg : ∀ s, f s = c → (g s).Fix f c) :
    (r.andThen g).Fix f c := by
  cases h with
  | going h => exact hg _ h
  | waiting h => exact .waiting h
  | raised e i h => exact .raised e i h
  | ended h => exact .ended h
  | broken b => exact .broken b

/-- A read changes nothing but its port and the trace. -/
theorem inRead_cases (s : State) :
    (∃ x i, inRead s = .byte x (note (.inRead (some x)) { s with inp := i })) ∨
    inRead s = .eos (note (.inRead none) s) ∨ inRead s = .blocked := by
  unfold inRead
  split
  · exact .inl ⟨_, _, rfl⟩
  · split
    · exact .inr (.inl rfl)
    · exact .inr (.inr rfl)

/-- The same of a read of either port. -/
theorem portRead_cases (p : StreamSel) (s : State) :
    (∃ x q, portRead p s = .byte x (note (readEvent p (some x)) (setPort p q s))) ∨
    portRead p s = .eos (note (readEvent p none) s) ∨ portRead p s = .blocked := by
  cases p with
  | inStream => exact inRead_cases s
  | treeStream =>
    simp only [portRead, treeRead]
    split
    · exact .inl ⟨_, _, rfl⟩
    · split
      · exact .inr (.inl rfl)
      · exact .inr (.inr rfl)

/-- A loop over `IN` leaves alone what its body leaves alone and a read does not touch. -/
theorem readLoop_fix {body : Byte → State → Run} (hr : ∀ s i tr, f { s with inp := i, trace := tr } = f s)
    (hb : ∀ x s, (body x s).Fix f (f s)) (n : Nat) : ∀ s, (readLoop body n s).Fix f (f s) := by
  induction n with
  | zero => intro s; exact .waiting rfl
  | succ n ih =>
    intro s
    rw [readLoop]
    obtain ⟨x, i, h⟩ | h | h := inRead_cases s
    · simp only [h]
      have hs : f (note (.inRead (some x)) { s with inp := i }) = f s := hr s i _
      rw [← hs]
      exact fix_andThen (hb x _) fun s' h' => h' ▸ ih s'
    · simp only [h]; exact .going (hr s s.inp _)
    · simp only [h]; exact .waiting rfl

/-- ACCUMULATE writes `PHASE`, the weights, `TOTAL` and the read position of `IN` (R100). -/
theorem accumulate_fix
    (hf : ∀ s ph w tot i tr, f { s with
      phase := ph, arena := { s.arena with w := w, total := tot }, inp := i, trace := tr } = f s)
    (s : State) : (accumulate s).Fix f (f s) := by
  have h := readLoop_fix (f := f) (body := accByte) (fun s i tr => hf s s.phase s.arena.w s.arena.total i tr)
    (fun x s => by
      unfold accByte
      split
      · exact .raised _ _ rfl
      · exact .going (hf s s.phase _ _ s.inp s.trace)) (s.inp.ahead.length + 1) (enterAcc s)
  have hs : f (enterAcc s) = f s := hf s .acc _ _ s.inp s.trace
  rw [← hs]
  exact h

/-- BUILD writes `PHASE` and the arena, but for `TCNT` and the width (R47, R110). -/
theorem buildPhase_fix (hf : ∀ s ph a, a.weightWidth = s.arena.weightWidth → a.tcnt = s.arena.tcnt →
      f { s with phase := ph, arena := a } = f s) (s : State) : (buildPhase s).Fix f (f s) := by
  obtain ⟨a, -, h2, -, -, -, h3, h4, -⟩ := buildPhase_spec s
  rw [h2]
  exact .going (hf _ _ _ h4 h3)

theorem serByte_fix
    (hf : ∀ s i o r tr, f { s with serIdx := i, out := o, outReady := r, trace := tr } = f s)
    (s : State) : (serByte s).Fix f (f s) := by
  unfold serByte
  split
  · next s' h =>
    obtain ⟨r, rfl⟩ := outWrite_spec h
    exact .going (hf s _ _ _ _)
  · exact .waiting rfl

/-- SERIALIZE writes `PHASE` and `OUT` (R130). -/
theorem serialize_fix
    (hf : ∀ s ph i o r tr, f { s with phase := ph, serIdx := i, out := o, outReady := r, trace := tr } = f s)
    (s : State) : (serialize s).Fix f (f s) := by
  have hb := serByte_fix fun s => hf s s.phase
  have hl : ∀ n s, (serLoop n s).Fix f (f s) := by
    intro n
    induction n with
    | zero => intro s; exact .going rfl
    | succ n ih => intro s; exact fix_andThen (hb s) fun s' h' => h' ▸ ih s'
  have hs : f (enterSer s) = f s := hf s .ser 0 s.out s.outReady s.trace
  rw [serialize, ← hs]
  exact hl _ _

theorem deserReadByte_fix {p : StreamSel}
    (hf : ∀ s m n q tr, f { setPort p q s with
      arena := { s.arena with mseq := m, tcnt := n }, trace := tr } = f s)
    (s : State) : (deserReadByte p s).Fix f (f s) := by
  unfold deserReadByte
  obtain ⟨x, q, h⟩ | h | h := portRead_cases p s
  · simp only [h]
    have := hf s (s.arena.setMseq s.arena.tcnt.toNat x).mseq (s.arena.tcnt + 1) q
      (readEvent p (some x) :: s.trace)
    cases p <;> exact .going this
  · simp only [h]
    have := hf s s.arena.mseq s.arena.tcnt (portOf p s) (readEvent p none :: s.trace)
    cases p <;> exact .raised _ _ this
  · simp only [h]; exact .waiting rfl

/-- DESER_READ writes `PHASE`, `MSEQ`, `TCNT` and the read position of its port (R132, R133). -/
theorem deserRead_fix {p : StreamSel}
    (hf : ∀ s ph m n q tr, f { setPort p q s with
      phase := ph, arena := { s.arena with mseq := m, tcnt := n }, trace := tr } = f s)
    (s : State) : (deserRead p s).Fix f (f s) := by
  have hb := deserReadByte_fix (f := f) (p := p) fun s m n q tr => by
    have := hf s s.phase m n q tr
    cases p <;> exact this
  have hl : ∀ n s, (deserReadLoop p n s).Fix f (f s) := by
    intro n
    induction n with
    | zero => intro s; exact .going rfl
    | succ n ih => intro s; exact fix_andThen (hb s) fun s' h' => h' ▸ ih s'
  have hs : f (enterDeserRead s) = f s := by
    have := hf s .deserRead s.arena.mseq 0 (portOf p s) s.trace
    cases p <;> exact this
  rw [deserRead, ← hs]
  exact hl _ _

theorem replayStep_fix
    (hf : ∀ s l r sl k, f { s with
      arena := { s.arena with left := l, right := r, slot := sl, k := k } } = f s)
    (s : State) : (replayStep s).Fix f (f s) := by
  unfold replayStep
  split
  · next a h =>
    unfold replayPair at h
    simp only at h
    split at h
    · cases h
    · split at h
      · cases h
      · cases h
        exact .going (hf s _ _ _ _)
  · exact .raised _ _ rfl

/-- DESER_REPLAY writes `PHASE`, the slots, `K`, the children and `ROOT`, and no weight (R132, R135). -/
theorem deserReplay_fix
    (hf : ∀ s ph l r sl k rt, f { s with
      phase := ph, arena := { s.arena with left := l, right := r, slot := sl, k := k, root := rt } } = f s)
    (s : State) : (deserReplay s).Fix f (f s) := by
  have hb := replayStep_fix fun s l r sl k => hf s s.phase l r sl k s.arena.root
  have hl : ∀ n s, (replayLoop n s).Fix f (f s) := by
    intro n
    induction n with
    | zero => intro s; exact .going rfl
    | succ n ih => intro s; exact fix_andThen (hb s) fun s' h' => h' ▸ ih s'
  have hs : f (enterReplay s) = f s := hf s .deserReplay s.arena.left s.arena.right _ _ s.arena.root
  rw [deserReplay, ← hs]
  refine fix_andThen (hl _ _) fun s' h' => ?_
  rw [← h']
  exact .going (hf s' s'.phase s'.arena.left s'.arena.right _ s'.arena.k _)

/-- DERIVE writes `PHASE` and the code table (R151). -/
theorem derive_fix (hf : ∀ s ph t, f { s with phase := ph, table := t } = f s) (s : State) :
    (derive s).Fix f (f s) := by
  unfold derive
  split
  · exact .going (hf s _ _)
  · exact .broken _

theorem emitByte_fix
    (hf : ∀ s pb o r tr, f { s with pbuf := pb, out := o, outReady := r, trace := tr } = f s)
    (s : State) : (emitByte s).Fix f (f s) := by
  unfold emitByte
  split
  · next s' h =>
    obtain ⟨r, rfl⟩ := outWrite_spec h
    exact .going (hf s _ _ _ _)
  · exact .waiting rfl

theorem padFill_fix (hf : ∀ s ph pb, f { s with phase := ph, pbuf := pb } = f s) (s : State) :
    (padFill s).Fix f (f s) := by
  unfold padFill
  split
  · exact .going rfl
  · split
    · exact .raised _ _ (hf s _ s.pbuf)
    · exact .going (hf s _ _)

theorem padEmit_fix
    (hf : ∀ s pb o r tr, f { s with pbuf := pb, out := o, outReady := r, trace := tr } = f s)
    (s : State) : (padEmit s).Fix f (f s) := by
  unfold padEmit
  split
  · exact .going rfl
  · split
    · next s' h =>
      obtain ⟨r, rfl⟩ := outWrite_spec h
      exact .going (hf s _ _ _ _)
    · exact .waiting rfl

/-- PACK and PAD write `PHASE`, `PBUF`, the read position of `IN` and `OUT` (R160, R163). -/
theorem packPhase_fix
    (hf : ∀ s ph pb i o r tr, f { s with
      phase := ph, pbuf := pb, inp := i, out := o, outReady := r, trace := tr } = f s)
    (s : State) : (packPhase s).Fix f (f s) := by
  have he := emitByte_fix fun s pb o r tr => hf s s.phase pb s.inp o r tr
  have hl : ∀ n s, (emitLoop n s).Fix f (f s) := by
    intro n
    induction n with
    | zero => intro s; exact .going rfl
    | succ n ih => intro s; exact fix_andThen (he s) fun s' h' => h' ▸ ih s'
  have hb : ∀ x s, (packByte x s).Fix f (f s) := by
    intro x s
    have hs : f (appendCode x s) = f s := hf s s.phase _ s.inp s.out s.outReady s.trace
    rw [packByte, ← hs]
    exact hl _ _
  have hfill := padFill_fix fun s ph pb => hf s ph pb s.inp s.out s.outReady s.trace
  have hemit := padEmit_fix fun s pb o r tr => hf s s.phase pb s.inp o r tr
  have hs : f (enterPack s) = f s := hf s .pack [] s.inp s.out s.outReady s.trace
  rw [packPhase, ← hs]
  refine fix_andThen (readLoop_fix (fun s i tr => hf s s.phase s.pbuf i s.out s.outReady tr) hb _ _)
    fun s1 h1 => ?_
  rw [← h1]
  exact fix_andThen (hfill s1) fun s2 h2 => h2 ▸ hemit s2

theorem moveDown_fix (hf : ∀ s cu bs, f { s with cur := cu, bits := bs } = f s) (b : Bool)
    (rest : BitString) (s : State) : (moveDown b rest s).Fix f (f s) := by
  unfold moveDown
  split
  · exact .going (hf s _ _)
  · exact .ended rfl

theorem emitSymbol_fix
    (hf : ∀ s cu o r tr, f { s with cur := cu, out := o, outReady := r, trace := tr } = f s)
    (s : State) : (emitSymbol s).Fix f (f s) := by
  unfold emitSymbol
  split
  · next s' h =>
    obtain ⟨r, rfl⟩ := outWrite_spec h
    exact .going (hf s _ _ _ _)
  · exact .waiting rfl

/-- UNPACK writes `PHASE`, `CUR`, the read position of `IN` and `OUT` (R180). -/
theorem unpackPhase_fix
    (hf : ∀ s ph cu bs i o r tr, f { s with
      phase := ph, cur := cu, bits := bs, inp := i, out := o, outReady := r, trace := tr } = f s)
    (s : State) : (unpackPhase s).Fix f (f s) := by
  have hm := moveDown_fix fun s cu bs => hf s s.phase cu bs s.inp s.out s.outReady s.trace
  have he := emitSymbol_fix fun s cu o r tr => hf s s.phase cu s.bits s.inp o r tr
  have hb : ∀ bs s, (unpackBits bs s).Fix f (f s) := by
    intro bs
    induction bs with
    | nil => intro s; exact .going (hf s s.phase s.cur _ s.inp s.out s.outReady s.trace)
    | cons b rest ih =>
      intro s
      rw [unpackBits]
      refine fix_andThen (hm b rest s) fun s1 h1 => ?_
      rw [← h1]
      split
      · exact fix_andThen (he s1) fun s2 h2 => h2 ▸ ih s2
      · exact ih s1
  have hs : f (enterUnpack s) = f s := hf s .unpack _ [] s.inp s.out s.outReady s.trace
  rw [unpackPhase, ← hs]
  exact readLoop_fix (fun s i tr => hf s s.phase s.cur s.bits i s.out s.outReady tr)
    (fun x s => hb (bits8 x) s) _ _

/-- A small step of any phase writes only `PHASE`, the working state, the streams and the trace: the host's
registers, `OPC`, the width of the weights and the host's side stay (R8, R28, R29, R30, R247). -/
theorem stepPhase_fix
    (hf : ∀ s ph a t pb cu si bs i tr o r ev, a.weightWidth = s.arena.weightWidth → f { s with
      phase := ph, arena := a, table := t, pbuf := pb, cur := cu, serIdx := si, bits := bs, inp := i,
      tree := tr, out := o, outReady := r, trace := ev } = f s)
    (s : State) : (stepPhase s).Fix f (f s) := by
  have h1 : ∀ s ph a si, a.weightWidth = s.arena.weightWidth →
      f { s with phase := ph, arena := a, serIdx := si } = f s := fun s ph a si =>
    hf s ph a s.table s.pbuf s.cur si s.bits s.inp s.tree s.out s.outReady s.trace
  have h2 : ∀ s ph a, a.weightWidth = s.arena.weightWidth →
      f { s with phase := ph, arena := a } = f s := fun s ph a => h1 s ph a s.serIdx
  have h3 : ∀ s ph pb i ev, f { s with phase := ph, pbuf := pb, inp := i, trace := ev } = f s :=
    fun s ph pb i ev =>
      hf s ph s.arena s.table pb s.cur s.serIdx s.bits i s.tree s.out s.outReady ev rfl
  have h4 : ∀ s ph cu bs i ev, f { s with phase := ph, cur := cu, bits := bs, inp := i, trace := ev } = f s :=
    fun s ph cu bs i ev =>
      hf s ph s.arena s.table s.pbuf cu s.serIdx bs i s.tree s.out s.outReady ev rfl
  have h5 : ∀ s ph a cu bs, a.weightWidth = s.arena.weightWidth →
      f { s with phase := ph, arena := a, cur := cu, bits := bs } = f s :=
    fun s ph a cu bs =>
      hf s ph a s.table s.pbuf cu s.serIdx bs s.inp s.tree s.out s.outReady s.trace
  have hder : ∀ s, (stepDerive s).Fix f (f s) := by
    intro s
    refine fix_andThen (derive_fix (fun s ph t =>
      hf s ph s.arena t s.pbuf s.cur s.serIdx s.bits s.inp s.tree s.out s.outReady s.trace rfl) s) fun s' h' => ?_
    rw [← h']
    split
    · exact .going rfl
    · exact .going (h3 s' .pack [] s'.inp s'.trace)
  have hdesc : ∀ bs s, (descend bs s).Fix f (f s) := by
    intro bs
    induction bs with
    | nil => intro s; exact .going (h4 s s.phase s.cur [] s.inp s.trace)
    | cons b rest ih =>
      intro s
      refine fix_andThen (moveDown_fix (fun s cu bs => h4 s s.phase cu bs s.inp s.trace) b rest s) fun s' h' => ?_
      rw [← h']
      split
      · exact .going rfl
      · exact ih s'
  unfold stepPhase
  split
  · exact .broken _
  · unfold stepAcc
    obtain ⟨x, i, h⟩ | h | h := inRead_cases s
    · simp only [h]
      unfold accByte
      split
      · exact .raised _ _ (h3 s s.phase s.pbuf i _)
      · exact .going ((h2 (note (.inRead (some x)) { s with inp := i }) _ (countByte x s.arena) rfl).trans (h3 s s.phase s.pbuf i _))
    · simp only [h]
      exact .going ((h2 (note (.inRead none) s) .build (initSlots s.arena) (width_initSlots _)).trans (h3 s s.phase s.pbuf s.inp _))
    · simp only [h]; exact .waiting rfl
  · unfold stepBuild
    split
    · split
      · next a h =>
        split
        · exact .going (h2 s s.phase _ (width_mergeStep h))
        · exact .going (h1 s _ _ _ ((width_takeRoot a).trans (width_mergeStep h)))
      · exact .broken _
    · exact .broken _
  · unfold stepSer
    split
    · refine fix_andThen (serByte_fix (fun s i o r tr =>
        hf s s.phase s.arena s.table s.pbuf s.cur i s.bits s.inp s.tree o r tr rfl) s) fun s' h' => ?_
      split
      · exact .going h'
      · exact .ended h'
    · split
      · exact hder s
      · exact .ended rfl
  · unfold stepDeserRead
    split
    · split
      · next p _ _ =>
        refine fix_andThen (deserReadByte_fix (fun s m n q tr => ?_) s) fun s' h' => ?_
        · cases p
          · exact hf s s.phase _ s.table s.pbuf s.cur s.serIdx s.bits q s.tree s.out s.outReady tr rfl
          · exact hf s s.phase _ s.table s.pbuf s.cur s.serIdx s.bits s.inp q s.out s.outReady tr rfl
        · rw [← h']
          split
          · exact .going rfl
          · exact .going (h2 s' _ _ (width_initSlots _))
      · exact .broken _
    · exact .broken _
  · unfold stepReplay
    split
    · refine fix_andThen (replayStep_fix (fun s l r sl k => h2 s s.phase _ rfl) s) fun s' h' => ?_
      rw [← h']
      split
      · exact .going rfl
      · split
        · exact .going (h1 s' _ _ _ (width_takeRoot _))
        · exact .going (h5 s' _ _ _ _ (width_takeRoot _))
    · exact .broken _
  · unfold stepRewind
    exact .going (h3 s .pack [] { s.inp with taken := [], ahead := s.inp.taken ++ s.inp.ahead } _)
  · unfold stepPack
    split
    · exact emitByte_fix (fun s pb o r tr =>
        hf s s.phase s.arena s.table pb s.cur s.serIdx s.bits s.inp s.tree o r tr rfl) s
    · obtain ⟨x, i, h⟩ | h | h := inRead_cases s
      · simp only [h]
        exact .going (h3 s s.phase _ i _)
      · simp only [h]
        have hs : f (note (.inRead none) s) = f s := h3 s s.phase s.pbuf s.inp _
        rw [← hs]
        refine fix_andThen (padFill_fix (fun s ph pb => h3 s ph pb s.inp s.trace) _) fun s' h' => ?_
        split
        · exact .ended h'
        · exact .going h'
      · simp only [h]; exact .waiting rfl
  · exact fix_andThen (padEmit_fix (fun s pb o r tr =>
      hf s s.phase s.arena s.table pb s.cur s.serIdx s.bits s.inp s.tree o r tr rfl) s) fun s' h' => .ended h'
  · unfold stepUnpack
    split
    · exact fix_andThen (emitSymbol_fix (fun s cu o r tr =>
        hf s s.phase s.arena s.table s.pbuf cu s.serIdx s.bits s.inp s.tree o r tr rfl) s) fun s' h' => h' ▸ hdesc _ s'
    · obtain ⟨x, i, h⟩ | h | h := inRead_cases s
      · simp only [h]
        have hs : f (note (.inRead (some x)) { s with inp := i }) = f s := h4 s s.phase s.cur s.bits i _
        rw [← hs]
        exact hdesc _ _
      · simp only [h]
        exact .ended (h4 s s.phase s.cur s.bits s.inp _)
      · simp only [h]; exact .waiting rfl

/-- A body as a whole writes only the same (R8, R28, R29, R30). -/
theorem bodyOf_fix
    (hf : ∀ s ph a t pb cu si bs i tr o r ev, a.weightWidth = s.arena.weightWidth → f { s with
      phase := ph, arena := a, table := t, pbuf := pb, cur := cu, serIdx := si, bits := bs, inp := i,
      tree := tr, out := o, outReady := r, trace := ev } = f s)
    (i : Instr) (s : State) : (bodyOf i s).Fix f (f s) := by
  have hbuild : ∀ s ph a, a.weightWidth = s.arena.weightWidth →
      f { s with phase := ph, arena := a } = f s := fun s ph a =>
    hf s ph a s.table s.pbuf s.cur s.serIdx s.bits s.inp s.tree s.out s.outReady s.trace
  have hacc := accumulate_fix (f := f) fun s ph w tot i tr =>
    hf s ph _ s.table s.pbuf s.cur s.serIdx s.bits i s.tree s.out s.outReady tr rfl
  have hser := serialize_fix (f := f) fun s ph i o r tr =>
    hf s ph s.arena s.table s.pbuf s.cur i s.bits s.inp s.tree o r tr rfl
  have hrep := deserReplay_fix (f := f) fun s ph _ _ _ _ _ => hbuild s ph _ rfl
  have hder := derive_fix (f := f) fun s ph t =>
    hf s ph s.arena t s.pbuf s.cur s.serIdx s.bits s.inp s.tree s.out s.outReady s.trace rfl
  have hpack := packPhase_fix (f := f) fun s ph pb i o r tr =>
    hf s ph s.arena s.table pb s.cur s.serIdx s.bits i s.tree o r tr rfl
  have hunp := unpackPhase_fix (f := f) fun s ph cu bs i o r tr =>
    hf s ph s.arena s.table s.pbuf cu s.serIdx bs i s.tree o r tr rfl
  have hread := fun p => deserRead_fix (f := f) (p := p) fun s ph m n q tr => by
    cases p
    · exact hf s ph _ s.table s.pbuf s.cur s.serIdx s.bits q s.tree s.out s.outReady tr rfl
    · exact hf s ph _ s.table s.pbuf s.cur s.serIdx s.bits s.inp q s.out s.outReady tr rfl
  have hrew : ∀ s, f (inRewind s) = f s := fun s =>
    hf s s.phase s.arena s.table s.pbuf s.cur s.serIdx s.bits
      { s.inp with taken := [], ahead := s.inp.taken ++ s.inp.ahead } s.tree s.out s.outReady
      (.inRewind :: s.trace) rfl
  cases i with
  | buildTree =>
    exact fix_andThen (fix_andThen (hacc s) fun s h => h ▸ buildPhase_fix (fun s ph a hw _ => hbuild s ph a hw) s) fun s h => h ▸ hser s
  | encode =>
    exact fix_andThen (fix_andThen (fix_andThen (fix_andThen (hacc s) fun s h =>
      h ▸ buildPhase_fix (fun s ph a hw _ => hbuild s ph a hw) s) fun s h => h ▸ hser s) fun s h => h ▸ hder s)
      fun s h => (h ▸ hrew s) ▸ hpack (inRewind s)
  | decode =>
    exact fix_andThen (fix_andThen (hread _ s) fun s h => h ▸ hrep s) fun s h => h ▸ hunp s
  | encodeExt =>
    exact fix_andThen (fix_andThen (fix_andThen (fix_andThen (hread _ s) fun s h =>
      h ▸ hrep s) fun s h => h ▸ hser s) fun s h => h ▸ hder s) fun s h => h ▸ hpack s

end

end Sys2Proof.Machine
end

