-- ==== Sys2Proof/Laws/Outcomes.lean ====
section
/-! SUPPORT. Outcomes: how each phase may stop, whatever the host does. None breaks on a state a command
brings it, and each raises only the errors the spec gives it (R210, R223). -/

namespace Sys2Proof.Machine

/-- The stretch never breaks; it goes on only with `go`, and raises only an error allowed by `bad`. -/
inductive Run.Post (go : State → Prop) (bad : ErrCode → Prop) : Run → Prop where
  | going {s : State} (h : go s) : Run.Post go bad (.going s)
  | waiting (s : State) : Run.Post go bad (.waiting s)
  | raised {e : ErrCode} (i : BitVec 16) (s : State) (h : bad e) : Run.Post go bad (.raised e i s)
  | ended (s : State) : Run.Post go bad (.ended s)

section
variable {go go' : State → Prop} {bad : ErrCode → Prop}

theorem post_andThen {r : Run} {g : State → Run} (h : r.Post go bad) (hg : ∀ s, go s → (g s).Post go' bad) :
    (r.andThen g).Post go' bad := by
  cases h with
  | going h => exact hg _ h
  | waiting s => exact .waiting s
  | raised i s h => exact .raised i s h
  | ended s => exact .ended s

theorem post_mono {bad' : ErrCode → Prop} {r : Run} (h : r.Post go bad) (h1 : ∀ s, go s → go' s)
    (h2 : ∀ e, bad e → bad' e) : r.Post go' bad' := by
  cases h with
  | going h => exact .going (h1 _ h)
  | waiting s => exact .waiting s
  | raised i s h => exact .raised i s (h2 _ h)
  | ended s => exact .ended s

/-- What a phase leaves fixed is so where the next one starts. -/
theorem post_fix {α : Type} {f : State → α} {c : α} {r : Run} (h : r.Post go bad) (hf : r.Fix f c) :
    r.Post (fun s => go s ∧ f s = c) bad := by
  cases h with
  | going h => exact .going ⟨h, by cases hf; assumption⟩
  | waiting s => exact .waiting s
  | raised i s h => exact .raised i s h
  | ended s => exact .ended s

theorem readLoop_post {body : Byte → State → Run} (hr : ∀ s i tr, go s → go { s with inp := i, trace := tr })
    (hb : ∀ x s, go s → (body x s).Post go bad) (n : Nat) : ∀ s, go s → (readLoop body n s).Post go bad := by
  induction n with
  | zero => intro s _; exact .waiting s
  | succ n ih =>
    intro s hs
    rw [readLoop]
    obtain ⟨x, i, h⟩ | h | h := inRead_cases s
    · simp only [h]
      exact post_andThen (hb x _ (hr s i _ hs)) ih
    · simp only [h]; exact .going (hr s s.inp _ hs)
    · simp only [h]; exact .waiting s

/-- ACCUMULATE raises only `WEIGHT_OVERFLOW` (R100). -/
theorem accumulate_post (s : State) : (accumulate s).Post (fun _ => True) (· = .weightOverflow) := by
  refine readLoop_post (fun _ _ _ _ => trivial) (fun x s _ => ?_) _ _ trivial
  unfold accByte
  split
  · exact .raised _ _ rfl
  · exact .going trivial

/-- BUILD cannot fail, and leaves a tree (R110). -/
theorem buildPhase_post (s : State) : (buildPhase s).Post (fun t => Tree t.arena) (fun _ => False) := by
  obtain ⟨a, h1, h2, h3⟩ := buildArena_spec s.arena
  rw [buildPhase_eq h1]
  exact .going h2

/-- SERIALIZE raises nothing (R130). -/
theorem serialize_post (s : State) : (serialize s).Post (fun _ => True) (fun _ => False) := by
  have hl : ∀ n s, (serLoop n s).Post (fun _ => True) (fun _ => False) := by
    intro n
    induction n with
    | zero => intro s; exact .going trivial
    | succ n ih =>
      intro s
      refine post_andThen (go := fun _ => True) ?_ fun s _ => ih s
      unfold serByte
      split
      · exact .going trivial
      · exact .waiting _
  exact hl _ _

/-- DESER_READ raises only `TRUNCATED_TREE` (R133). -/
theorem deserRead_post (p : StreamSel) (s : State) :
    (deserRead p s).Post (fun _ => True) (· = .truncatedTree) := by
  have hl : ∀ n s, (deserReadLoop p n s).Post (fun _ => True) (· = .truncatedTree) := by
    intro n
    induction n with
    | zero => intro s; exact .going trivial
    | succ n ih =>
      intro s
      refine post_andThen (go := fun _ => True) ?_ fun s _ => ih s
      unfold deserReadByte
      split
      · exact .going trivial
      · exact .raised _ _ rfl
      · exact .waiting _
  exact hl _ _

/-- One pair of DESER_REPLAY, on a forest that is not yet one tree: it is linked, or refused (R134). -/
theorem replayPair_forest {a : Arena} (F : Forest a) (hk : a.k.toNat < 255) :
    (∃ e, replayPair a = .error e ∧ (e = .malformedEmptySlot ∨ e = .malformedPairOrder)) ∨
    ∃ lo hi, replayPair a = .ok (linkPair lo hi a) ∧ Forest (linkPair lo hi a) := by
  by_cases h1 : a.slotAt (a.mseqAt (2 * a.k.toNat)) = emptySlot ∨
      a.slotAt (a.mseqAt (2 * a.k.toNat + 1)) = emptySlot
  · exact .inl ⟨_, by simp only [replayPair, h1, if_true], .inl rfl⟩
  · by_cases h2 : a.mseqAt (2 * a.k.toNat) < a.mseqAt (2 * a.k.toNat + 1)
    · refine .inr ⟨_, _, by simp only [replayPair, h1, if_false, h2, not_true]; rfl, ?_⟩
      rw [not_or] at h1
      exact linkPair_forest F hk h1.1 h1.2 h2
    · exact .inl ⟨_, by simp only [replayPair, h1, if_false, h2, not_false_iff, if_true], .inr rfl⟩

/-- DESER_REPLAY raises only the two malformed-tree errors, and goes on only with a tree (R134, R136). -/
theorem deserReplay_post (s : State) : (deserReplay s).Post (fun t => Tree t.arena)
    (fun e => e = .malformedEmptySlot ∨ e = .malformedPairOrder) := by
  have hl : ∀ n s, Forest s.arena → s.arena.k.toNat + n = 255 →
      (replayLoop n s).Post (fun t => Forest t.arena ∧ t.arena.k.toNat = 255)
        (fun e => e = .malformedEmptySlot ∨ e = .malformedPairOrder) := by
    intro n
    induction n with
    | zero => intro s F h; exact .going ⟨F, by omega⟩
    | succ n ih =>
      intro s F h
      rw [replayLoop]
      obtain ⟨e, h1, h2⟩ | ⟨lo, hi, h1, h2⟩ := replayPair_forest F (by omega)
      · simp only [replayStep, h1]; exact .raised _ _ h2
      · simp only [replayStep, h1]
        refine ih _ h2 ?_
        show (linkPair lo hi s.arena).k.toNat + n = 255
        rw [k_linkPair, toNat_succ_k (by omega)]; omega
  refine post_andThen (hl 255 (enterReplay s) (initSlots_forest s.arena) (by simp)) fun t h => ?_
  exact .going (takeRoot_tree h.1 h.2)

/-- DERIVE on a tree cannot fail, and leaves its code (R151). -/
theorem derive_post {s : State} (T : Tree s.arena) :
    (derive s).Post (fun t => CodesOf t.arena t.table) (fun _ => False) := by
  obtain ⟨t, h, C⟩ := derive_spec T
  rw [h]
  exact .going C

/-- PACK and PAD under a tree's code raise nothing (R165). -/
theorem packPhase_post {a : Arena} {s : State} (C : CodesOf a s.table) :
    (packPhase s).Post (fun _ => True) (fun _ => False) := by
  have he : ∀ n s, 8 * n ≤ s.pbuf.length → CodesOf a s.table → (emitLoop n s).Post
      (fun t => CodesOf a t.table ∧ t.pbuf.length = s.pbuf.length - 8 * n) (fun _ => False) := by
    intro n
    induction n with
    | zero => intro s _ C; exact .going ⟨C, rfl⟩
    | succ n ih =>
      intro s hl C
      rw [emitLoop, emitByte]
      split
      · next s' h =>
        obtain ⟨r, rfl⟩ := outWrite_spec h
        have hd : (s.pbuf.drop 8).length = s.pbuf.length - 8 := List.length_drop
        refine post_mono (ih _ (by show 8 * n ≤ (s.pbuf.drop 8).length; omega) C) ?_ fun _ h => h
        rintro t ⟨h1, h2⟩
        refine ⟨h1, h2.trans ?_⟩
        show (s.pbuf.drop 8).length - 8 * n = _
        omega
      · exact .waiting _
  refine post_andThen (go := fun t => CodesOf a t.table ∧ t.pbuf.length < 8) ?_ ?_
  · refine readLoop_post (fun s i tr h => h) (fun x s h => ?_) _ _ ⟨C, by simp [enterPack]⟩
    rw [packByte]
    refine post_mono (he _ (appendCode x s) (by omega) h.1) ?_ fun _ h => h
    rintro t ⟨h1, h2⟩
    exact ⟨h1, by omega⟩
  · rintro t ⟨C, hl⟩
    refine post_andThen (go := fun _ => True) ?_ fun s _ => ?_
    · unfold padFill
      split
      · exact .going trivial
      · next hne =>
        have hpos := List.length_pos_iff.2 hne
        obtain ⟨v, hv, -⟩ := padChoice_some C (need := padNeed t) (by rw [padNeed]; omega)
        rw [hv]
        exact .going trivial
    · unfold padEmit
      split
      · exact .going trivial
      · split
        · exact .going trivial
        · exact .waiting _

/-- UNPACK raises nothing (R183). -/
theorem unpackPhase_post (s : State) : (unpackPhase s).Post (fun _ => True) (fun _ => False) := by
  have hb : ∀ bs s, (unpackBits bs s).Post (fun _ => True) (fun _ => False) := by
    intro bs
    induction bs with
    | nil => intro s; exact .going trivial
    | cons b rest ih =>
      intro s
      rw [unpackBits]
      refine post_andThen (go := fun _ => True) ?_ fun s1 _ => ?_
      · unfold moveDown
        split
        · exact .going trivial
        · exact .ended _
      · split
        · refine post_andThen (go := fun _ => True) ?_ fun s2 _ => ih s2
          unfold emitSymbol
          split
          · exact .going trivial
          · exact .waiting _
        · exact ih s1
  exact readLoop_post (fun _ _ _ _ => trivial) (fun x s _ => hb (bits8 x) s) _ _ trivial

/-- A body never breaks, and raises neither `PAD_UNAVAILABLE` nor an error without a code (R165, R223). -/
theorem bodyOf_post (i : Instr) (s : State) :
    (bodyOf i s).Post (fun _ => True) (fun e => e ≠ .padUnavailable ∧ e ≠ .none) := by
  have hacc : ∀ s, (accumulate s).Post (fun _ => True) (fun e => e ≠ .padUnavailable ∧ e ≠ .none) :=
    fun s => post_mono (accumulate_post s) (fun _ h => h) (by rintro e rfl; decide)
  have hread : ∀ p s, (deserRead p s).Post (fun _ => True) (fun e => e ≠ .padUnavailable ∧ e ≠ .none) :=
    fun p s => post_mono (deserRead_post p s) (fun _ h => h) (by rintro e rfl; decide)
  have hbuild : ∀ s, (buildPhase s).Post (fun t => Tree t.arena) (fun e => e ≠ .padUnavailable ∧ e ≠ .none) :=
    fun s => post_mono (buildPhase_post s) (fun _ h => h) fun e h => h.elim
  have hrep : ∀ s, (deserReplay s).Post (fun t => Tree t.arena) (fun e => e ≠ .padUnavailable ∧ e ≠ .none) :=
    fun s => post_mono (deserReplay_post s) (fun _ h => h) (by rintro e (rfl | rfl) <;> decide)
  have hser : ∀ s, (serialize s).Post (fun t => True ∧ t.arena = s.arena)
      (fun e => e ≠ .padUnavailable ∧ e ≠ .none) :=
    fun s => post_fix (post_mono (serialize_post s) (fun _ h => h) fun e h => h.elim)
      (serialize_fix (f := fun s => s.arena) (by intros; rfl) s)
  cases i with
  | buildTree =>
    exact post_andThen (post_andThen (hacc s) fun s _ => hbuild s) fun s _ => post_mono (hser s)
      (fun _ _ => trivial) fun _ h => h
  | encode =>
    refine post_andThen (go := fun t => CodesOf t.arena t.table) (post_andThen (go := fun t => Tree t.arena)
      (post_andThen (post_andThen (hacc s) fun s _ => hbuild s) fun s T => ?_) fun s T => ?_) fun s C => ?_
    · exact post_mono (hser s) (fun _ h => h.2 ▸ T) fun _ h => h
    · exact post_mono (derive_post T) (fun _ h => h) fun e h => h.elim
    · exact post_mono (packPhase_post (a := s.arena) C) (fun _ h => h) fun e h => h.elim
  | decode =>
    exact post_andThen (post_andThen (hread _ s) fun s _ => hrep s) fun s _ =>
      post_mono (unpackPhase_post s) (fun _ h => h) fun e h => h.elim
  | encodeExt =>
    refine post_andThen (go := fun t => CodesOf t.arena t.table) (post_andThen (go := fun t => Tree t.arena)
      (post_andThen (post_andThen (hread _ s) fun s _ => hrep s) fun s T => ?_) fun s T => ?_) fun s C => ?_
    · exact post_mono (hser s) (fun _ h => h.2 ▸ T) fun _ h => h
    · exact post_mono (derive_post T) (fun _ h => h) fun e h => h.elim
    · exact post_mono (packPhase_post (a := s.arena) C) (fun _ h => h) fun e h => h.elim

end

end Sys2Proof.Machine
end

