-- ==== Sys2Proof/Laws/History.lean ====
section
/-! SUPPORT. Two runs side by side: a command's phases do the same from two states that show a host the same
streams and registers, whatever working state an earlier command left (R47, R242). -/

namespace Sys2Proof.Machine

/-- What a host can see of a state, and the streams (R43, R51). -/
def visible (s : State) : InPort × InPort × List Byte × OutReady × List PortEvent × EngState × Bool ×
    ErrCode × BitVec 8 × BitVec 16 :=
  (s.inp, s.tree, s.out, s.outReady, s.trace, s.status, s.ovr, s.err, s.lastOp, s.info)

/-- The working state a phase hands to the next (R20). -/
def working (s : State) : Arena × CodeTable × BitString × NodeIdx × Nat :=
  (s.arena, s.table, s.pbuf, s.cur, s.serIdx)

/-- A relation between two working states. -/
abbrev WorkRel :=
  Arena × CodeTable × BitString × NodeIdx × Nat → Arena × CodeTable × BitString × NodeIdx × Nat → Prop

/-- Two stretches that end alike; where they go on, their working states are related. -/
inductive Run.Twin (D : WorkRel) : Run → Run → Prop where
  | going {s s' : State} (h : visible s' = visible s) (d : D (working s) (working s')) :
    Run.Twin D (.going s) (.going s')
  | waiting {s s' : State} (h : visible s' = visible s) : Run.Twin D (.waiting s) (.waiting s')
  | raised {s s' : State} (e : ErrCode) (i : BitVec 16) (h : visible s' = visible s) :
    Run.Twin D (.raised e i s) (.raised e i s')
  | ended {s s' : State} (h : visible s' = visible s) : Run.Twin D (.ended s) (.ended s')

section
variable {D D' : WorkRel}

theorem twin_andThen {r r' : Run} {f f' : State → Run} (h : r.Twin D r')
    (hf : ∀ s s', visible s' = visible s → D (working s) (working s') → (f s).Twin D' (f' s')) :
    (r.andThen f).Twin D' (r'.andThen f') := by
  cases h with
  | going h d => exact hf _ _ h d
  | waiting h => exact .waiting h
  | raised e i h => exact .raised e i h
  | ended h => exact .ended h

theorem twin_mono {r r' : Run} (h : r.Twin D r') (hd : ∀ w w', D w w' → D' w w') : r.Twin D' r' := by
  cases h with
  | going h d => exact .going h (hd _ _ d)
  | waiting h => exact .waiting h
  | raised e i h => exact .raised e i h
  | ended h => exact .ended h

/-! ### The stream primitives -/

theorem inRead_twin {s s' : State} (h : visible s' = visible s) :
    (∃ x i, inRead s = .byte x (note (.inRead (some x)) { s with inp := i }) ∧
      inRead s' = .byte x (note (.inRead (some x)) { s' with inp := i })) ∨
    (inRead s = .eos (note (.inRead none) s) ∧ inRead s' = .eos (note (.inRead none) s')) ∨
    (inRead s = .blocked ∧ inRead s' = .blocked) := by
  have hi : s'.inp = s.inp := congrArg (·.1) h
  unfold inRead
  rw [hi]
  cases s.inp.ahead with
  | cons b rest => exact .inl ⟨b, _, rfl, rfl⟩
  | nil =>
    cases s.inp.ended with
    | true => exact .inr (.inl ⟨rfl, rfl⟩)
    | false => exact .inr (.inr ⟨rfl, rfl⟩)

theorem visible_note {s s' : State} (e : PortEvent) (h : visible s' = visible s) :
    visible (note e s') = visible (note e s) := by
  simp only [visible, Prod.mk.injEq] at h ⊢
  simp [note, h]

theorem visible_read {s s' : State} (e : PortEvent) (i : InPort) (h : visible s' = visible s) :
    visible (note e { s' with inp := i }) = visible (note e { s with inp := i }) := by
  simp only [visible, Prod.mk.injEq] at h ⊢
  simp [note, h]

theorem portRead_twin (p : StreamSel) {s s' : State} (h : visible s' = visible s) :
    (∃ x q, portRead p s = .byte x (note (readEvent p (some x)) (setPort p q s)) ∧
      portRead p s' = .byte x (note (readEvent p (some x)) (setPort p q s'))) ∨
    (portRead p s = .eos (note (readEvent p none) s) ∧
      portRead p s' = .eos (note (readEvent p none) s')) ∨
    (portRead p s = .blocked ∧ portRead p s' = .blocked) := by
  cases p with
  | inStream => exact inRead_twin h
  | treeStream =>
    have hi : s'.tree = s.tree := congrArg (·.2.1) h
    simp only [portRead, treeRead]
    rw [hi]
    cases s.tree.ahead with
    | cons b rest => exact .inl ⟨b, _, rfl, rfl⟩
    | nil =>
      cases s.tree.ended with
      | true => exact .inr (.inl ⟨rfl, rfl⟩)
      | false => exact .inr (.inr ⟨rfl, rfl⟩)

theorem visible_portRead (p : StreamSel) {s s' : State} (e : PortEvent) (q : InPort)
    (h : visible s' = visible s) :
    visible (note e (setPort p q s')) = visible (note e (setPort p q s)) := by
  cases p with
  | inStream => exact visible_read e q h
  | treeStream =>
    simp only [visible, Prod.mk.injEq] at h ⊢
    simp [note, setPort, h]

theorem outWrite_twin (b : Byte) {s s' : State} (h : visible s' = visible s) :
    (∃ r, outWrite b s = some { s with out := s.out ++ [b], outReady := r, trace := .outWrite b :: s.trace } ∧
      outWrite b s' =
        some { s' with out := s'.out ++ [b], outReady := r, trace := .outWrite b :: s'.trace }) ∨
    (outWrite b s = none ∧ outWrite b s' = none) := by
  have hr : s'.outReady = s.outReady := congrArg (·.2.2.2.1) h
  unfold outWrite
  rw [hr]
  cases hs : s.outReady with
  | always => exact .inl ⟨.always, by simp [note, ← hs], by simp [note, ← hs, ← hr]⟩
  | upTo n =>
    cases n with
    | zero => exact .inr ⟨rfl, rfl⟩
    | succ n => exact .inl ⟨_, rfl, rfl⟩

theorem visible_write {s s' : State} (b : Byte) (r : OutReady) (h : visible s' = visible s) :
    visible { s' with out := s'.out ++ [b], outReady := r, trace := .outWrite b :: s'.trace } =
      visible { s with out := s.out ++ [b], outReady := r, trace := .outWrite b :: s.trace } := by
  simp only [visible, Prod.mk.injEq] at h ⊢
  simp [h]

theorem readLoop_twin {body : Byte → State → Run}
    (hb : ∀ x s s', visible s' = visible s → D (working s) (working s') → (body x s).Twin D (body x s'))
    (n : Nat) : ∀ s s', visible s' = visible s → D (working s) (working s') →
      (readLoop body n s).Twin D (readLoop body n s') := by
  induction n with
  | zero => intro s s' h _; exact .waiting h
  | succ n ih =>
    intro s s' h d
    rw [readLoop, readLoop]
    obtain ⟨x, i, h1, h2⟩ | ⟨h1, h2⟩ | ⟨h1, h2⟩ := inRead_twin h
    · simp only [h1, h2]; exact twin_andThen (hb x _ _ (visible_read _ i h) d) ih
    · simp only [h1, h2]; exact .going (visible_note _ h) d
    · simp only [h1, h2]; exact .waiting h

/-! ### The phases -/

/-- Two arenas of one width with the same frequency table (R8, R33, R34). -/
def SameCounts (a a' : Arena) : Prop :=
  a'.weightWidth = a.weightWidth ∧ (∀ v, a'.weightAt (leafNode v) = a.weightAt (leafNode v)) ∧ a'.total = a.total

/-- Two arenas with the same finished tree and record (R37, R38). -/
def SameTree (a a' : Arena) : Prop :=
  Tree a ∧ a'.mseq = a.mseq ∧ a'.left = a.left ∧ a'.right = a.right ∧ a'.root = a.root

/-- ACCUMULATE from two states that show the same (R100). -/
theorem accumulate_twin {s s' : State} (hw : s'.arena.weightWidth = s.arena.weightWidth)
    (h : visible s' = visible s) :
    (accumulate s).Twin (fun w w' => SameCounts w.1 w'.1) (accumulate s') := by
  have hi : s'.inp = s.inp := congrArg (·.1) h
  unfold accumulate
  rw [hi]
  refine readLoop_twin (D := fun w w' => SameCounts w.1 w'.1) (fun x t t' ht d => ?_) _ _ _ (by exact h)
    ⟨?_, fun v => ?_, rfl⟩
  · obtain ⟨d0, d1, d2⟩ := d
    have d0 : t'.arena.weightWidth = t.arena.weightWidth := d0
    have d2 : t'.arena.total = t.arena.total := d2
    unfold accByte Arena.maxInput
    rw [d0, d2]
    split
    · exact .raised _ _ ht
    · refine .going (by exact ht) ⟨d0, fun v => ?_, ?_⟩
      · show (countByte x t'.arena).weightAt _ = (countByte x t.arena).weightAt _
        rw [weightAt_countByte, weightAt_countByte]
        have := d1 v
        simp only [working] at this
        rw [this, Arena.fit, Arena.fit, d0]
      · show (countByte x t'.arena).total = (countByte x t.arena).total
        rw [total_countByte, total_countByte, Arena.fit, Arena.fit, d0, d2]
  · show (clearWeights s'.arena).weightWidth = (clearWeights s.arena).weightWidth
    rw [width_clearWeights, width_clearWeights, hw]
  · show (clearWeights s'.arena).weightAt _ = (clearWeights s.arena).weightAt _
    have := v.isLt
    rw [weightAt_clearWeights, weightAt_clearWeights, leafNode_toNat, if_pos (by omega), if_pos (by omega)]

/-- BUILD from two states with the same frequency table (R119). -/
theorem buildPhase_twin {s s' : State} (h : visible s' = visible s) (d : SameCounts s.arena s'.arena) :
    (buildPhase s).Twin (fun w w' => SameTree w.1 w'.1) (buildPhase s') := by
  obtain ⟨b, b', h1, h2, e1, e2, e3, e4, -⟩ := buildArena_alike (a := s.arena) (a' := s'.arena)
    d.1 fun v => (d.2.1 v).symm
  obtain ⟨c, g1, T, -⟩ := buildArena_spec s.arena
  obtain rfl := Option.some.inj (h1.symm.trans g1)
  rw [buildPhase_eq h1, buildPhase_eq h2]
  exact .going (by exact h) ⟨T, e1.symm, e2.symm, e3.symm, e4.symm⟩

/-- SERIALIZE of the same record (R130). -/
theorem serialize_twin {s s' : State} (h : visible s' = visible s) (d : SameTree s.arena s'.arena) :
    (serialize s).Twin (fun w w' => SameTree w.1 w'.1) (serialize s') := by
  have hl : ∀ n s s', visible s' = visible s → SameTree s.arena s'.arena → s'.serIdx = s.serIdx →
      (serLoop n s).Twin (fun w w' => SameTree w.1 w'.1 ∧ w'.2.2.2.2 = w.2.2.2.2) (serLoop n s') := by
    intro n
    induction n with
    | zero => intro s s' h d e; exact .going h ⟨d, e⟩
    | succ n ih =>
      intro s s' h d e
      refine twin_andThen (D := fun w w' => SameTree w.1 w'.1 ∧ w'.2.2.2.2 = w.2.2.2.2) ?_
        fun t t' ht d' => ih t t' ht d'.1 d'.2
      have hm : s'.arena.mseqAt s'.serIdx = s.arena.mseqAt s.serIdx := by rw [Arena.mseqAt, d.2.1, e]; rfl
      unfold serByte
      rw [hm]
      obtain ⟨r, h1, h2⟩ | ⟨h1, h2⟩ := outWrite_twin (s.arena.mseqAt s.serIdx) h
      · rw [h1, h2]
        exact .going (by exact visible_write _ r h) ⟨d, by show s'.serIdx + 1 = s.serIdx + 1; rw [e]⟩
      · rw [h1, h2]; exact .waiting h
  exact twin_mono (hl 510 (enterSer s) (enterSer s') (by exact h) d rfl) fun _ _ d => d.1

theorem sameTree_tree {a a' : Arena} (d : SameTree a a') : Tree a' := by
  obtain ⟨T, -, hl, hr, ht⟩ := d
  have hc : ∀ n b, a'.child n b = a.child n b := by intro n b; simp only [Arena.child, hl, hr]
  exact {
    root_internal := ht ▸ T.root_internal
    root_node := ht ▸ T.root_node
    ordered := fun n h1 h2 b => by rw [hc]; exact T.ordered n h1 h2 b
    cover := fun v => by simpa only [follow_ext hl hr, ht] using T.cover v
    once := fun v p q => by simpa only [follow_ext hl hr, ht] using T.once v p q }

/-- DERIVE from the same tree, whatever the tables held (R150, R151). -/
theorem derive_twin {s s' : State} (h : visible s' = visible s) (d : SameTree s.arena s'.arena) :
    (derive s).Twin (fun w w' => w'.2.1 = w.2.1) (derive s') := by
  obtain ⟨t, h1, C⟩ := derive_spec d.1
  obtain ⟨t', h1', C'⟩ := derive_spec (sameTree_tree d)
  rw [h1, h1']
  exact .going (by exact h) (table_ext d.1 C C' d.2.2.1 d.2.2.2.1 d.2.2.2.2)

/-- PACK and PAD under the same code table (R160, R163). -/
theorem packPhase_twin {s s' : State} (h : visible s' = visible s) (d : s'.table = s.table) :
    (packPhase s).Twin (fun _ _ => True) (packPhase s') := by
  have hi : s'.inp = s.inp := congrArg (·.1) h
  let P : WorkRel := fun w w' => w'.2.1 = w.2.1 ∧ w'.2.2.1 = w.2.2.1
  have he : ∀ n s s', visible s' = visible s → P (working s) (working s') →
      (emitLoop n s).Twin P (emitLoop n s') := by
    intro n
    induction n with
    | zero => intro s s' h d; exact .going h d
    | succ n ih =>
      intro s s' h d
      refine twin_andThen (D := P) ?_ ih
      have hp : s'.pbuf = s.pbuf := d.2
      unfold emitByte
      rw [hp]
      obtain ⟨r, h1, h2⟩ | ⟨h1, h2⟩ := outWrite_twin (pack8 (s.pbuf.take 8)) h
      · rw [h1, h2]; exact .going (by exact visible_write _ r h) ⟨d.1, rfl⟩
      · rw [h1, h2]; exact .waiting h
  unfold packPhase
  rw [hi]
  refine twin_andThen (D := P) (readLoop_twin (fun x t t' ht d => ?_) _ _ _ (by exact h) ⟨d, rfl⟩)
    fun t t' ht d => ?_
  · have h1 : t'.table = t.table := d.1
    have h2 : t'.pbuf = t.pbuf := d.2
    have h3 : (appendCode x t').pbuf = (appendCode x t).pbuf := by simp only [appendCode, h1, h2]
    unfold packByte
    rw [h3]
    exact he _ _ _ (by exact ht) ⟨d.1, h3⟩
  · have h1 : t'.table = t.table := d.1
    have h2 : t'.pbuf = t.pbuf := d.2
    refine twin_andThen (D := P) ?_ fun u u' hu d => ?_
    · unfold padFill padNeed
      rw [h1, h2]
      split
      · exact .going ht d
      · split
        · exact .raised _ _ (by exact ht)
        · exact .going (by exact ht) ⟨rfl, rfl⟩
    · have h2 : u'.pbuf = u.pbuf := d.2
      unfold padEmit
      rw [h2]
      split
      · exact .going hu trivial
      · obtain ⟨r, h3, h4⟩ | ⟨h3, h4⟩ := outWrite_twin (pack8 u.pbuf) hu
        · rw [h3, h4]; exact .going (by exact visible_write _ r hu) trivial
        · rw [h3, h4]; exact .waiting hu

/-- DESER_READ from two states that show the same: all of `MSEQ` is overwritten (R133). -/
theorem deserRead_twin (p : StreamSel) {s s' : State} (h : visible s' = visible s) :
    (deserRead p s).Twin (fun w w' => w'.1.mseq = w.1.mseq) (deserRead p s') := by
  let P : WorkRel := fun w w' =>
    w'.1.tcnt = w.1.tcnt ∧ ∀ j, j < w.1.tcnt.toNat → w'.1.mseqAt j = w.1.mseqAt j
  have hl : ∀ n s s', visible s' = visible s → s.arena.tcnt.toNat + n = 510 → P (working s) (working s') →
      (deserReadLoop p n s).Twin (fun w w' => P w w' ∧ w.1.tcnt.toNat = 510) (deserReadLoop p n s') := by
    intro n
    induction n with
    | zero => intro s s' h hn d; exact .going h ⟨d, by show s.arena.tcnt.toNat = 510; omega⟩
    | succ n ih =>
      intro s s' h hn d
      have h1 : s'.arena.tcnt = s.arena.tcnt := d.1
      refine twin_andThen (D := fun w w' => P w w' ∧ w.1.tcnt.toNat = s.arena.tcnt.toNat + 1) ?_
        fun t t' ht d => ih t t' ht (by have := d.2; simp only [working] at this; omega) d.1
      unfold deserReadByte
      obtain ⟨x, q, g1, g2⟩ | ⟨g1, g2⟩ | ⟨g1, g2⟩ := portRead_twin p h
      · rw [g1, g2]
        have hv := visible_portRead p (readEvent p (some x)) q h
        have hs : (s.arena.tcnt + 1).toNat = s.arena.tcnt.toNat + 1 := by
          have : (1 : BitVec 10).toNat = 1 := rfl
          rw [BitVec.toNat_add, this]; omega
        refine .going (by exact hv) ⟨⟨?_, fun j hj => ?_⟩, ?_⟩
        · show (storeTreeByte x (note _ (setPort p q s')).arena).tcnt =
            (storeTreeByte x (note _ (setPort p q s)).arena).tcnt
          cases p <;> exact congrArg (· + 1) h1
        · have hj : j < s.arena.tcnt.toNat + 1 := by
            rw [← hs]
            cases p <;> exact hj
          have key : (s'.arena.setMseq s'.arena.tcnt.toNat x).mseqAt j =
              (s.arena.setMseq s.arena.tcnt.toNat x).mseqAt j := by
            rw [mseqAt_setMseq _ _ _ _ (by rw [h1]; omega), mseqAt_setMseq _ _ _ _ (by omega), h1]
            split
            · rfl
            · exact d.2 j (by show j < s.arena.tcnt.toNat; omega)
          cases p <;> exact key
        · cases p <;> exact hs
      · rw [g1, g2]
        have : (note (readEvent p none) s').arena.tcnt = (note (readEvent p none) s).arena.tcnt := h1
        simp only [this]
        exact .raised _ _ (visible_note _ h)
      · rw [g1, g2]; exact .waiting h
  refine twin_mono (hl 510 (enterDeserRead s) (enterDeserRead s') (by exact h) rfl
    ⟨rfl, fun j hj => absurd hj (Nat.not_lt_zero j)⟩) ?_
  rintro w w' ⟨⟨-, d⟩, hk⟩
  refine Vector.ext fun j hj => ?_
  have hj : j < 510 := hj
  have := d j (by omega)
  simp only [Arena.mseqAt] at this
  rw [Vector.getElem?_eq_getElem hj, Vector.getElem?_eq_getElem hj] at this
  exact this

/-- DESER_REPLAY of the same record (R134). -/
theorem deserReplay_twin {s s' : State} (h : visible s' = visible s) (d : s'.arena.mseq = s.arena.mseq) :
    (deserReplay s).Twin (fun w w' => SameTree w.1 w'.1) (deserReplay s') := by
  let P : WorkRel := fun w w' => Forest w.1 ∧ w'.1.mseq = w.1.mseq ∧ w'.1.k = w.1.k ∧
    (∀ i, w'.1.slotAt i = w.1.slotAt i) ∧
    ∀ m : NodeIdx, m.toNat < 256 + w.1.k.toNat → ∀ b, w'.1.child m b = w.1.child m b
  have hl : ∀ n s s', visible s' = visible s → s.arena.k.toNat + n = 255 → P (working s) (working s') →
      (replayLoop n s).Twin (fun w w' => P w w' ∧ w.1.k.toNat = 255) (replayLoop n s') := by
    intro n
    induction n with
    | zero => intro s s' h hn d; exact .going h ⟨d, by show s.arena.k.toNat = 255; omega⟩
    | succ n ih =>
      intro s s' h hn d
      obtain ⟨F, hm, hk, hs, hc⟩ := d
      have F : Forest s.arena := F
      have hm : s'.arena.mseq = s.arena.mseq := hm
      have hk : s'.arena.k = s.arena.k := hk
      have hs : ∀ i, s'.arena.slotAt i = s.arena.slotAt i := hs
      have hat : ∀ j, s'.arena.mseqAt j = s.arena.mseqAt j := fun j => by rw [Arena.mseqAt, hm]; rfl
      have hk1 : s.arena.k.toNat < 255 := by omega
      have hk1' : s'.arena.k.toNat < 255 := by rw [hk]; exact hk1
      refine twin_andThen (D := fun w w' => P w w' ∧ w.1.k.toNat = s.arena.k.toNat + 1) ?_
        fun t t' ht d => ih t t' ht (by have := d.2; simp only [working] at this; omega) d.1
      unfold replayStep replayPair
      simp only [hk, hat, hs]
      by_cases h1 : s.arena.slotAt (s.arena.mseqAt (2 * s.arena.k.toNat)) = emptySlot ∨
          s.arena.slotAt (s.arena.mseqAt (2 * s.arena.k.toNat + 1)) = emptySlot
      · simp only [h1, if_true]; exact .raised _ _ h
      · by_cases h2 : s.arena.mseqAt (2 * s.arena.k.toNat) < s.arena.mseqAt (2 * s.arena.k.toNat + 1)
        · simp only [h1, if_false, h2, not_true]
          rw [not_or] at h1
          refine .going (by exact h) ⟨⟨linkPair_forest F hk1 h1.1 h1.2 h2, hm, ?_, fun i => ?_,
            fun m hm' b => ?_⟩, ?_⟩
          · exact congrArg (· + 1) hk
          · show (linkPair _ _ s'.arena).slotAt i = (linkPair _ _ s.arena).slotAt i
            simp only [slotAt_linkPair, hs, hk]
          · have hm' : m.toNat < 256 + (s.arena.k + 1).toNat := hm'
            rw [toNat_succ_k hk1] at hm'
            show (linkPair _ _ s'.arena).child m b = (linkPair _ _ s.arena).child m b
            rw [child_linkPair _ _ _ _ _ hk1' (by rw [hs]; exact h1.1) (by rw [hs]; exact h1.2),
              child_linkPair _ _ _ _ _ hk1 h1.1 h1.2, hk, hs]
            split
            · rfl
            · next hne =>
              rw [mergeNode_lt_iff hk1] at hne
              exact hc m (by show m.toNat < 256 + s.arena.k.toNat; omega) b
          · exact toNat_succ_k hk1
        · simp only [h1, if_false, h2, not_false_iff, if_true]; exact .raised _ _ h
  refine twin_andThen (hl 255 (enterReplay s) (enterReplay s') (by exact h) rfl ⟨initSlots_forest _, d, rfl,
    fun i => by
      show (initSlots s'.arena).slotAt i = (initSlots s.arena).slotAt i
      rw [slotAt_initSlots, slotAt_initSlots],
    fun m hm b => ?_⟩) ?_
  · have hm : m.toNat < 256 := hm
    show (initSlots s'.arena).child m b = (initSlots s.arena).child m b
    rw [child_leaf _ m b hm, child_leaf _ m b hm]
  · rintro t t' ht ⟨⟨F, hm, hk, hs, hc⟩, hk2⟩
    have T := takeRoot_tree F hk2
    have hc' := children_ext (a := takeRoot t.arena) (a' := takeRoot t'.arena) T (by
      intro m hm b
      rw [child_takeRoot, child_takeRoot]
      exact hc m (by rw [hk2]; omega) b)
    exact .going (by exact ht) ⟨T, hm, hc'.1, hc'.2, hs 0⟩

/-- A replay reads the arena alone (R134). -/
theorem replayLoop_arena (n : Nat) : ∀ {s s' t : State}, s'.arena = s.arena → replayLoop n s = .going t →
    ∃ t', replayLoop n s' = .going t' ∧ t'.arena = t.arena := by
  induction n with
  | zero => rintro s s' t h e; cases e; exact ⟨s', rfl, h⟩
  | succ n ih =>
    intro s s' t h e
    rw [replayLoop, replayStep] at e ⊢
    rw [h]
    cases hp : replayPair s.arena with
    | error c => rw [hp] at e; cases e
    | ok a => rw [hp] at e; exact ih (s := { s with arena := a }) (s' := { s' with arena := a }) rfl e

/-- DESER_REPLAY of one record, in any two states, makes one tree (R139). -/
theorem deserReplay_same {s s' t t' : State} (d : s'.arena.mseq = s.arena.mseq)
    (h : deserReplay s = .going t) (h' : deserReplay s' = .going t') : SameTree t.arena t'.arena := by
  have e : ∃ u, deserReplay { s with arena := s'.arena } = .going u ∧ u.arena = t'.arena := by
    rw [deserReplay] at h' ⊢
    cases hl : replayLoop Config.merges (enterReplay s') with
    | going v =>
      rw [hl] at h'
      cases h'
      obtain ⟨w, h1, h2⟩ := replayLoop_arena _ (s := enterReplay s')
        (s' := enterReplay { s with arena := s'.arena }) rfl hl
      exact ⟨replayEnd w, by rw [h1]; rfl, congrArg takeRoot h2⟩
    | _ => rw [hl] at h'; cases h'
  obtain ⟨u, h1, h2⟩ := e
  have h3 := deserReplay_twin (s := s) (s' := { s with arena := s'.arena }) rfl d
  rw [h, h1] at h3
  cases h3 with
  | going _ d => exact h2 ▸ d

/-- UNPACK under the same tree (R180). -/
theorem unpackPhase_twin {s s' : State} (h : visible s' = visible s) (d : SameTree s.arena s'.arena) :
    (unpackPhase s).Twin (fun _ _ => True) (unpackPhase s') := by
  have hi : s'.inp = s.inp := congrArg (·.1) h
  let P : WorkRel := fun w w' => SameTree w.1 w'.1 ∧ w'.2.2.2.1 = w.2.2.2.1
  have hb : ∀ bs s s', visible s' = visible s → P (working s) (working s') →
      (unpackBits bs s).Twin P (unpackBits bs s') := by
    intro bs
    induction bs with
    | nil => intro s s' h d; exact .going (by exact h) d
    | cons b rest ih =>
      intro s s' h d
      obtain ⟨d1, d2⟩ := d
      have d2 : s'.cur = s.cur := d2
      have hc : s'.arena.child s'.cur b = s.arena.child s.cur b := by
        have h1 : s'.arena.left = s.arena.left := d1.2.2.1
        have h2 : s'.arena.right = s.arena.right := d1.2.2.2.1
        simp only [Arena.child, d2, h1, h2]
      rw [unpackBits, unpackBits]
      refine twin_andThen (D := P) ?_ fun t t' ht d => ?_
      · unfold moveDown
        rw [hc]
        split
        · exact .going (by exact h) ⟨d1, rfl⟩
        · exact .ended h
      · obtain ⟨d1, d2⟩ := d
        have d2 : t'.cur = t.cur := d2
        have hr : t'.arena.root = t.arena.root := d1.2.2.2.2
        rw [d2]
        split
        · refine twin_andThen (D := P) ?_ ih
          unfold emitSymbol
          rw [d2]
          obtain ⟨r, h3, h4⟩ | ⟨h3, h4⟩ := outWrite_twin (leafByte t.cur) ht
          · rw [h3, h4]; exact .going (by exact visible_write _ r ht) ⟨d1, hr⟩
          · rw [h3, h4]; exact .waiting ht
        · exact ih _ _ ht ⟨d1, d2⟩
  unfold unpackPhase
  rw [hi]
  have := readLoop_twin (D := P) (body := unpackByte) (fun x t t' ht d => hb (bits8 x) t t' ht d)
    (s.inp.ahead.length + 1) (enterUnpack s) (enterUnpack s') (by exact h) ⟨d, d.2.2.2.2⟩
  exact twin_mono this fun _ _ _ => trivial

/-- A body does the same from two states that show the same, whatever their working state (R47, R242). -/
theorem bodyOf_twin (i : Instr) {s s' : State} (hw : s'.arena.weightWidth = s.arena.weightWidth)
    (h : visible s' = visible s) :
    (bodyOf i s).Twin (fun _ _ => True) (bodyOf i s') := by
  have top : ∀ {D : WorkRel} {r r' : Run}, r.Twin D r' → r.Twin (fun _ _ => True) r' :=
    fun h => twin_mono h fun _ _ _ => trivial
  cases i with
  | buildTree =>
    exact top (twin_andThen (twin_andThen (accumulate_twin hw h) fun _ _ => buildPhase_twin)
      fun _ _ => serialize_twin)
  | encode =>
    refine twin_andThen (twin_andThen (twin_andThen (twin_andThen (accumulate_twin hw h)
      fun _ _ => buildPhase_twin) fun _ _ => serialize_twin) fun _ _ => derive_twin) fun t t' ht d => ?_
    refine packPhase_twin ?_ d
    simp only [visible, Prod.mk.injEq] at ht ⊢
    simp [inRewind, note, ht]
  | decode =>
    exact twin_andThen (twin_andThen (deserRead_twin _ h) fun _ _ => deserReplay_twin)
      fun _ _ => unpackPhase_twin
  | encodeExt =>
    exact twin_andThen (twin_andThen (twin_andThen (twin_andThen (deserRead_twin _ h)
      fun _ _ => deserReplay_twin) fun _ _ => serialize_twin) fun _ _ => derive_twin) fun _ _ => packPhase_twin

end

end Sys2Proof.Machine
end

