-- ==== Sys2Proof/Laws/Steps.lean ====
section
/-! SUPPORT. What a step can do, said once: the host's action it takes, and what the engine's own step
comes to (R247, R251). -/

namespace Sys2Proof.Machine

/-! ### Command words -/

theorem decode_encode (i : Instr) : decode (encode i) = .ok i := by
  cases i <;> decide

theorem opField_encode (i : Instr) : opField (encode i) = opcodeOf i := by
  cases i <;> decide

/-- A word decodes exactly when both checks pass (R74). -/
theorem decode_wellFormed (c : Word) :
    (wellFormedWord c = true ∧ ∃ i, decode c = .ok i ∧ opField c = opcodeOf i) ∨
    (wellFormedWord c = false ∧ ∃ e, decode c = .error e) := by
  unfold decode wellFormedWord reservedClear opcodeLegal rsvdField
  by_cases hr : c.extractLsb' 8 24 = 0#24
  · simp only [hr, beq_self_eq_true, Bool.true_and, if_true]
    unfold instrOfOpcode opField
    generalize c.extractLsb' 0 8 = o
    by_cases h1 : o = 0x01#8
    · subst h1; exact .inl ⟨by decide, _, rfl, rfl⟩
    by_cases h2 : o = 0x02#8
    · subst h2; exact .inl ⟨by decide, _, rfl, rfl⟩
    by_cases h3 : o = 0x03#8
    · subst h3; exact .inl ⟨by decide, _, rfl, rfl⟩
    by_cases h4 : o = 0x04#8
    · subst h4; exact .inl ⟨by decide, _, rfl, rfl⟩
    exact .inr ⟨by simp [h1, h2, h3, h4], _, by simp only [h1, h2, h3, h4, if_false]; rfl⟩
  · exact .inr ⟨by simp [hr], _, by simp only [hr, if_false]; rfl⟩

/-! ### The host's actions -/

/-- What a step does with a pending `CMD` write (R190, R191): it is dropped, refused, or accepted, and then
either only accepted or run on. -/
theorem step_write {s : State} {c : Word} {rest : List HostAct} (h : WritesCmd s c rest) :
    (busy s = true ∧ step s = .next (dropWrite { s with host := rest })) ∨
    (busy s = false ∧ wellFormedWord c = false ∧ step s = .next (rejectWrite c { s with host := rest })) ∨
    (busy s = false ∧ wellFormedWord c = true ∧ ∃ i, decode c = .ok i ∧ opField c = opcodeOf i ∧
      ((s.host = .cmdWrite c :: rest ∧ step s = .next (start i { s with host := rest })) ∨
       (s.host = .command c :: rest ∧ step s = exec i { s with host := rest }))) := by
  have hbe : busy { s with host := rest } = busy s := rfl
  cases hb : busy s with
  | true =>
    refine .inl ⟨rfl, ?_⟩
    rcases h with h | h <;>
    simp only [step, hostStep, h, hostAct, writeCmd, runCommand, hbe, hb, if_true]
  | false =>
    obtain ⟨hw, i, hd, ho⟩ | ⟨hw, e, hd⟩ := decode_wellFormed c
    · refine .inr (.inr ⟨rfl, hw, i, hd, ho, ?_⟩)
      rcases h with h | h
      · refine .inl ⟨h, ?_⟩
        simp only [step, hostStep, h, hostAct, writeCmd, hbe, hb, hd, Bool.false_eq_true, if_false]
      · refine .inr ⟨h, ?_⟩
        simp only [step, hostStep, h, hostAct, runCommand, hbe, hb, hd, Bool.false_eq_true, if_false]
    · refine .inr (.inl ⟨rfl, hw, ?_⟩)
      rcases h with h | h <;>
      simp only [step, hostStep, h, hostAct, writeCmd, runCommand, hbe, hb, hd, Bool.false_eq_true, if_false]

/-- Every step is one of four: a `CMD` write, a reset, the engine's own move, or a host action that leaves the
engine and what it has shown as they are. -/
theorem step_kinds (s : State) :
    (∃ c rest, WritesCmd s c rest) ∨
    (∃ rest, s.host = .reset :: rest ∧ step s = .next (resetEngine { s with host := rest })) ∨
    (EngineMoves s ∧ ∃ h, (busy s = true ∧ step s = tick { s with host := h }) ∨
      (busy s = false ∧ step s = .next { s with host := h })) ∨
    (s.host.head? ≠ some .reset ∧ (∀ c rest, ¬ WritesCmd s c rest) ∧ ¬ EngineMoves s ∧ ∃ i tr r rd h, step s = .next
      { s with inp := i, tree := tr, outReady := r, readData := rd, host := h }) := by
  have nw : ∀ (a : HostAct) (rest : List HostAct), s.host = a :: rest →
      (∀ c, a ≠ .cmdWrite c) → (∀ c, a ≠ .command c) → ∀ c rest', ¬ WritesCmd s c rest' := by
    rintro a rest h h1 h2 c rest' (h' | h')
    · rw [h] at h'; exact h1 c (List.cons.inj h').1
    · rw [h] at h'; exact h2 c (List.cons.inj h').1
  have nr : ∀ (a : HostAct) (rest : List HostAct), s.host = a :: rest → a ≠ .reset →
      s.host.head? ≠ some .reset := by
    intro a rest h h1 h2
    rw [h] at h2
    exact h1 (Option.some.inj h2)
  have nm : ∀ (a : HostAct) (rest : List HostAct), s.host = a :: rest → a ≠ .engine → a ≠ .awaitEnd →
      ¬ EngineMoves s := by
    rintro a rest h h1 h2 (h' | h' | h') <;> rw [h] at h'
    · cases h'
    · exact h1 (Option.some.inj h')
    · exact h2 (Option.some.inj h')
  have eng : ∀ h, engineStep { s with host := h } =
      if busy s = true then tick { s with host := h } else .next { s with host := h } := fun h => rfl
  obtain hh | ⟨a, rest, hh⟩ : s.host = [] ∨ ∃ a rest, s.host = a :: rest := by
    cases s.host with
    | nil => exact .inl rfl
    | cons a rest => exact .inr ⟨a, rest, rfl⟩
  · refine .inr (.inr (.inl ⟨.inl (by rw [hh]; rfl), [], ?_⟩))
    have hs : step s = engineStep { s with host := [] } := by
      simp only [step, hostStep, hh]
      rw [← hh]
    rw [hs, eng]
    cases hb : busy s with
    | true => exact .inl ⟨rfl, rfl⟩
    | false => exact .inr ⟨rfl, rfl⟩
  · have hs : step s = hostAct a { s with host := rest } := by simp only [step, hostStep, hh]
    have hbe : busy { s with host := rest } = busy s := rfl
    cases a
    case cmdWrite c => exact .inl ⟨c, rest, .inl hh⟩
    case command c => exact .inl ⟨c, rest, .inr hh⟩
    case reset => exact .inr (.inl ⟨rest, hh, hs⟩)
    case engine =>
      refine .inr (.inr (.inl ⟨.inr (.inl (by rw [hh]; rfl)), rest, ?_⟩))
      rw [hs, hostAct, eng]
      cases hb : busy s with
      | true => exact .inl ⟨rfl, rfl⟩
      | false => exact .inr ⟨rfl, rfl⟩
    case awaitEnd =>
      cases hb : busy s with
      | true =>
        refine .inr (.inr (.inl ⟨.inr (.inr (by rw [hh]; rfl)), .awaitEnd :: rest, .inl ⟨rfl, ?_⟩⟩))
        rw [hs, hostAct, hbe, hb, if_pos rfl, eng, hb, if_pos rfl]
      | false =>
        refine .inr (.inr (.inl ⟨.inr (.inr (by rw [hh]; rfl)), rest, .inr ⟨rfl, ?_⟩⟩))
        rw [hs, hostAct, hbe, hb, if_neg (by decide)]
    all_goals exact .inr (.inr (.inr ⟨nr _ _ hh (by simp), nw _ _ hh (by simp) (by simp),
      nm _ _ hh (by simp) (by simp), _, _, _, _, _, hs⟩))

/-! ### The engine's own step -/

/-- The registers a host reads, the command in progress and the host's own side: what a small step leaves as
they are until the final `STATUS` update. -/
def registers (s : State) : EngState × Bool × ErrCode × BitVec 16 × BitVec 8 × Instr × Option Verdict ×
    Option Word × List HostAct :=
  (s.status, s.ovr, s.err, s.info, s.lastOp, s.opc, s.pend, s.readData, s.host)

/-- A small step of a phase raises only the errors of R210, never `NONE`. -/
theorem stepPhase_error {s s' : State} {i : BitVec 16} : stepPhase s ≠ .raised .none i s' := by
  have noDer : ∀ s, stepDerive s ≠ .raised .none i s' := by
    intro s h
    unfold stepDerive derive at h
    split at h
    · simp only [Run.andThen] at h
      split at h <;> cases h
    · cases h
  have noDesc : ∀ bs s, descend bs s ≠ .raised .none i s' := by
    intro bs
    induction bs with
    | nil => intro s h; cases h
    | cons b rest ih =>
      intro s h
      unfold descend moveDown at h
      split at h
      · simp only [Run.andThen] at h
        split at h
        · cases h
        · exact ih _ h
      · cases h
  intro h
  unfold stepPhase at h
  split at h
  · cases h
  · unfold stepAcc at h
    split at h
    · unfold accByte at h
      split at h <;> cases h
    · cases h
    · cases h
  · unfold stepBuild at h
    repeat' split at h
    all_goals cases h
  · unfold stepSer serByte at h
    split at h
    · split at h
      · simp only [Run.andThen] at h
        split at h <;> cases h
      · cases h
    · split at h
      · exact noDer s h
      · cases h
  · unfold stepDeserRead deserReadByte at h
    repeat' split at h
    all_goals first
      | cases h
      | (simp only [Run.andThen] at h; split at h <;> cases h)
  · unfold stepReplay replayStep at h
    split at h
    · split at h
      · simp only [Run.andThen] at h
        repeat' split at h
        all_goals cases h
      · next e he =>
        cases h
        unfold replayPair at he
        simp only at he
        repeat' split at he
        all_goals cases he
    · cases h
  · cases h
  · unfold stepPack emitByte padFill at h
    repeat' split at h
    all_goals first
      | cases h
      | (simp only [Run.andThen] at h; split at h <;> cases h)
  · unfold stepPad padEmit at h
    repeat' split at h
    all_goals cases h
  · unfold stepUnpack emitSymbol at h
    split at h
    · split at h
      · exact noDesc _ _ h
      · cases h
    · split at h
      · exact noDesc _ _ h
      · cases h
      · cases h

/-- A small step is the final `STATUS` update, or a stretch of the running phase: it leaves the registers as
they are, and an outcome may then be waiting (R247). -/
theorem tick_cases {s t : State} (h : tick s = .next t) :
    (∃ v, s.pend = some v ∧ t = applyVerdict v s) ∨
    (s.pend = none ∧ s.phase ∈ phasesOf s.opc ∧ ∃ s', registers s' = registers s ∧
      (stepPhase s = .going s' ∧ t = s' ∨ stepPhase s = .waiting s' ∧ t = s' ∨
       stepPhase s = .ended s' ∧ t = { s' with pend := some .finished } ∨
       ∃ e i, e ≠ .none ∧ stepPhase s = .raised e i s' ∧ t = { s' with pend := some (.raised e i) })) := by
  unfold tick at h
  split at h
  · next v hv => cases h; exact .inl ⟨v, hv, rfl⟩
  · next hv =>
    split at h
    · next hp =>
      refine .inr ⟨hv, hp, ?_⟩
      have hf := stepPhase_fix (f := registers) (by intros; rfl) s
      cases hr : stepPhase s with
      | going s' =>
        rw [hr] at hf h; cases h; cases hf with | going hf => exact ⟨_, hf, .inl ⟨rfl, rfl⟩⟩
      | waiting s' =>
        rw [hr] at hf h; cases h; cases hf with | waiting hf => exact ⟨_, hf, .inr (.inl ⟨rfl, rfl⟩)⟩
      | ended s' =>
        rw [hr] at hf h; cases h
        cases hf with | ended hf => exact ⟨_, hf, .inr (.inr (.inl ⟨rfl, rfl⟩))⟩
      | raised e i s' =>
        have he : e ≠ .none := fun he => stepPhase_error (he ▸ hr)
        rw [hr] at hf h; cases h
        cases hf with | raised _ _ hf => exact ⟨_, hf, .inr (.inr (.inr ⟨e, i, he, rfl, rfl⟩))⟩
      | broken b => rw [hr] at h; cases h
    · cases h

/-! ### The packer's and the unpacker's steps, by what they meet -/

/-- A PACK step with a full byte in the buffer (R160). -/
theorem stepPack_full {s : State} (h : 8 ≤ s.pbuf.length) : stepPack s = emitByte s := if_pos h

/-- A PACK step on the next byte of `IN` (R160). -/
theorem stepPack_byte {s : State} {x : Byte} {rest : List Byte} (h : s.pbuf.length < 8)
    (hx : s.inp.ahead = x :: rest) :
    stepPack s = .going (appendCode x (note (.inRead (some x))
      { s with inp := { s.inp with taken := s.inp.taken ++ [x], ahead := rest } })) := by
  unfold stepPack
  rw [if_neg (by omega), show inRead s = _ from portRead_cons (p := .inStream) hx]
  rfl

/-- A PACK step at the end of `IN`: PAD begins (R160, R163). -/
theorem stepPack_eos {s : State} (h : s.pbuf.length < 8) (hx : s.inp.ahead = [])
    (he : s.inp.ended = true) :
    stepPack s = (padFill (note (.inRead none) s)).andThen fun s' =>
      if s'.pbuf = [] then .ended s' else .going s' := by
  unfold stepPack
  rw [if_neg (by omega), show inRead s = _ from portRead_eos (p := .inStream) hx he]
  rfl

/-- With an internal root a byte is due at every leaf (R181). -/
theorem symbolDue_of_root {s : State} (h : isLeaf s.arena.root = false) : symbolDue s = isLeaf s.cur := by
  simp [symbolDue, h]

/-- No byte is due at an internal node (R180). -/
theorem symbolDue_internal {s : State} (h : isLeaf s.cur = false) : symbolDue s = false := by
  simp [symbolDue, h]

/-- With a leaf as the root no byte is ever due (R184). -/
theorem symbolDue_leaf_root {s : State} (h : isLeaf s.arena.root = true) : symbolDue s = false := by
  simp [symbolDue, h]

/-- An UNPACK step at a leaf (R180). -/
theorem stepUnpack_leaf {s : State} (h : symbolDue s = true) :
    stepUnpack s = (emitSymbol s).andThen fun s' => descend s'.bits s' := if_pos h

/-- An UNPACK step on the next byte of `IN` (R180). -/
theorem stepUnpack_byte {s : State} {x : Byte} {rest : List Byte} (h : symbolDue s = false)
    (hx : s.inp.ahead = x :: rest) :
    stepUnpack s = descend (bits8 x) (note (.inRead (some x))
      { s with inp := { s.inp with taken := s.inp.taken ++ [x], ahead := rest } }) := by
  unfold stepUnpack
  rw [h, if_neg (by decide), show inRead s = _ from portRead_cons (p := .inStream) hx]
  rfl

/-- With a leaf as `ROOT`, UNPACK ends at the first bit and writes no byte (R184, I6). -/
theorem stepUnpack_leaf_root {s : State} {x : Byte} {rest : List Byte} (h : isLeaf s.arena.root = true)
    (hc : s.cur = s.arena.root) (hx : s.inp.ahead = x :: rest) :
    stepUnpack s = .ended (note (.inRead (some x))
      { s with inp := { s.inp with taken := s.inp.taken ++ [x], ahead := rest } }) := by
  rw [stepUnpack_byte (symbolDue_leaf_root h) hx]
  cases hb : bits8 x with
  | nil =>
    have := bits8_length x
    rw [hb] at this
    cases this
  | cons b l =>
    have hn : s.arena.child s.cur b = none := by rw [Arena.child, hc, h, if_pos rfl]
    simp [descend, moveDown, note, hn, Run.andThen]

/-- An UNPACK step at the end of `IN` (R180, R182). -/
theorem stepUnpack_eos {s : State} (h : symbolDue s = false) (hx : s.inp.ahead = [])
    (he : s.inp.ended = true) :
    stepUnpack s = .ended (note (.inRead none) s) := by
  unfold stepUnpack
  rw [h, if_neg (by decide), show inRead s = _ from portRead_eos (p := .inStream) hx he]
  rfl

/-- An UNPACK step that has nothing to read (R52). -/
theorem stepUnpack_blocked {s : State} (h : symbolDue s = false) (hx : s.inp.ahead = [])
    (he : s.inp.ended = false) :
    stepUnpack s = .waiting s := by
  unfold stepUnpack
  rw [h, if_neg (by decide), show inRead s = _ from portRead_blocked (p := .inStream) hx he]

end Sys2Proof.Machine
end

