-- ==== Sys2Proof/Laws/Small.lean ====
section
/-! SUPPORT. The two granularities (R14, R247): how small steps, one after another, come to what a phase as
a whole comes to. -/

namespace Sys2Proof.Machine

theorem ticks_trans {s t u : State} (h : Ticks s t) (h' : Ticks t u) : Ticks s u := by
  induction h with
  | refl => exact h'
  | step h1 _ ih => exact .step h1 (ih h')

theorem ticks_one {s t : State} (h : tick s = .next t) : Ticks s t := .step h (.refl t)

/-- Small steps from `s` come to what the stretch `r` comes to: where it goes on, to the state `k` makes of
its last one; where it blocks, to a state whose small step changes nothing. -/
inductive Leads (s : State) (k : State → State) : Run → Prop where
  | going {s' : State} (h : Ticks s (k s')) : Leads s k (.going s')
  | waiting {s' : State} (h : Ticks s s') (hw : tick s' = .next s') : Leads s k (.waiting s')
  | raised {e : ErrCode} {i : BitVec 16} {s' : State}
      (h : Ticks s { s' with pend := some (.raised e i) }) : Leads s k (.raised e i s')
  | ended {s' : State} (h : Ticks s { s' with pend := some .finished }) : Leads s k (.ended s')
  | broken (b : Fault) : Leads s k (.broken b)

theorem leads_andThen {s : State} {k k' : State → State} {r : Run} {g : State → Run} (h : Leads s k r)
    (hg : ∀ s', r = .going s' → Leads (k s') k' (g s')) : Leads s k' (r.andThen g) := by
  cases h with
  | going h =>
    have h2 := hg _ rfl
    simp only [Run.andThen]
    generalize g _ = r2 at *
    cases h2 with
    | going h' => exact .going (ticks_trans h h')
    | waiting h' hw => exact .waiting (ticks_trans h h') hw
    | raised h' => exact .raised (ticks_trans h h')
    | ended h' => exact .ended (ticks_trans h h')
    | broken b => exact .broken b
  | waiting h hw => exact .waiting h hw
  | raised h => exact .raised h
  | ended h => exact .ended h
  | broken b => exact .broken b

theorem leads_ticks {s t : State} {k : State → State} {r : Run} (h : Ticks s t) (h' : Leads t k r) :
    Leads s k r := by
  cases h' with
  | going h' => exact .going (ticks_trans h h')
  | waiting h' hw => exact .waiting (ticks_trans h h') hw
  | raised h' => exact .raised (ticks_trans h h')
  | ended h' => exact .ended (ticks_trans h h')
  | broken b => exact .broken b

/-- A small step of a phase of the running command. -/
theorem tick_phase {s : State} (hp : s.pend = none) (h : s.phase ∈ phasesOf s.opc) :
    tick s = concludeSmall (stepPhase s) := by
  simp only [tick, hp, h, if_true]

section
variable {i : Instr}

/-- Where a command is: which command, in which of its phases, with no outcome waiting. -/
structure At (i : Instr) (ph : Phase) (s : State) : Prop where
  opc : s.opc = i
  phase : s.phase = ph
  pend : s.pend = none

theorem tick_at {ph : Phase} {s : State} (h : At i ph s) (hp : ph ∈ phasesOf i) :
    tick s = concludeSmall (stepPhase s) :=
  tick_phase h.pend (by rw [h.opc, h.phase]; exact hp)

theorem tick_acc {s : State} (h : At i .acc s) (hp : .acc ∈ phasesOf i) :
    tick s = concludeSmall (stepAcc s) := by
  rw [tick_at h hp, stepPhase, h.phase]

theorem tick_build {s : State} (h : At i .build s) (hp : .build ∈ phasesOf i) :
    tick s = concludeSmall (stepBuild s) := by
  rw [tick_at h hp, stepPhase, h.phase]

theorem tick_ser {s : State} (h : At i .ser s) (hp : .ser ∈ phasesOf i) :
    tick s = concludeSmall (stepSer s) := by
  rw [tick_at h hp, stepPhase, h.phase]

theorem tick_deserRead {s : State} (h : At i .deserRead s) (hp : .deserRead ∈ phasesOf i) :
    tick s = concludeSmall (stepDeserRead s) := by
  rw [tick_at h hp, stepPhase, h.phase]

theorem tick_deserReplay {s : State} (h : At i .deserReplay s) (hp : .deserReplay ∈ phasesOf i) :
    tick s = concludeSmall (stepReplay s) := by
  rw [tick_at h hp, stepPhase, h.phase]

theorem tick_derive {s : State} (h : At i .derive s) (hp : .derive ∈ phasesOf i) :
    tick s = concludeSmall (stepRewind s) := by
  rw [tick_at h hp, stepPhase, h.phase]

theorem tick_pack {s : State} (h : At i .pack s) (hp : .pack ∈ phasesOf i) :
    tick s = concludeSmall (stepPack s) := by
  rw [tick_at h hp, stepPhase, h.phase]

theorem tick_pad {s : State} (h : At i .pad s) (hp : .pad ∈ phasesOf i) :
    tick s = concludeSmall (stepPad s) := by
  rw [tick_at h hp, stepPhase, h.phase]

theorem tick_unpack {s : State} (h : At i .unpack s) (hp : .unpack ∈ phasesOf i) :
    tick s = concludeSmall (stepUnpack s) := by
  rw [tick_at h hp, stepPhase, h.phase]

/-- ACCUMULATE as small steps. -/
theorem accumulate_small (hi : .acc ∈ phasesOf i) (n : Nat) : ∀ s, At i .acc s → s.inp.ahead.length < n →
    Leads s enterBuild (readLoop accByte n s) := by
  induction n with
  | zero => intro s _ h; omega
  | succ n ih =>
    intro s h hl
    have ht := tick_acc h hi
    unfold stepAcc at ht
    rw [readLoop]
    unfold inRead at ht ⊢
    cases ha : s.inp.ahead with
    | cons x rest =>
      simp only [ha] at ht ⊢
      rw [accByte] at ht ⊢
      split
      · next hm =>
        rw [if_pos hm] at ht
        exact .raised (ticks_one ht)
      · next hm =>
        rw [if_neg hm] at ht
        simp only [Run.andThen]
        refine leads_ticks (ticks_one ht) (ih _ ⟨h.opc, h.phase, h.pend⟩ ?_)
        show rest.length < n
        rw [ha, List.length_cons] at hl
        omega
    | nil =>
      simp only [ha] at ht ⊢
      cases he : s.inp.ended with
      | true =>
        simp only [he, if_true] at ht ⊢
        exact .going (ticks_one ht)
      | false =>
        simp only [he, Bool.false_eq_true, if_false] at ht ⊢
        exact .waiting (.refl s) ht

/-- BUILD as small steps, one merge each. -/
theorem build_small (hi : .build ∈ phasesOf i) (n : Nat) : ∀ (s : State) (a : Arena), At i .build s →
    s.arena.k.toNat + (n + 1) = 255 → mergeLoop (n + 1) s.arena = some a →
    Ticks s (enterSer { s with arena := takeRoot a }) := by
  induction n with
  | zero =>
    intro s a h hk hm
    obtain ⟨b, hb, hba⟩ := Option.bind_eq_some_iff.1 hm
    obtain rfl := Option.some.inj hba
    have ht := tick_build h hi
    unfold stepBuild at ht
    have hbk : b.k.toNat = 255 := by
      rw [k_mergeStep hb, toNat_succ_k (by omega)]; omega
    rw [if_pos (by show s.arena.k.toNat < 255; omega)] at ht
    simp only [hb] at ht
    rw [if_neg (by rw [hbk]; decide)] at ht
    exact ticks_one ht
  | succ n ih =>
    intro s a h hk hm
    obtain ⟨b, hb, hba⟩ := Option.bind_eq_some_iff.1 hm
    have ht := tick_build h hi
    unfold stepBuild at ht
    have hbk : b.k.toNat = s.arena.k.toNat + 1 := by rw [k_mergeStep hb, toNat_succ_k (by omega)]
    rw [if_pos (by show s.arena.k.toNat < 255; omega)] at ht
    simp only [hb] at ht
    rw [if_pos (by show b.k.toNat < 255; omega)] at ht
    exact ticks_trans (ticks_one ht)
      (ih { s with arena := b } a ⟨h.opc, h.phase, h.pend⟩ (by show b.k.toNat + (n + 1) = 255; omega) hba)

theorem buildPhase_small (hi : .build ∈ phasesOf i) {s : State} (ho : s.opc = i) (hp : s.pend = none) :
    Leads (enterBuild s) enterSer (buildPhase s) := by
  obtain ⟨a, h1, h2, h3⟩ := buildPhase_spec s
  obtain ⟨b, hb, rfl⟩ := Option.map_eq_some_iff.1 h1
  rw [h2]
  exact .going (build_small hi 254 (enterBuild s) b ⟨ho, rfl, hp⟩ rfl hb)

/-- The end of a command, as small steps leave it before the final `STATUS` update. -/
def endsHere (s : State) : State := { s with pend := some .finished }

/-- Where the small steps stand after SERIALIZE's last byte. -/
def afterSer (i : Instr) (s : State) : State := if packsPayload i then s else endsHere s

/-- Where they stand after the last pair. -/
def afterReplay (i : Instr) (s : State) : State := if packsPayload i then enterSer s else enterUnpack s

/-- Where they stand after DERIVE. -/
def afterDerive (i : Instr) (s : State) : State := if rewindsInput i then s else enterPack s

/-- SERIALIZE as small steps; what follows the last byte depends on the command. -/
theorem serLoop_small (hi : .ser ∈ phasesOf i) (n : Nat) : ∀ s, At i .ser s → s.serIdx + (n + 1) = 510 →
    Leads s (afterSer i)
      (serLoop (n + 1) s) := by
  induction n with
  | zero =>
    intro s h hn
    have ht := tick_ser h hi
    unfold stepSer at ht
    rw [if_pos (by show s.serIdx < 510; omega)] at ht
    rw [serLoop]
    unfold serByte at ht ⊢
    split
    · next s' ho =>
      obtain ⟨r, rfl⟩ := outWrite_spec ho
      simp only [ho, Run.andThen] at ht
      simp only [Run.andThen, serLoop]
      refine .going (ticks_one (ht.trans ?_))
      have hlt : ¬ s.serIdx + 1 < Config.treeBytes := by show ¬ s.serIdx + 1 < 510; omega
      simp only [hlt, false_or, h.opc, afterSer]
      cases packsPayload i <;> rfl
    · next ho =>
      simp only [ho, Run.andThen] at ht
      exact .waiting (.refl s) ht
  | succ n ih =>
    intro s h hn
    have ht := tick_ser h hi
    unfold stepSer at ht
    rw [if_pos (by show s.serIdx < 510; omega)] at ht
    rw [serLoop]
    unfold serByte at ht ⊢
    split
    · next s' ho =>
      obtain ⟨r, rfl⟩ := outWrite_spec ho
      simp only [ho, Run.andThen] at ht
      have hlt : s.serIdx + 1 < Config.treeBytes := by show s.serIdx + 1 < 510; omega
      simp only [hlt, true_or, if_true] at ht
      simp only [Run.andThen]
      exact leads_ticks (ticks_one ht)
        (ih _ ⟨h.opc, h.phase, h.pend⟩ (by show s.serIdx + 1 + (n + 1) = 510; omega))
    · next ho =>
      simp only [ho, Run.andThen] at ht
      exact .waiting (.refl s) ht

theorem serialize_small (hi : .ser ∈ phasesOf i) {s : State} (ho : s.opc = i) (hp : s.pend = none) :
    Leads (enterSer s) (afterSer i)
      (serialize s) :=
  serLoop_small hi 509 (enterSer s) ⟨ho, rfl, hp⟩ rfl

/-- DESER_READ as small steps. -/
theorem deserReadLoop_small (hi : .deserRead ∈ phasesOf i) {p : StreamSel} (hp : treePort i = some p)
    (n : Nat) : ∀ s, At i .deserRead s → s.arena.tcnt.toNat + (n + 1) = 510 →
    Leads s enterReplay (deserReadLoop p (n + 1) s) := by
  have hport : ∀ (q : InPort) (s : State), At i .deserRead s → At i .deserRead (setPort p q s) := by
    intro q s h
    cases p <;> exact ⟨h.opc, h.phase, h.pend⟩
  have hcnt : ∀ (b : Byte) (s : State), s.arena.tcnt.toNat < 510 →
      (storeTreeByte b s.arena).tcnt.toNat = s.arena.tcnt.toNat + 1 := by
    intro b s hlt
    have e : (1 : BitVec 10).toNat = 1 := rfl
    show (s.arena.tcnt + 1).toNat = _
    rw [BitVec.toNat_add, e]; omega
  have harena : ∀ (q : InPort) (s : State), (setPort p q s).arena = s.arena := by
    intro q s; cases p <;> rfl
  induction n with
  | zero =>
    intro s h hn
    have ht := tick_deserRead h hi
    unfold stepDeserRead at ht
    simp only [h.opc, hp] at ht
    rw [if_pos (by show s.arena.tcnt.toNat < 510; omega)] at ht
    rw [deserReadLoop]
    unfold deserReadByte at ht ⊢
    obtain ⟨x, q, hr⟩ | hr | hr := portRead_cases p s
    · simp only [hr, Run.andThen, deserReadLoop] at ht ⊢
      have hc := hcnt x (note (readEvent p (some x)) (setPort p q s)) (by rw [arena_note, harena]; omega)
      rw [arena_note, harena] at hc ht
      rw [if_neg (by rw [hc]; show ¬ s.arena.tcnt.toNat + 1 < 510; omega)] at ht
      refine .going (ticks_one ?_)
      rw [arena_note, harena]
      exact ht
    · simp only [hr, Run.andThen] at ht ⊢
      exact .raised (ticks_one ht)
    · simp only [hr, Run.andThen] at ht ⊢
      exact .waiting (.refl s) ht
  | succ n ih =>
    intro s h hn
    have ht := tick_deserRead h hi
    unfold stepDeserRead at ht
    simp only [h.opc, hp] at ht
    rw [if_pos (by show s.arena.tcnt.toNat < 510; omega)] at ht
    rw [deserReadLoop]
    unfold deserReadByte at ht ⊢
    obtain ⟨x, q, hr⟩ | hr | hr := portRead_cases p s
    · simp only [hr, Run.andThen] at ht ⊢
      have hc := hcnt x (note (readEvent p (some x)) (setPort p q s)) (by rw [arena_note, harena]; omega)
      rw [arena_note, harena] at hc ht
      rw [if_pos (by rw [hc]; show s.arena.tcnt.toNat + 1 < 510; omega)] at ht
      rw [arena_note, harena]
      have h' := hport q s h
      exact leads_ticks (ticks_one ht) (ih _ ⟨h'.opc, h'.phase, h'.pend⟩
        (by show (storeTreeByte x s.arena).tcnt.toNat + (n + 1) = 510; rw [hc]; omega))
    · simp only [hr, Run.andThen] at ht ⊢
      exact .raised (ticks_one ht)
    · simp only [hr, Run.andThen] at ht ⊢
      exact .waiting (.refl s) ht

theorem deserRead_small (hi : .deserRead ∈ phasesOf i) {p : StreamSel} (hp : treePort i = some p)
    {s : State} (ho : s.opc = i) (hn : s.pend = none) : Leads (enterDeserRead s) enterReplay (deserRead p s) :=
  deserReadLoop_small hi hp 509 (enterDeserRead s) ⟨ho, rfl, hn⟩ rfl

/-- DESER_REPLAY as small steps, one pair each; what follows the last depends on the command. -/
theorem replayLoop_small (hi : .deserReplay ∈ phasesOf i) (n : Nat) : ∀ s, At i .deserReplay s →
    s.arena.k.toNat + (n + 1) = 255 →
    Leads s (afterReplay i)
      ((replayLoop (n + 1) s).andThen fun s' => .going (replayEnd s')) := by
  have hlink : ∀ (a b : Arena), replayPair a = .ok b → b.k = a.k + 1 := by
    intro a b h
    unfold replayPair at h
    simp only at h
    split at h
    · cases h
    · split at h
      · cases h
      · cases h; rfl
  induction n with
  | zero =>
    intro s h hn
    have ht := tick_deserReplay h hi
    unfold stepReplay at ht
    rw [if_pos (by show s.arena.k.toNat < 255; omega)] at ht
    rw [replayLoop]
    unfold replayStep at ht ⊢
    split
    · next a ha =>
      simp only [ha, Run.andThen] at ht
      have hk : a.k.toNat = 255 := by rw [hlink _ _ ha, toNat_succ_k (by omega)]; omega
      rw [if_neg (by rw [hk]; decide)] at ht
      simp only [Run.andThen, replayLoop]
      refine .going (ticks_one (ht.trans ?_))
      simp only [h.opc, afterReplay]
      cases packsPayload i <;> rfl
    · next e he =>
      simp only [he, Run.andThen] at ht
      exact .raised (ticks_one ht)
  | succ n ih =>
    intro s h hn
    have ht := tick_deserReplay h hi
    unfold stepReplay at ht
    rw [if_pos (by show s.arena.k.toNat < 255; omega)] at ht
    rw [replayLoop]
    unfold replayStep at ht ⊢
    split
    · next a ha =>
      simp only [ha, Run.andThen] at ht
      have hk : a.k.toNat = s.arena.k.toNat + 1 := by rw [hlink _ _ ha, toNat_succ_k (by omega)]
      rw [if_pos (by show a.k.toNat < 255; omega)] at ht
      exact leads_ticks (ticks_one ht)
        (ih { s with arena := a } ⟨h.opc, h.phase, h.pend⟩ (by show a.k.toNat + (n + 1) = 255; omega))
    · next e he =>
      simp only [he, Run.andThen] at ht
      exact .raised (ticks_one ht)

theorem deserReplay_small (hi : .deserReplay ∈ phasesOf i) {s : State} (ho : s.opc = i) (hn : s.pend = none) :
    Leads (enterReplay s) (afterReplay i) (deserReplay s) :=
  replayLoop_small hi 254 (enterReplay s) ⟨ho, rfl, hn⟩ rfl

/-- DERIVE as one small step, from the end of SERIALIZE. -/
theorem derive_small (hi : .ser ∈ phasesOf i) (hpp : packsPayload i = true) {s : State} (h : At i .ser s)
    (hn : s.serIdx = 510) :
    Leads s (afterDerive i) (derive s) := by
  have ht := tick_ser h hi
  unfold stepSer at ht
  rw [if_neg (by rw [hn]; decide), h.opc, if_pos hpp] at ht
  unfold stepDerive derive at ht
  unfold derive
  split
  · next t hw =>
    simp only [hw, Run.andThen] at ht
    refine .going (ticks_one (ht.trans ?_))
    simp only [h.opc, afterDerive]
    cases rewindsInput i <;> rfl
  · exact .broken _

/-- PACK's emission of full bytes as small steps. -/
theorem emitLoop_small (hi : .pack ∈ phasesOf i) (n : Nat) : ∀ s, At i .pack s → 8 * n ≤ s.pbuf.length →
    Leads s id (emitLoop n s) := by
  induction n with
  | zero => intro s _ _; exact .going (.refl s)
  | succ n ih =>
    intro s h hl
    have ht := tick_pack h hi
    unfold stepPack at ht
    rw [if_pos (by omega)] at ht
    rw [emitLoop]
    unfold emitByte at ht ⊢
    split
    · next s' ho =>
      obtain ⟨r, rfl⟩ := outWrite_spec ho
      simp only [ho] at ht
      have hd : (s.pbuf.drop 8).length = s.pbuf.length - 8 := List.length_drop
      exact leads_ticks (ticks_one ht)
        (ih _ ⟨h.opc, h.phase, h.pend⟩ (by show 8 * n ≤ (s.pbuf.drop 8).length; omega))
    · next ho =>
      simp only [ho] at ht
      exact .waiting (.refl s) ht

/-- PAD as small steps, from PACK's `EOS`. -/
theorem pad_small (hi : .pad ∈ phasesOf i) {s s1 : State} (h : At i .pack s1)
    (ht : tick s = concludeSmall ((padFill s1).andThen fun s'' => if s''.pbuf = [] then .ended s'' else .going s'')) :
    Leads s endsHere (padPhase s1) := by
  unfold padPhase
  by_cases hn : s1.pbuf = []
  · have e : padFill s1 = .going s1 := by rw [padFill, if_pos hn]
    rw [e] at ht ⊢
    simp only [Run.andThen, hn, if_true] at ht ⊢
    rw [padEmit, if_pos hn]
    exact .going (ticks_one ht)
  · rw [padFill, if_neg hn] at ht ⊢
    cases hc : padChoice s1.table (padNeed s1) with
    | none =>
      simp only [hc, Run.andThen] at ht ⊢
      exact .raised (ticks_one ht)
    | some v =>
      simp only [hc, Run.andThen] at ht ⊢
      have hne : s1.pbuf ++ (s1.table.codeAt v).take (padNeed s1) ≠ [] := by simp [hn]
      simp only [hne, if_false] at ht
      refine leads_ticks (ticks_one ht) ?_
      generalize hs2 : ({ s1 with phase := .pad, pbuf := s1.pbuf ++ (s1.table.codeAt v).take (padNeed s1) } : State) = s2 at *
      have h2 : At i .pad s2 := by rw [← hs2]; exact ⟨h.opc, rfl, h.pend⟩
      have hne2 : s2.pbuf ≠ [] := by rw [← hs2]; exact hne
      have ht2 := tick_pad h2 hi
      unfold stepPad at ht2
      unfold padEmit at ht2 ⊢
      rw [if_neg hne2] at ht2 ⊢
      split
      · next s' ho =>
        simp only [ho, Run.andThen] at ht2
        exact .going (ticks_one ht2)
      · next ho =>
        simp only [ho, Run.andThen] at ht2
        exact .waiting (.refl _) ht2

theorem andThen_assoc (r : Run) (f g : State → Run) :
    (r.andThen f).andThen g = r.andThen fun s => (f s).andThen g := by
  cases r <;> rfl

/-- What full bytes leave behind. -/
theorem emitLoop_kept (n : Nat) : ∀ s t, 8 * n ≤ s.pbuf.length → emitLoop n s = .going t → At i .pack s →
    At i .pack t ∧ t.pbuf.length = s.pbuf.length - 8 * n ∧ t.inp = s.inp := by
  induction n with
  | zero => intro s t _ h ha; cases h; exact ⟨ha, rfl, rfl⟩
  | succ n ih =>
    intro s t hl h ha
    rw [emitLoop, emitByte] at h
    cases ho : outWrite (pack8 (s.pbuf.take 8)) s with
    | none => simp only [ho, Run.andThen] at h; cases h
    | some s' =>
      obtain ⟨r, rfl⟩ := outWrite_spec ho
      simp only [ho, Run.andThen] at h
      have hd : (s.pbuf.drop 8).length = s.pbuf.length - 8 := List.length_drop
      obtain ⟨h1, h2, h3⟩ := ih _ t (by show 8 * n ≤ (s.pbuf.drop 8).length; omega) h ⟨ha.opc, ha.phase, ha.pend⟩
      refine ⟨h1, h2.trans ?_, h3⟩
      show (s.pbuf.drop 8).length - 8 * n = _
      omega

/-- PACK as small steps. -/
theorem packLoop_small (hi : .pack ∈ phasesOf i) (hi' : .pad ∈ phasesOf i) (n : Nat) : ∀ s, At i .pack s →
    s.pbuf.length < 8 → s.inp.ahead.length < n →
    Leads s endsHere ((readLoop packByte n s).andThen padPhase) := by
  induction n with
  | zero => intro s _ _ h; omega
  | succ n ih =>
    intro s h hp hl
    have ht := tick_pack h hi
    unfold stepPack at ht
    rw [if_neg (by omega)] at ht
    rw [readLoop]
    unfold inRead at ht ⊢
    cases ha : s.inp.ahead with
    | cons x rest =>
      simp only [ha] at ht ⊢
      generalize hs1 : note (.inRead (some x))
        { s with inp := { s.inp with taken := s.inp.taken ++ [x], ahead := rest } } = s1 at *
      have h1 : At i .pack (appendCode x s1) := by rw [← hs1]; exact ⟨h.opc, h.phase, h.pend⟩
      have hrest : (appendCode x s1).inp.ahead.length < n := by
        rw [← hs1]
        show rest.length < n
        rw [ha, List.length_cons] at hl
        omega
      refine leads_ticks (ticks_one ht) ?_
      rw [andThen_assoc, packByte]
      refine leads_andThen (emitLoop_small hi _ _ h1 (by omega)) fun s' h' => ?_
      obtain ⟨k1, k2, k3⟩ := emitLoop_kept _ _ _ (by omega) h' h1
      exact ih s' k1 (by omega) (by rw [k3]; exact hrest)
    | nil =>
      simp only [ha] at ht ⊢
      cases he : s.inp.ended with
      | true =>
        simp only [he, if_true] at ht ⊢
        simp only [Run.andThen]
        exact pad_small hi' ⟨h.opc, h.phase, h.pend⟩ ht
      | false =>
        simp only [he, Bool.false_eq_true, if_false] at ht ⊢
        exact .waiting (.refl s) ht

theorem pack_small (hi : .pack ∈ phasesOf i) (hi' : .pad ∈ phasesOf i) {s : State} (ho : s.opc = i)
    (hn : s.pend = none) : Leads (enterPack s) endsHere (packPhase s) :=
  packLoop_small hi hi' _ (enterPack s) ⟨ho, rfl, hn⟩ (by simp [enterPack]) (Nat.lt_succ_self _)

/-- A byte's bits as small steps, from a step that walks them. -/
theorem unpackBits_small (hi : .unpack ∈ phasesOf i) (bs : BitString) : ∀ s0 s,
    tick s0 = concludeSmall (descend bs s) → At i .unpack s → isLeaf s.arena.root = false →
    Leads s0 id (unpackBits bs s) := by
  induction bs with
  | nil => intro s0 s ht _ _; exact .going (ticks_one ht)
  | cons b rest ih =>
    intro s0 s ht h hroot
    rw [descend] at ht
    rw [unpackBits]
    unfold moveDown at ht ⊢
    cases hc : s.arena.child s.cur b with
    | none =>
      simp only [hc, Run.andThen] at ht ⊢
      exact .ended (ticks_one ht)
    | some m =>
      simp only [hc, Run.andThen] at ht ⊢
      cases hm : isLeaf m with
      | false =>
        simp only [hm, Bool.false_eq_true, if_false] at ht ⊢
        exact ih _ _ ht ⟨h.opc, h.phase, h.pend⟩ hroot
      | true =>
        simp only [hm, if_true] at ht ⊢
        refine leads_ticks (ticks_one ht) ?_
        generalize hs1 : ({ s with cur := m, bits := rest } : State) = s1
        have h1 : At i .unpack s1 := by rw [← hs1]; exact ⟨h.opc, h.phase, h.pend⟩
        have hr : isLeaf s1.arena.root = false := by rw [← hs1]; exact hroot
        have hl : symbolDue s1 = true := by rw [symbolDue_of_root hr, ← hs1]; exact hm
        have hb : s1.bits = rest := by rw [← hs1]
        have ht1 := tick_unpack h1 hi
        unfold stepUnpack at ht1
        rw [if_pos hl] at ht1
        unfold emitSymbol at ht1 ⊢
        cases ho : outWrite (leafByte s1.cur) s1 with
        | none =>
          simp only [ho, Run.andThen] at ht1 ⊢
          exact .waiting (.refl _) ht1
        | some s' =>
          obtain ⟨r, rfl⟩ := outWrite_spec ho
          simp only [ho, Run.andThen] at ht1 ⊢
          refine ih s1 _ (ht1.trans ?_) ⟨h1.opc, h1.phase, h1.pend⟩ hr
          rw [← hb]

/-- What a byte's bits leave behind: the walk stands at an internal node. -/
theorem unpackBits_kept (bs : BitString) : ∀ s t, unpackBits bs s = .going t → At i .unpack s →
    isLeaf s.cur = false → isLeaf s.arena.root = false →
    At i .unpack t ∧ isLeaf t.cur = false ∧ t.inp = s.inp ∧ t.arena = s.arena := by
  induction bs with
  | nil => intro s t h ha hc _; cases h; exact ⟨⟨ha.opc, ha.phase, ha.pend⟩, hc, rfl, rfl⟩
  | cons b rest ih =>
    intro s t h ha hcur hroot
    rw [unpackBits, moveDown] at h
    cases hc : s.arena.child s.cur b with
    | none => simp only [hc, Run.andThen] at h; cases h
    | some m =>
      simp only [hc, Run.andThen] at h
      cases hm : isLeaf m with
      | false =>
        simp only [hm, Bool.false_eq_true, if_false] at h
        exact ih { s with cur := m, bits := rest } t h ⟨ha.opc, ha.phase, ha.pend⟩ hm hroot
      | true =>
        simp only [hm, if_true] at h
        generalize hs1 : ({ s with cur := m, bits := rest } : State) = s1 at *
        rw [emitSymbol] at h
        cases ho : outWrite (leafByte s1.cur) s1 with
        | none => simp only [ho] at h; cases h
        | some s' =>
          obtain ⟨r, rfl⟩ := outWrite_spec ho
          simp only [ho] at h
          have hr : isLeaf s1.arena.root = false := by rw [← hs1]; exact hroot
          have := ih _ t h ⟨by rw [← hs1]; exact ha.opc, by rw [← hs1]; exact ha.phase, by rw [← hs1]; exact ha.pend⟩
            hr hr
          rw [← hs1] at this
          exact this

/-- UNPACK as small steps. -/
theorem unpackLoop_small (hi : .unpack ∈ phasesOf i) (n : Nat) : ∀ s, At i .unpack s →
    isLeaf s.cur = false → isLeaf s.arena.root = false → s.inp.ahead.length < n →
    Leads s endsHere (readLoop unpackByte n s) := by
  induction n with
  | zero => intro s _ _ _ h; omega
  | succ n ih =>
    intro s h hcur hroot hl
    have ht := tick_unpack h hi
    unfold stepUnpack at ht
    rw [symbolDue_internal hcur, if_neg (by decide)] at ht
    rw [readLoop]
    unfold inRead at ht ⊢
    cases ha : s.inp.ahead with
    | cons x rest =>
      simp only [ha] at ht ⊢
      generalize hs1 : note (.inRead (some x))
        { s with inp := { s.inp with taken := s.inp.taken ++ [x], ahead := rest } } = s1 at *
      have h1 : At i .unpack s1 := by rw [← hs1]; exact ⟨h.opc, h.phase, h.pend⟩
      have hrest : s1.inp.ahead.length < n := by
        rw [← hs1]
        show rest.length < n
        rw [ha, List.length_cons] at hl
        omega
      have hcur1 : isLeaf s1.cur = false := by rw [← hs1]; exact hcur
      have hroot1 : isLeaf s1.arena.root = false := by rw [← hs1]; exact hroot
      rw [unpackByte]
      refine leads_andThen (unpackBits_small hi _ s s1 ht h1 hroot1) fun s' h' => ?_
      obtain ⟨k1, k2, k3, k4⟩ := unpackBits_kept _ _ _ h' h1 hcur1 hroot1
      exact ih s' k1 k2 (by rw [k4]; exact hroot1) (by rw [k3]; exact hrest)
    | nil =>
      simp only [ha] at ht ⊢
      cases he : s.inp.ended with
      | true =>
        simp only [he, if_true] at ht ⊢
        exact .going (ticks_one ht)
      | false =>
        simp only [he, Bool.false_eq_true, if_false] at ht ⊢
        exact .waiting (.refl s) ht

theorem unpack_small (hi : .unpack ∈ phasesOf i) {s : State} (ho : s.opc = i) (hn : s.pend = none)
    (T : Tree s.arena) : Leads (enterUnpack s) endsHere (unpackPhase s) := by
  have hr : isLeaf s.arena.root = false := decide_eq_false (Nat.not_lt.2 T.root_internal)
  exact unpackLoop_small hi _ (enterUnpack s) ⟨ho, rfl, hn⟩ hr hr (Nat.lt_succ_self _)

/-- The command and its pending outcome, which no phase writes. -/
def opcPend (s : State) : Instr × Option Verdict := (s.opc, s.pend)

theorem fix_going {α : Type} {f : State → α} {c : α} {r : Run} {s : State} (h : r.Fix f c) (hr : r = .going s) :
    f s = c := by
  rw [hr] at h
  cases h
  assumption

theorem post_going {go : State → Prop} {bad : ErrCode → Prop} {r : Run} {s : State} (h : r.Post go bad)
    (hr : r = .going s) : go s := by
  rw [hr] at h
  cases h
  assumption

/-- Where SERIALIZE ends. -/
theorem serialize_kept {s t : State} (h : serialize s = .going t) : t.phase = .ser ∧ t.serIdx = 510 := by
  have hl : ∀ n s, serLoop n s = .going t → t.phase = s.phase ∧ t.serIdx = s.serIdx + n := by
    intro n
    induction n with
    | zero => intro s h; cases h; exact ⟨rfl, rfl⟩
    | succ n ih =>
      intro s h
      rw [serLoop, serByte] at h
      cases ho : outWrite (s.arena.mseqAt s.serIdx) s with
      | none => simp only [ho, Run.andThen] at h; cases h
      | some s' =>
        obtain ⟨r, rfl⟩ := outWrite_spec ho
        simp only [ho, Run.andThen] at h
        obtain ⟨h1, h2⟩ := ih _ h
        exact ⟨h1, h2.trans (by show s.serIdx + 1 + n = _; omega)⟩
  obtain ⟨h1, h2⟩ := hl _ _ h
  exact ⟨h1, h2.trans (by show 0 + 510 = 510; rfl)⟩

theorem derive_kept {s t : State} (h : derive s = .going t) : t.phase = .derive := by
  unfold derive at h
  split at h <;> cases h
  rfl

end

/-- A body as small steps, from the state acceptance leaves (R247). -/
theorem body_small (i : Instr) {s : State} (ho : s.opc = i) (hn : s.pend = none) :
    Leads (enterFirst i s) endsHere (bodyOf i s) := by
  have k0 : opcPend s = (i, none) := by rw [opcPend, ho, hn]
  have kacc := accumulate_fix (f := opcPend) (by intros; rfl)
  have kbuild := buildPhase_fix (f := opcPend) (by intros; rfl)
  have kser := serialize_fix (f := opcPend) (by intros; rfl)
  have kder := derive_fix (f := opcPend) (by intros; rfl)
  have kread := fun p => deserRead_fix (f := opcPend) (p := p) (by intros; cases p <;> rfl)
  have krep := deserReplay_fix (f := opcPend) (by intros; rfl)
  have o : ∀ {t : State}, opcPend t = (i, none) → t.opc = i := fun h => congrArg (·.1) h
  have n : ∀ {t : State}, opcPend t = (i, none) → t.pend = none := fun h => congrArg (·.2) h
  cases i with
  | buildTree =>
    rw [bodyOf, bodyBuildTree, andThen_assoc]
    refine leads_andThen (k := enterBuild)
      (accumulate_small (i := .buildTree) (by decide) _ (enterAcc s) ⟨ho, rfl, hn⟩ (Nat.lt_succ_self _))
      fun s1 h1 => ?_
    have k1 := (fix_going (kacc s) h1).trans k0
    refine leads_andThen (buildPhase_small (i := .buildTree) (by decide) (o k1) (n k1)) fun s2 h2 => ?_
    have k2 := (fix_going (kbuild s1) h2).trans k1
    exact serialize_small (i := .buildTree) (by decide) (o k2) (n k2)
  | encode =>
    rw [bodyOf, bodyEncode, andThen_assoc, andThen_assoc, andThen_assoc]
    refine leads_andThen (k := enterBuild)
      (accumulate_small (i := .encode) (by decide) _ (enterAcc s) ⟨ho, rfl, hn⟩ (Nat.lt_succ_self _))
      fun s1 h1 => ?_
    have k1 := (fix_going (kacc s) h1).trans k0
    refine leads_andThen (buildPhase_small (i := .encode) (by decide) (o k1) (n k1)) fun s2 h2 => ?_
    have k2 := (fix_going (kbuild s1) h2).trans k1
    refine leads_andThen (serialize_small (i := .encode) (by decide) (o k2) (n k2)) fun s3 h3 => ?_
    have k3 := (fix_going (kser s2) h3).trans k2
    obtain ⟨p3, i3⟩ := serialize_kept h3
    refine leads_andThen (derive_small (i := .encode) (by decide) rfl ⟨o k3, p3, n k3⟩ i3) fun s4 h4 => ?_
    have k4 := (fix_going (kder s3) h4).trans k3
    have ht := tick_derive (i := .encode) ⟨o k4, derive_kept h4, n k4⟩ (by decide)
    exact leads_ticks (ticks_one ht) (pack_small (i := .encode) (by decide) (by decide) (o k4) (n k4))
  | decode =>
    rw [bodyOf, bodyDecode, andThen_assoc]
    refine leads_andThen (deserRead_small (i := .decode) (by decide) rfl ho hn) fun s1 h1 => ?_
    have k1 := (fix_going (kread _ s) h1).trans k0
    refine leads_andThen (deserReplay_small (i := .decode) (by decide) (o k1) (n k1)) fun s2 h2 => ?_
    have k2 := (fix_going (krep s1) h2).trans k1
    exact unpack_small (i := .decode) (by decide) (o k2) (n k2) (post_going (deserReplay_post s1) h2)
  | encodeExt =>
    rw [bodyOf, bodyEncodeExt, andThen_assoc, andThen_assoc, andThen_assoc]
    refine leads_andThen (deserRead_small (i := .encodeExt) (by decide) rfl ho hn) fun s1 h1 => ?_
    have k1 := (fix_going (kread _ s) h1).trans k0
    refine leads_andThen (deserReplay_small (i := .encodeExt) (by decide) (o k1) (n k1)) fun s2 h2 => ?_
    have k2 := (fix_going (krep s1) h2).trans k1
    refine leads_andThen (serialize_small (i := .encodeExt) (by decide) (o k2) (n k2)) fun s3 h3 => ?_
    have k3 := (fix_going (kser s2) h3).trans k2
    obtain ⟨p3, i3⟩ := serialize_kept h3
    refine leads_andThen (derive_small (i := .encodeExt) (by decide) rfl ⟨o k3, p3, n k3⟩ i3) fun s4 h4 => ?_
    have k4 := (fix_going (kder s3) h4).trans k3
    exact pack_small (i := .encodeExt) (by decide) (by decide) (o k4) (n k4)

end Sys2Proof.Machine
end

