-- ==== Sys2Proof/Laws/Invariants.lean ====
section
/-! SUPPORT. What a small step keeps: the order of the phases, the trace and `OUT` together, and the invariant
`Consistent`; then the same along many small steps. -/

namespace Sys2Proof.Machine

/-- Wherever the stretch stops, `P` holds, and it does not break unless `brk`. -/
inductive Run.All (brk : Prop) (P : State → Prop) : Run → Prop where
  | going {s : State} (h : P s) : Run.All brk P (.going s)
  | waiting {s : State} (h : P s) : Run.All brk P (.waiting s)
  | raised (e : ErrCode) (i : BitVec 16) {s : State} (h : P s) : Run.All brk P (.raised e i s)
  | ended {s : State} (h : P s) : Run.All brk P (.ended s)
  | broken (b : Fault) (h : brk) : Run.All brk P (.broken b)

section
variable {brk : Prop} {P Q : State → Prop}

theorem all_andThen {r : Run} {g : State → Run} (h : r.All brk P) (hg : ∀ s, P s → (g s).All brk Q)
    (hw : ∀ s, P s → Q s) : (r.andThen g).All brk Q := by
  cases h with
  | going h => exact hg _ h
  | waiting h => exact .waiting (hw _ h)
  | raised e i h => exact .raised e i (hw _ h)
  | ended h => exact .ended (hw _ h)
  | broken b h => exact .broken b h

theorem all_fix {α : Type} {f : State → α} {c : α} {r : Run} (h : r.Fix f c)
    (hp : ∀ s, f s = c → P s) : r.All True P := by
  cases h with
  | going h => exact .going (hp _ h)
  | waiting h => exact .waiting (hp _ h)
  | raised e i h => exact .raised e i (hp _ h)
  | ended h => exact .ended (hp _ h)
  | broken b => exact .broken b trivial

end

/-- UNPACK's walk writes only `CUR` and the bits to walk (R180). -/
theorem descend_fix {α : Type} {f : State → α} (hf : ∀ s cu bs, f { s with cur := cu, bits := bs } = f s)
    (bs : BitString) : ∀ s, (descend bs s).Fix f (f s) := by
  induction bs with
  | nil => intro s; exact .going (hf s s.cur [])
  | cons b rest ih =>
    intro s
    rw [descend]
    refine fix_andThen (moveDown_fix hf b rest s) fun s' h' => ?_
    rw [← h']
    split
    · exact .going rfl
    · exact ih s'

theorem at_phase {i : Instr} {p q : Phase} {t : State} (ht : t.phase = q)
    (h : q ∈ phasesOf i ∧ phaseRank p ≤ phaseRank q) :
    t.phase ∈ phasesOf i ∧ phaseRank p ≤ phaseRank t.phase := by
  rw [ht]; exact h

/-- A small step stays in the command's own phases and never goes back (R24, R196). -/
theorem stepPhase_phase {s : State} (hp : s.phase ∈ phasesOf s.opc) : (stepPhase s).All True
    (fun t => t.phase ∈ phasesOf s.opc ∧ phaseRank s.phase ≤ phaseRank t.phase) := by
  generalize hi : s.opc = i at hp
  have same : ∀ t : State, t.phase = s.phase →
      t.phase ∈ phasesOf i ∧ phaseRank s.phase ≤ phaseRank t.phase := fun t h => by
    rw [h]; exact ⟨hp, le_rfl⟩
  have der : ∀ s : State, s.opc = i → s.phase = .ser → packsPayload i = true → (stepDerive s).All True
      (fun t => t.phase ∈ phasesOf i ∧ phaseRank .ser ≤ phaseRank t.phase) := by
    intro s ho h hpp
    unfold stepDerive derive
    split
    · simp only [Run.andThen, ho]
      split
      · next hr => exact .going (by cases i <;> first | exact absurd hpp (by decide) | exact absurd hr (by decide) | exact at_phase (q := .derive) rfl ⟨by decide, by decide⟩)
      · next hr => exact .going (by cases i <;> first | exact absurd hpp (by decide) | exact absurd rfl hr | exact at_phase (q := .pack) rfl ⟨by decide, by decide⟩)
    · exact .broken _ trivial
  unfold stepPhase
  cases hph : s.phase with
  | idle => exact .broken _ trivial
  | acc =>
    rw [hph] at hp same
    simp only [stepAcc]
    obtain ⟨x, q, h⟩ | h | h := inRead_cases s
    · simp only [h, accByte]
      split
      · exact .raised _ _ (same _ hph)
      · exact .going (same _ hph)
    · simp only [h]
      exact .going (by cases i <;> first | exact absurd hp (by decide) | exact at_phase (q := .build) rfl ⟨by decide, by decide⟩)
    · simp only [h]; exact .waiting (same _ hph)
  | build =>
    rw [hph] at hp same
    simp only [stepBuild]
    split
    · split
      · split
        · exact .going (same _ hph)
        · exact .going (by cases i <;> first | exact absurd hp (by decide) | exact at_phase (q := .ser) rfl ⟨by decide, by decide⟩)
      · exact .broken _ trivial
    · exact .broken _ trivial
  | ser =>
    rw [hph] at hp same
    simp only [stepSer]
    split
    · refine all_andThen (all_fix (serByte_fix (f := fun s => s.phase) (by intros; rfl) s) fun _ h => h)
        (fun t h => ?_) fun t h => same t (h.trans hph)
      split
      · exact .going (same t (h.trans hph))
      · exact .ended (same t (h.trans hph))
    · split
      · next hpp => exact der s hi hph (hi ▸ hpp)
      · exact .ended (same _ hph)
  | deserRead =>
    rw [hph] at hp same
    simp only [stepDeserRead]
    split
    · split
      · next p _ _ =>
        refine all_andThen (all_fix (deserReadByte_fix (f := fun s => s.phase) (by intros; cases p <;> rfl) s)
          fun _ h => h) (fun t h => ?_) fun t h => same t (h.trans hph)
        split
        · exact .going (same t (h.trans hph))
        · exact .going (by cases i <;> first | exact absurd hp (by decide) | exact at_phase (q := .deserReplay) rfl ⟨by decide, by decide⟩)
      · exact .broken _ trivial
    · exact .broken _ trivial
  | deserReplay =>
    rw [hph] at hp same
    simp only [stepReplay]
    split
    · refine all_andThen (all_fix (replayStep_fix (f := fun s => (s.phase, s.opc)) (by intros; rfl) s)
          fun _ h => h) (fun t h => ?_) fun t h => same t ((congrArg (·.1) h).trans hph)
      have h1 : t.phase = s.phase := congrArg (·.1) h
      have h2 : t.opc = i := (congrArg (·.2) h).trans hi
      split
      · exact .going (same t (h1.trans hph))
      · rw [h2]
        split
        · next hpp => exact .going (by cases i <;> first | exact absurd hp (by decide) | exact absurd hpp (by decide) | exact at_phase (q := .ser) rfl ⟨by decide, by decide⟩)
        · next hpp => exact .going (by cases i <;> first | exact absurd hp (by decide) | exact absurd rfl hpp | exact at_phase (q := .unpack) rfl ⟨by decide, by decide⟩)
    · exact .broken _ trivial
  | derive =>
    rw [hph] at hp same
    exact .going (by cases i <;> first | exact absurd hp (by decide) | exact at_phase (q := .pack) rfl ⟨by decide, by decide⟩)
  | pack =>
    rw [hph] at hp same
    have hpad : Phase.pad ∈ phasesOf i ∧ phaseRank .pack ≤ phaseRank .pad := by
      cases i <;> first | exact absurd hp (by decide) | exact ⟨by decide, by decide⟩
    have hfill : ∀ s : State, s.phase = .pack → (padFill s).All True
        (fun t => t.phase ∈ phasesOf i ∧ phaseRank .pack ≤ phaseRank t.phase) := by
      intro s h
      unfold padFill
      split
      · exact .going (same s h)
      · split
        · exact .raised _ _ hpad
        · exact .going hpad
    simp only [stepPack]
    split
    · exact all_fix (emitByte_fix (f := fun s => s.phase) (by intros; rfl) s) fun t h => same t (h.trans hph)
    · obtain ⟨x, q, h⟩ | h | h := inRead_cases s
      · simp only [h]; exact .going (same _ hph)
      · simp only [h]
        refine all_andThen (hfill (note (.inRead none) s) hph) (fun t h => ?_) fun t h => h
        split
        · exact .ended h
        · exact .going h
      · simp only [h]; exact .waiting (same _ hph)
  | pad =>
    rw [hph] at hp same
    simp only [stepPad]
    exact all_andThen (all_fix (padEmit_fix (f := fun s => s.phase) (by intros; rfl) s) fun _ h => h)
      (fun t h => .ended (same t (h.trans hph))) fun t h => same t (h.trans hph)
  | unpack =>
    rw [hph] at hp same
    simp only [stepUnpack]
    split
    · refine all_andThen (all_fix (emitSymbol_fix (f := fun s => s.phase) (by intros; rfl) s) fun _ h => h)
        (fun t h => ?_) fun t h => same t (h.trans hph)
      exact all_fix (descend_fix (f := fun s => s.phase) (by intros; rfl) _ t) fun u h' =>
        same u ((h'.trans h).trans hph)
    · obtain ⟨x, q, h⟩ | h | h := inRead_cases s
      · simp only [h]
        exact all_fix (descend_fix (f := fun s => s.phase) (by intros; rfl) _ _) fun u h' => same u (h'.trans hph)
      · simp only [h]; exact .ended (same _ hph)
      · simp only [h]; exact .waiting (same _ hph)

/-- What a command has shown: the trace, and `OUT`. -/
def shown (s : State) : List PortEvent × List Byte := (s.trace, s.out)

/-- At most one event more has been shown, and `OUT` has grown by the byte it wrote (R55, R56). -/
def ShowsOne (s t : State) : Prop :=
  shown t = shown s ∨ ∃ e, shown t = (e :: s.trace, s.out ++ outBytes [e])

theorem showsOne_fix {s t u : State} (h : shown u = shown t) (h' : ShowsOne s t) : ShowsOne s u := by
  rw [ShowsOne, h]; exact h'

theorem showsOne_read {s t : State} {e : PortEvent} (h : shown t = (e :: s.trace, s.out)) (he : outBytes [e] = []) :
    ShowsOne s t := .inr ⟨e, by rw [he, List.append_nil]; exact h⟩

theorem showsOne_write {s t : State} {b : Byte} (h : outWrite b s = some t) : ShowsOne s t := by
  obtain ⟨r, rfl⟩ := outWrite_spec h
  exact .inr ⟨.outWrite b, rfl⟩

/-- A small step of any phase shows at most one event (R56, R247). -/
theorem stepPhase_shows (s : State) : (stepPhase s).All True (ShowsOne s) := by
  have same : ∀ t : State, shown t = shown s → ShowsOne s t := fun t h => .inl h
  have der : (stepDerive s).All True (ShowsOne s) := by
    unfold stepDerive
    refine all_andThen (all_fix (derive_fix (f := shown) (by intros; rfl) s) same) (fun t h => ?_) fun _ h => h
    split
    · exact .going h
    · exact .going (showsOne_fix rfl h)
  unfold stepPhase
  split
  · exact .broken _ trivial
  · simp only [stepAcc]
    obtain ⟨x, q, h⟩ | h | h := inRead_cases s
    · simp only [h, accByte]
      split
      · exact .raised _ _ (showsOne_read rfl rfl)
      · exact .going (showsOne_read rfl rfl)
    · simp only [h]; exact .going (showsOne_read rfl rfl)
    · simp only [h]; exact .waiting (same _ rfl)
  · simp only [stepBuild]
    split
    · split
      · split
        · exact .going (same _ rfl)
        · exact .going (same _ rfl)
      · exact .broken _ trivial
    · exact .broken _ trivial
  · simp only [stepSer]
    split
    · simp only [serByte]
      split
      · next s' h =>
        simp only [Run.andThen]
        split
        · exact .going (showsOne_fix (t := s') rfl (showsOne_write h))
        · exact .ended (showsOne_fix (t := s') rfl (showsOne_write h))
      · exact .waiting (same _ rfl)
    · split
      · exact der
      · exact .ended (same _ rfl)
  · simp only [stepDeserRead]
    split
    · split
      · next p _ _ =>
        simp only [deserReadByte]
        obtain ⟨x, q, h⟩ | h | h := portRead_cases p s
        · simp only [h, Run.andThen]
          split
          · exact .going (by cases p <;> exact showsOne_read rfl rfl)
          · exact .going (by cases p <;> exact showsOne_read rfl rfl)
        · simp only [h, Run.andThen]
          exact .raised _ _ (by cases p <;> exact showsOne_read rfl rfl)
        · simp only [h, Run.andThen]; exact .waiting (same _ rfl)
      · exact .broken _ trivial
    · exact .broken _ trivial
  · simp only [stepReplay]
    split
    · refine all_andThen (all_fix (replayStep_fix (f := shown) (by intros; rfl) s) same) (fun t h => ?_)
        fun _ h => h
      split
      · exact .going h
      · split
        · exact .going (showsOne_fix rfl h)
        · exact .going (showsOne_fix rfl h)
    · exact .broken _ trivial
  · exact .going (showsOne_read rfl rfl)
  · simp only [stepPack]
    split
    · simp only [emitByte]
      split
      · next s' h => exact .going (showsOne_fix (t := s') rfl (showsOne_write h))
      · exact .waiting (same _ rfl)
    · obtain ⟨x, q, h⟩ | h | h := inRead_cases s
      · simp only [h]; exact .going (showsOne_read rfl rfl)
      · simp only [h]
        have hn : ShowsOne s (note (.inRead none) s) := showsOne_read rfl rfl
        refine all_andThen (all_fix (padFill_fix (f := shown) (by intros; rfl) _) fun t h => showsOne_fix h hn)
          (fun t h => ?_) fun _ h => h
        split
        · exact .ended h
        · exact .going h
      · simp only [h]; exact .waiting (same _ rfl)
  · simp only [stepPad, padEmit]
    split
    · exact .ended (same _ rfl)
    · split
      · next s' h => exact .ended (showsOne_fix (t := s') rfl (showsOne_write h))
      · exact .waiting (same _ rfl)
  · simp only [stepUnpack]
    split
    · simp only [emitSymbol]
      split
      · next s' h =>
        simp only [Run.andThen]
        exact all_fix (descend_fix (f := shown) (by intros; rfl) _ _) fun u h' =>
          showsOne_fix h' (showsOne_fix (t := s') rfl (showsOne_write h))
      · exact .waiting (same _ rfl)
    · obtain ⟨x, q, h⟩ | h | h := inRead_cases s
      · simp only [h]
        exact all_fix (descend_fix (f := shown) (by intros; rfl) _ _) fun u h' =>
          showsOne_fix h' (showsOne_read rfl rfl)
      · simp only [h]; exact .ended (showsOne_read rfl rfl)
      · simp only [h]; exact .waiting (same _ rfl)

theorem all_of_eq {brk : Prop} {P : State → Prop} {r : Run} {s : State} (h : r.All brk P)
    (hr : r = .going s ∨ r = .waiting s ∨ r = .ended s ∨ ∃ e i, r = .raised e i s) : P s := by
  obtain rfl | rfl | rfl | ⟨e, i, rfl⟩ := hr <;> cases h <;> assumption

/-- A small step keeps how the registers hang together. -/
theorem tick_consistent {s t : State} (C : Consistent s) (h : tick s = .next t) : Consistent t := by
  obtain ⟨v, hv, rfl⟩ | ⟨hp, hph, s', hreg, ht⟩ := tick_cases h
  · have hb : s.status = .busy := C.pend_busy (by rw [hv]; simp)
    have he : s.err = .none := by
      by_contra hne
      have := C.err_iff.1 hne
      rw [hb] at this
      cases this
    cases v with
    | finished => exact
      { idle_iff := ⟨fun _ => by simp [applyVerdict, finish, settle], fun _ => rfl⟩
        phase_own := fun h => by cases h
        last_op := fun h => by cases h
        err_iff := ⟨fun h => absurd he h, fun h => by cases h⟩
        info_zero := C.info_zero
        pend_busy := fun h => absurd rfl h
        pend_code := fun e i h => by cases h
        out_trace := by
          show s.out = outBytes (.stateFinal .done :: s.trace)
          exact C.out_trace }
    | raised e i =>
      have hne := C.pend_code e i hv
      exact
      { idle_iff := ⟨fun _ => by simp [applyVerdict, raiseError, settle], fun _ => rfl⟩
        phase_own := fun h => by cases h
        last_op := fun h => by cases h
        err_iff := ⟨fun _ => rfl, fun _ => hne⟩
        info_zero := fun h => absurd h hne
        pend_busy := fun h => absurd rfl h
        pend_code := fun e i h => by cases h
        out_trace := by
          show s.out = outBytes (.stateFinal .error :: s.trace)
          exact C.out_trace }
  · have hne : s.phase ≠ .idle := by
      intro h
      rw [h] at hph
      generalize s.opc = i at hph
      cases i <;> exact absurd hph (by decide)
    have hb : s.status = .busy := by
      by_contra hn
      exact hne (C.idle_iff.2 hn)
    have he : s.err = .none := by
      by_contra hn
      have := C.err_iff.1 hn
      rw [hb] at this
      cases this
    have hstop : stepPhase s = .going s' ∨ stepPhase s = .waiting s' ∨ stepPhase s = .ended s' ∨
        ∃ e i, stepPhase s = .raised e i s' := by
      rcases ht with ⟨h, -⟩ | ⟨h, -⟩ | ⟨h, -⟩ | ⟨e, i, -, h, -⟩
      · exact .inl h
      · exact .inr (.inl h)
      · exact .inr (.inr (.inl h))
      · exact .inr (.inr (.inr ⟨e, i, h⟩))
    have h1 := (all_of_eq (stepPhase_phase hph) hstop).1
    have h2 := all_of_eq (stepPhase_shows s) hstop
    simp only [registers, Prod.mk.injEq] at hreg
    obtain ⟨a1, -, a3, a4, a5, a6, a7, -, -⟩ := hreg
    have hidle : s'.phase ≠ .idle := by
      intro h
      rw [h] at h1
      generalize s.opc = i at h1
      cases i <;> exact absurd h1 (by decide)
    have hout : s'.out = outBytes s'.trace := by
      simp only [ShowsOne, shown, Prod.mk.injEq] at h2
      obtain ⟨h3, h4⟩ | ⟨e, h3, h4⟩ := h2
      · rw [h3, h4, C.out_trace]
      · rw [h3, h4, C.out_trace, ← outBytes_append]; rfl
    have key : ∀ p : Option Verdict, (∀ e i, p = some (.raised e i) → e ≠ .none) →
        Consistent { s' with pend := p } := fun p hpc =>
      { idle_iff := ⟨fun h => absurd h hidle, fun h => absurd (a1.trans hb) h⟩
        phase_own := fun _ => a6 ▸ h1
        last_op := fun _ => by show s'.lastOp = opcodeOf s'.opc; rw [a5, a6]; exact C.last_op hb
        err_iff := ⟨fun h => absurd (a3.trans he) h, fun h => by
          have := (a1.trans hb).symm.trans h; cases this⟩
        info_zero := fun _ => a4.trans (C.info_zero he)
        pend_busy := fun _ => a1.trans hb
        pend_code := hpc
        out_trace := hout }
    have hs' : ({ s' with pend := none } : State) = s' := by rw [← hp, ← a7]
    rcases ht with ⟨-, rfl⟩ | ⟨-, rfl⟩ | ⟨-, rfl⟩ | ⟨e, i, he', -, rfl⟩
    · exact hs' ▸ key none (by simp)
    · exact hs' ▸ key none (by simp)
    · exact key _ (by simp)
    · refine key _ fun e' i' h => ?_
      cases h
      exact he'

/-- Acceptance sets the registers up. -/
theorem start_consistent (i : Instr) {s : State} : Consistent (start i s) := by
  have hd : (phasesOf i).head? = some (start i s).phase := by cases i <;> rfl
  have hi : (start i s).phase ≠ .idle := by cases i <;> exact fun h => by cases h
  have hb : (start i s).status = .busy := by cases i <;> rfl
  have he : (start i s).err = .none := by cases i <;> rfl
  have ho : (start i s).opc = i := by cases i <;> rfl
  have hp : (start i s).pend = none := by cases i <;> rfl
  exact
    { idle_iff := ⟨fun h => absurd h hi, fun h => absurd hb h⟩
      phase_own := fun _ => by rw [ho]; exact List.mem_of_mem_head? hd
      last_op := fun _ => by cases i <;> rfl
      err_iff := ⟨fun h => absurd he h, fun h => by rw [hb] at h; cases h⟩
      info_zero := fun _ => by cases i <;> rfl
      pend_busy := fun h => absurd hp h
      pend_code := fun e j h => by rw [hp] at h; cases h
      out_trace := by cases i <;> rfl }

/-! ### Many small steps -/

theorem ticks_keep {P : State → Prop} (h : ∀ s t, P s → tick s = .next t → P t) {s t : State} (hs : P s)
    (ht : Ticks s t) : P t := by
  induction ht with
  | refl => exact hs
  | step h1 _ ih => exact ih (h _ _ hs h1)

/-- Along small steps the registers hang together. -/
theorem ticks_consistent {s t : State} (C : Consistent s) (h : Ticks s t) : Consistent t :=
  ticks_keep (fun _ _ C h => tick_consistent C h) C h

end Sys2Proof.Machine
end

