-- ==== Sys2Proof/Laws/PerInstr.lean ====
section
/-! SUPPORT. Statements for all commands, one lemma a command. -/

namespace Sys2Proof.Laws.RoundTrip

/-- A command is well formed, its word is legal, and the word decodes to it alone (R72, R74). -/
def Statement (i : Instr) : Prop :=
  i.wellFormed = true ∧ wellFormedWord (encode i) = true ∧ decode (encode i) = .ok i ∧
    ∀ j, encode j = encode i → j = i

theorem buildTree : Statement .buildTree := ⟨rfl, by decide, rfl, fun j h => by cases j <;> first | rfl | exact absurd h (by decide)⟩

theorem encode : Statement .encode := ⟨rfl, by decide, rfl, fun j h => by cases j <;> first | rfl | exact absurd h (by decide)⟩

theorem decode : Statement .decode := ⟨rfl, by decide, rfl, fun j h => by cases j <;> first | rfl | exact absurd h (by decide)⟩

theorem encodeExt : Statement .encodeExt := ⟨rfl, by decide, rfl, fun j h => by cases j <;> first | rfl | exact absurd h (by decide)⟩

end Sys2Proof.Laws.RoundTrip
end

