-- ==== Sys2Proof/Laws/Soundness.lean ====
section
/-! SUPPORT. The invariant `Sound`: a small step keeps the weights within their width, the working state of each
phase as `PhaseOk` has it, and `PAD_UNAVAILABLE` away; then the same along many small steps. -/

namespace Sys2Proof.Machine

/-! ### The weights within their width (R33, R34) -/

/-- An arena with the weights of one whose weights fit. -/
theorem fits_of_same {a b : Arena} (h : (b.weightWidth, b.w, b.total) = (a.weightWidth, a.w, a.total))
    (W : WeightsFit a) : WeightsFit b := by
  simp only [Prod.mk.injEq] at h
  obtain ⟨h1, h2, h3⟩ := h
  refine ⟨by rw [h1, h3]; exact W.1, fun n => ?_⟩
  have := W.2 n
  rwa [Arena.weightAt, h2, h1]

theorem fits_setWeight {a : Arena} {n : NodeIdx} {x : Nat} (W : WeightsFit a) : WeightsFit (a.setWeight n x) := by
  refine ⟨W.1, fun m => ?_⟩
  have h0 : (0 : Nat) < 2 ^ a.weightWidth := Nat.two_pow_pos _
  have := W.2 m
  simp only [Arena.weightAt, Arena.setWeight, Vector.getElem?_setIfInBounds] at this ⊢
  split
  · split
    · exact fit_lt _ _
    · exact h0
  · exact this

theorem fits_countByte {a : Arena} (x : Byte) (W : WeightsFit a) : WeightsFit (countByte x a) :=
  fits_setWeight ⟨fit_lt _ _, W.2⟩

theorem fits_mergeStep {a b : Arena} (h : mergeStep a = some b) (W : WeightsFit a) : WeightsFit b := by
  obtain ⟨lo, hi, rfl⟩ := mergeStep_eq h
  exact fits_of_same (a := a.setWeight (mergeNode a.k) (a.weightAt (a.slotAt lo) + a.weightAt (a.slotAt hi)))
    rfl (fits_setWeight W)

theorem fits_mergeLoop (n : Nat) : ∀ {a b : Arena}, mergeLoop n a = some b → WeightsFit a → WeightsFit b := by
  induction n with
  | zero => intro a b h W; obtain rfl := Option.some.inj h; exact W
  | succ n ih =>
    intro a b h W
    obtain ⟨c, hc, hcb⟩ := Option.bind_eq_some_iff.1 h
    exact ih hcb (fits_mergeStep hc W)

/-- At reset every weight is 0, which fits any width. -/
theorem fits_reset (width : Nat) : WeightsFit (Arena.reset width) := by
  have h0 : (0 : Nat) < 2 ^ width := Nat.two_pow_pos _
  refine ⟨h0, fun n => ?_⟩
  simp only [Arena.weightAt, Arena.reset, Vector.getElem?_replicate]
  split <;> exact h0

theorem fits_clearWeights {a : Arena} (W : WeightsFit a) : WeightsFit (clearWeights a) := by
  have h0 : (0 : Nat) < 2 ^ a.weightWidth := Nat.two_pow_pos _
  refine ⟨by rw [total_clearWeights, width_clearWeights]; exact h0, fun n => ?_⟩
  rw [weightAt_clearWeights, width_clearWeights]
  split
  · exact h0
  · exact W.2 n

/-- A small step of any phase keeps the weights within their width. -/
theorem stepPhase_fits {s : State} (W : WeightsFit s.arena) :
    (stepPhase s).All True fun t => WeightsFit t.arena := by
  let f : State → Nat × Vector Nat 511 × Nat := fun s => (s.arena.weightWidth, s.arena.w, s.arena.total)
  have same : ∀ {s : State}, WeightsFit s.arena → ∀ t : State, f t = f s → WeightsFit t.arena :=
    fun W t h => fits_of_same h W
  have desc : ∀ (bs : BitString) (t : State), f t = f s →
      (descend bs t).All True fun t => WeightsFit t.arena := fun bs t ht =>
    all_fix (descend_fix (f := f) (by intros; rfl) bs t) fun u hu => same W u (hu.trans ht)
  have der : (stepDerive s).All True fun t => WeightsFit t.arena := by
    unfold stepDerive
    refine all_andThen (all_fix (derive_fix (f := f) (by intros; rfl) s) (same W)) (fun t h => ?_) fun _ h => h
    split
    · exact .going h
    · exact .going (same h _ rfl)
  unfold stepPhase
  split
  · exact .broken _ trivial
  · simp only [stepAcc]
    obtain ⟨x, q, h⟩ | h | h := inRead_cases s
    · simp only [h, accByte]
      split
      · exact .raised _ _ W
      · exact .going (fits_countByte x W)
    · simp only [h]; exact .going (fits_of_same (a := s.arena) rfl W)
    · simp only [h]; exact .waiting W
  · simp only [stepBuild]
    split
    · split
      · next a ha =>
        have W' := fits_mergeStep ha W
        split
        · exact .going W'
        · exact .going (fits_of_same (a := a) rfl W')
      · exact .broken _ trivial
    · exact .broken _ trivial
  · simp only [stepSer]
    split
    · refine all_andThen (all_fix (serByte_fix (f := f) (by intros; rfl) s) (same W)) (fun t h => ?_) fun _ h => h
      split
      · exact .going h
      · exact .ended h
    · split
      · exact der
      · exact .ended W
  · simp only [stepDeserRead]
    split
    · split
      · next p _ _ =>
        refine all_andThen (all_fix (deserReadByte_fix (f := f) (by intros; cases p <;> rfl) s) (same W))
          (fun t h => ?_) fun _ h => h
        split
        · exact .going h
        · exact .going (fits_of_same (a := t.arena) rfl h)
      · exact .broken _ trivial
    · exact .broken _ trivial
  · simp only [stepReplay]
    split
    · refine all_andThen (all_fix (replayStep_fix (f := f) (by intros; rfl) s) (same W)) (fun t h => ?_)
        fun _ h => h
      split
      · exact .going h
      · split
        · exact .going (fits_of_same (a := t.arena) rfl h)
        · exact .going (fits_of_same (a := t.arena) rfl h)
    · exact .broken _ trivial
  · exact .going W
  · simp only [stepPack]
    split
    · exact all_fix (emitByte_fix (f := f) (by intros; rfl) s) (same W)
    · obtain ⟨x, q, h⟩ | h | h := inRead_cases s
      · simp only [h]; exact .going W
      · simp only [h]
        refine all_andThen (all_fix (padFill_fix (f := f) (by intros; rfl) _)
          (same (s := note (.inRead none) s) W)) (fun t h => ?_) fun _ h => h
        split
        · exact .ended h
        · exact .going h
      · simp only [h]; exact .waiting W
  · exact all_andThen (all_fix (padEmit_fix (f := f) (by intros; rfl) s) (same W)) (fun _ h => .ended h)
      fun _ h => h
  · simp only [stepUnpack]
    split
    · exact all_andThen (all_fix (emitSymbol_fix (f := f) (by intros; rfl) s) fun _ h => h)
        (fun t h => desc _ t h) (same W)
    · obtain ⟨x, q, h⟩ | h | h := inRead_cases s
      · simp only [h]; exact desc _ _ rfl
      · simp only [h]; exact .ended W
      · simp only [h]; exact .waiting W

/-! ### Each phase -/

/-- The stretch does not break, where the command goes on `P` holds, and what it raises is not
`PAD_UNAVAILABLE`. -/
inductive Run.Runs (P : State → Prop) : Run → Prop where
  | going {s : State} (h : P s) : Run.Runs P (.going s)
  | waiting {s : State} (h : P s) : Run.Runs P (.waiting s)
  | raised {e : ErrCode} (i : BitVec 16) (s : State) (h : e ≠ .padUnavailable) : Run.Runs P (.raised e i s)
  | ended (s : State) : Run.Runs P (.ended s)

theorem tcnt_storeTreeByte {b : Byte} {a : Arena} (h : a.tcnt.toNat < 510) :
    (storeTreeByte b a).tcnt.toNat = a.tcnt.toNat + 1 := by
  have e : (1 : BitVec 10).toNat = 1 := rfl
  show (a.tcnt + 1).toNat = _
  rw [BitVec.toNat_add, e]; omega

section
variable {s : State}

theorem phaseOk_acc (h : s.phase = .acc)
    (hs : ∑ v : Byte, s.arena.weightAt (leafNode v) = s.arena.total) : PhaseOk s := by
  unfold PhaseOk; rw [h]; exact hs

theorem phaseOk_build (h : s.phase = .build) (F : Forest s.arena) (hk : s.arena.k.toNat < 255)
    (hw : liveWeight s.arena = s.arena.total) : PhaseOk s := by
  unfold PhaseOk; rw [h]; exact ⟨F, hk, hw⟩

theorem phaseOk_ser (h : s.phase = .ser) (T : Tree s.arena) (hi : s.serIdx ≤ 510) : PhaseOk s := by
  unfold PhaseOk; rw [h]; exact ⟨T, hi⟩

theorem phaseOk_deserRead (h : s.phase = .deserRead) (ht : s.arena.tcnt.toNat < 510) : PhaseOk s := by
  unfold PhaseOk; rw [h]; exact ht

theorem phaseOk_deserReplay (h : s.phase = .deserReplay) (F : Forest s.arena) (hk : s.arena.k.toNat < 255) :
    PhaseOk s := by
  unfold PhaseOk; rw [h]; exact ⟨F, hk⟩

theorem phaseOk_derive (h : s.phase = .derive) (T : Tree s.arena) (C : CodesOf s.arena s.table) : PhaseOk s := by
  unfold PhaseOk; rw [h]; exact ⟨T, C⟩

theorem phaseOk_pack (h : s.phase = .pack) (T : Tree s.arena) (C : CodesOf s.arena s.table)
    (hl : s.pbuf.length ≤ 262) : PhaseOk s := by
  unfold PhaseOk; rw [h]; exact ⟨T, C, hl⟩

theorem phaseOk_pad (h : s.phase = .pad) (T : Tree s.arena) (C : CodesOf s.arena s.table)
    (hl : s.pbuf.length = 8) : PhaseOk s := by
  unfold PhaseOk; rw [h]; exact ⟨T, C, hl⟩

theorem phaseOk_unpack (h : s.phase = .unpack) (T : Tree s.arena) (hc : s.cur.toNat < 511)
    (hb : if isLeaf s.cur then s.bits.length ≤ 7 else s.bits = []) : PhaseOk s := by
  unfold PhaseOk; rw [h]; exact ⟨T, hc, hb⟩

end

/-- An internal node of a tree has both children, each a node of lower index (R31, R32, R184). -/
theorem tree_child {a : Arena} (T : Tree a) {n : NodeIdx} (h : isLeaf n = false) (hn : n.toNat < 511)
    (b : Bool) : ∃ m, a.child n b = some m ∧ m.toNat < n.toNat := by
  refine T.ordered n ?_ (by omega) b
  rw [Bool.eq_false_iff, ne_eq, isLeaf_iff] at h
  omega

theorem root_not_leaf {a : Arena} (T : Tree a) : isLeaf a.root = false := by
  rw [Bool.eq_false_iff, ne_eq, isLeaf_iff]
  have := T.root_internal
  omega

/-- From an internal node of a tree UNPACK's walk follows a path in the tree: it ends at the first leaf, with the
bits after it, or at an internal node with no bit left (R180, R181, R184). -/
theorem descend_tree (bs : BitString) : ∀ s : State, Tree s.arena → isLeaf s.cur = false → s.cur.toNat < 511 →
    ∃ n p l, descend bs s = .going { s with cur := n, bits := l } ∧ bs = p ++ l ∧
      follow s.arena s.cur p = some n ∧ n.toNat < 511 ∧
      if isLeaf n then l.length < bs.length else l = [] := by
  induction bs with
  | nil => intro s _ hl hc; exact ⟨s.cur, [], [], rfl, rfl, follow_nil _ _, hc, by simp [hl]⟩
  | cons b rest ih =>
    intro s T hl hc
    obtain ⟨m, hm, hlt⟩ := tree_child T hl hc b
    rw [descend, moveDown, hm]
    simp only [Run.andThen]
    split
    · next hleaf =>
      refine ⟨m, [b], rest, rfl, rfl, by rw [follow_cons hm, follow_nil], by omega, ?_⟩
      rw [if_pos hleaf]; exact Nat.lt_succ_self _
    · next hleaf =>
      obtain ⟨n, p, l, h1, h2, h3, h4, h5⟩ := ih { s with cur := m, bits := rest } T (by simpa using hleaf)
        (by show m.toNat < 511; omega)
      refine ⟨n, b :: p, l, h1, by rw [h2]; rfl, by rw [follow_cons hm]; exact h3, h4, ?_⟩
      split at h5
      · next h => rw [if_pos h]; exact Nat.lt_succ_of_lt h5
      · next h => rw [if_neg h]; exact h5

theorem descend_runs {bs : BitString} {s : State} (hph : s.phase = .unpack) (T : Tree s.arena)
    (hl : isLeaf s.cur = false) (hc : s.cur.toNat < 511) (hb : bs.length ≤ 8) : (descend bs s).Runs PhaseOk := by
  obtain ⟨n, p, l, h1, -, -, h2, h3⟩ := descend_tree bs s T hl hc
  rw [h1]
  refine .going (phaseOk_unpack hph T h2 ?_)
  show if isLeaf n = true then l.length ≤ 7 else l = []
  split at h3
  · next h => rw [if_pos h]; omega
  · next h => rw [if_neg h]; exact h3

/-- DERIVE of a whole tree does not break, and fills the code table (R150, R151). -/
theorem stepDerive_runs {s : State} (T : Tree s.arena) : (stepDerive s).Runs PhaseOk := by
  obtain ⟨t, h, C⟩ := derive_spec T
  rw [stepDerive, h]
  simp only [Run.andThen]
  split
  · exact .going (phaseOk_derive rfl T C)
  · exact .going (phaseOk_pack rfl T C (Nat.zero_le _))

/-- PAD under the code of a tree completes the last byte: the search finds a code that is long enough
(R163, R165). -/
theorem padFill_tree {s : State} (C : CodesOf s.arena s.table) (hl : s.pbuf.length < 8) :
    (s.pbuf = [] ∧ padFill s = .going s) ∨
    ∃ p, padFill s = .going { s with phase := .pad, pbuf := p } ∧ p.length = 8 := by
  unfold padFill
  by_cases hn : s.pbuf = []
  · exact .inl ⟨hn, by rw [if_pos hn]⟩
  · have h1 : 0 < s.pbuf.length := List.length_pos_of_ne_nil hn
    obtain ⟨v, h2, h3⟩ := padChoice_some C (need := padNeed s) (by unfold padNeed; omega)
    refine .inr ⟨s.pbuf ++ (s.table.codeAt v).take (padNeed s), by rw [if_neg hn, h2], ?_⟩
    rw [List.length_append, List.length_take]
    unfold padNeed at h3 ⊢
    omega

/-- In a sound phase a small step does not break, and the phase it leads to is sound again. -/
theorem stepPhase_runs {s : State} (hp : s.phase ∈ phasesOf s.opc) (W : WeightsFit s.arena) (ok : PhaseOk s) :
    (stepPhase s).Runs PhaseOk := by
  have init : ∀ a : Arena, Forest (initSlots a) ∧ (initSlots a).k.toNat < 255 := fun a =>
    ⟨initSlots_forest a, by simp⟩
  have ok' := ok
  unfold PhaseOk at ok'
  unfold stepPhase
  cases hph : s.phase with
  | idle =>
    rw [hph] at hp
    generalize s.opc = i at hp
    cases i <;> exact absurd hp (by decide)
  | acc =>
    rw [hph] at ok'
    simp only [stepAcc]
    obtain ⟨x, q, h⟩ | h | h := inRead_cases s
    · simp only [h, accByte]
      split
      · exact .raised _ _ (by decide)
      · next hne =>
        have hle : ∀ v, s.arena.weightAt (leafNode v) ≤ s.arena.total := fun v => by
          rw [← ok']; exact Finset.single_le_sum (f := fun v => s.arena.weightAt (leafNode v))
            (fun _ _ => Nat.zero_le _) (Finset.mem_univ v)
        have hlt : s.arena.total < s.arena.maxInput :=
          Nat.lt_of_le_of_ne (le_maxInput.2 W.1) hne
        obtain ⟨h1, h2⟩ := countByte_spec x hlt hle
        refine .going (phaseOk_acc hph ?_)
        show ∑ v : Byte, (countByte x s.arena).weightAt (leafNode v) = (countByte x s.arena).total
        simp only [h1, h2, Finset.sum_add_distrib, ok']
        simp
    · simp only [h]
      exact .going (phaseOk_build rfl (init _).1 (init _).2 ((liveWeight_initSlots _).trans ok'))
    · simp only [h]; exact .waiting ok
  | build =>
    rw [hph] at ok'
    obtain ⟨F, hk, hw⟩ := ok'
    obtain ⟨lo, hi, hlt, h1, h2, h3⟩ := mergeStep_pair F hk
    have F' := mergePair_forest F hk h1 h2 hlt
    simp only [stepBuild, h3]
    rw [if_pos hk]
    split
    · next hl =>
      refine .going (phaseOk_build hph F' hl ?_)
      exact (liveWeight_mergePair F hk h1 h2 hlt (by rw [hw]; exact le_maxInput.2 W.1)).trans hw
    · next hl =>
      have hk' : (mergePair lo hi s.arena).k.toNat = s.arena.k.toNat + 1 := by
        rw [k_mergePair, toNat_succ_k hk]
      have hk'' : (mergePair lo hi s.arena).k.toNat = 255 := by
        have : Config.merges = 255 := rfl
        omega
      exact .going (phaseOk_ser rfl (takeRoot_tree F' hk'') (Nat.zero_le _))
  | ser =>
    rw [hph] at ok'
    obtain ⟨T, hi⟩ := ok'
    simp only [stepSer]
    split
    · next hlt =>
      simp only [serByte]
      split
      · next s' ho =>
        obtain ⟨r, rfl⟩ := outWrite_spec ho
        simp only [Run.andThen]
        split
        · exact .going (phaseOk_ser hph T hlt)
        · exact .ended _
      · exact .waiting ok
    · split
      · exact stepDerive_runs T
      · exact .ended _
  | deserRead =>
    rw [hph] at ok' hp
    simp only [stepDeserRead]
    split
    · next p _ =>
      rw [if_pos ok']
      simp only [deserReadByte]
      obtain ⟨x, q, h⟩ | h | h := portRead_cases p s
      · simp only [h, Run.andThen]
        split
        · next hl => exact .going (phaseOk_deserRead (by cases p <;> exact hph) hl)
        · exact .going (phaseOk_deserReplay rfl (init _).1 (init _).2)
      · simp only [h, Run.andThen]; exact .raised _ _ (by decide)
      · simp only [h, Run.andThen]; exact .waiting ok
    · next h =>
      generalize s.opc = i at hp h
      cases i <;> first | exact absurd hp (by decide) | exact absurd h (by decide)
  | deserReplay =>
    rw [hph] at ok'
    obtain ⟨F, hk⟩ := ok'
    simp only [stepReplay]
    rw [if_pos hk, replayStep]
    obtain ⟨e, h, he⟩ | ⟨lo, hi, h, F'⟩ := replayPair_forest F hk
    · simp only [h, Run.andThen]
      exact .raised _ _ (by rcases he with rfl | rfl <;> decide)
    · simp only [h, Run.andThen]
      have hk' : (linkPair lo hi s.arena).k.toNat = s.arena.k.toNat + 1 := by
        rw [k_linkPair, toNat_succ_k hk]
      split
      · next hl => exact .going (phaseOk_deserReplay hph F' hl)
      · next hl =>
        have hk'' : (linkPair lo hi s.arena).k.toNat = 255 := by
          have : Config.merges = 255 := rfl
          omega
        have T := takeRoot_tree F' hk''
        split
        · exact .going (phaseOk_ser rfl T (Nat.zero_le _))
        · refine .going (phaseOk_unpack rfl T T.root_node ?_)
          show if isLeaf (takeRoot (linkPair lo hi s.arena)).root = true then _ else _
          rw [root_not_leaf T]
          rfl
  | derive =>
    rw [hph] at ok'
    exact .going (phaseOk_pack rfl ok'.1 ok'.2 (Nat.zero_le _))
  | pack =>
    rw [hph] at ok'
    obtain ⟨T, C, hl⟩ := ok'
    simp only [stepPack]
    split
    · simp only [emitByte]
      split
      · next s' ho =>
        obtain ⟨r, rfl⟩ := outWrite_spec ho
        refine .going (phaseOk_pack hph T C ?_)
        show (s.pbuf.drop 8).length ≤ 262
        rw [List.length_drop]; omega
      · exact .waiting ok
    · next hlt =>
      obtain ⟨x, q, h⟩ | h | h := inRead_cases s
      · simp only [h]
        refine .going (phaseOk_pack hph T C ?_)
        show (s.pbuf ++ s.table.codeAt x).length ≤ 262
        have := (C x).2.2.2
        rw [List.length_append]; omega
      · simp only [h]
        obtain ⟨h1, h2⟩ | ⟨p, h1, h2⟩ := padFill_tree (s := note (.inRead none) s) C
          (by show s.pbuf.length < 8; omega)
        · rw [h2]
          simp only [Run.andThen]
          rw [if_pos h1]
          exact .ended _
        · rw [h1]
          simp only [Run.andThen]
          split
          · exact .ended _
          · exact .going (phaseOk_pad rfl T C h2)
      · simp only [h]; exact .waiting ok
  | pad =>
    simp only [stepPad, padEmit]
    split
    · exact .ended _
    · split
      · exact .ended _
      · exact .waiting ok
  | unpack =>
    rw [hph] at ok'
    obtain ⟨T, hc, hb⟩ := ok'
    simp only [stepUnpack, symbolDue_of_root (root_not_leaf T)]
    split
    · next hl =>
      rw [if_pos hl] at hb
      simp only [emitSymbol]
      split
      · next s' ho =>
        obtain ⟨r, rfl⟩ := outWrite_spec ho
        exact descend_runs hph T (root_not_leaf T) T.root_node (Nat.le_succ_of_le hb)
      · exact .waiting ok
    · next hl =>
      obtain ⟨x, q, h⟩ | h | h := inRead_cases s
      · simp only [h]
        exact descend_runs hph T (by simpa using hl) hc (le_of_eq (bits8_length x))
      · simp only [h]; exact .ended _
      · simp only [h]; exact .waiting ok

/-! ### The step -/

/-- From a sound state in which a command runs, a small step leads to a sound state. -/
theorem tick_sound {s : State} (S : Sound s) (hb : busy s = true) : ∃ t, tick s = .next t ∧ Sound t := by
  have hbs : s.status = .busy := by simpa [busy] using hb
  cases hp : s.pend with
  | some v =>
    have ht : tick s = .next (applyVerdict v s) := by rw [tick, hp]
    refine ⟨_, ht, tick_consistent S.consistent ht, ?_, ?_, fun h => ?_⟩
    · cases v <;> exact S.weights_fit
    · cases v with
      | finished => exact ⟨S.no_pad_error.1, fun i h => by cases h⟩
      | raised e i =>
        refine ⟨fun (h : e = .padUnavailable) => ?_, fun i h => by cases h⟩
        exact S.no_pad_error.2 i (by rw [hp, h])
    · cases v <;> cases h
  | none =>
    have hph := S.consistent.phase_own hbs
    have hr := stepPhase_runs hph S.weights_fit (S.phase_ok hbs hp)
    have hf := stepPhase_fits S.weights_fit
    have hg := stepPhase_fix (f := fun s => (s.err, s.pend)) (by intros; rfl) s
    have ht := tick_phase hp hph
    have none_ok : ∀ t : State, (t.err, t.pend) = (s.err, s.pend) →
        t.err ≠ .padUnavailable ∧ ∀ i, t.pend ≠ some (.raised .padUnavailable i) := fun t h => by
      simp only [Prod.mk.injEq] at h
      rw [h.1, h.2]
      exact S.no_pad_error
    generalize stepPhase s = r at hr hf hg ht
    cases hr with
    | going h =>
      cases hf with | going hf => cases hg with | going hg =>
      exact ⟨_, ht, tick_consistent S.consistent ht, hf, none_ok _ hg, fun _ _ => h⟩
    | waiting h =>
      cases hf with | waiting hf => cases hg with | waiting hg =>
      exact ⟨_, ht, tick_consistent S.consistent ht, hf, none_ok _ hg, fun _ _ => h⟩
    | raised i s' he =>
      cases hf with | raised _ _ hf => cases hg with | raised _ _ hg =>
      refine ⟨_, ht, tick_consistent S.consistent ht, hf, ⟨(none_ok _ hg).1, fun j h => ?_⟩, fun _ h => by cases h⟩
      cases h
      exact he rfl
    | ended s' =>
      cases hf with | ended hf => cases hg with | ended hg =>
      exact ⟨_, ht, tick_consistent S.consistent ht, hf, ⟨(none_ok _ hg).1, fun j h => by cases h⟩,
        fun _ h => by cases h⟩

/-- Acceptance leads to a sound state. -/
theorem start_sound (i : Instr) {s : State} (W : WeightsFit s.arena) : Sound (start i s) := by
  have acc : ∀ t : State, t.arena = clearWeights s.arena → t.phase = .acc → PhaseOk t := fun t ha hp => by
    refine phaseOk_acc hp ?_
    rw [ha, total_clearWeights]
    refine Finset.sum_eq_zero fun v _ => ?_
    have := v.isLt
    rw [weightAt_clearWeights, if_pos (by rw [leafNode_toNat]; omega)]
  have fit : WeightsFit (start i s).arena := by
    cases i with
    | buildTree => exact fits_clearWeights W
    | encode => exact fits_clearWeights W
    | decode => exact fits_of_same (a := s.arena) rfl W
    | encodeExt => exact fits_of_same (a := s.arena) rfl W
  have he : (start i s).err = .none := by cases i <;> rfl
  have hp : (start i s).pend = none := by cases i <;> rfl
  refine ⟨start_consistent i, fit, ⟨by rw [he]; decide, fun j => by rw [hp]; simp⟩, fun _ _ => ?_⟩
  cases i with
  | buildTree => exact acc _ rfl rfl
  | encode => exact acc _ rfl rfl
  | decode => exact phaseOk_deserRead rfl (by decide : (0 : BitVec 10).toNat < 510)
  | encodeExt => exact phaseOk_deserRead rfl (by decide : (0 : BitVec 10).toNat < 510)

/-! ### What soundness reads -/

/-- `Consistent` reads the registers and the events alone. -/
theorem consistent_congr {s t : State} (C : Consistent s)
    (h : (t.phase, t.status, t.opc, t.lastOp, t.err, t.info, t.pend, t.out, t.trace) =
      (s.phase, s.status, s.opc, s.lastOp, s.err, s.info, s.pend, s.out, s.trace)) : Consistent t := by
  simp only [Prod.mk.injEq] at h
  obtain ⟨h1, h2, h3, h4, h5, h6, h7, h8, h9⟩ := h
  exact {
    idle_iff := by rw [h1, h2]; exact C.idle_iff
    phase_own := by rw [h1, h2, h3]; exact C.phase_own
    last_op := by rw [h2, h3, h4]; exact C.last_op
    err_iff := by rw [h5, h2]; exact C.err_iff
    info_zero := by rw [h5, h6]; exact C.info_zero
    pend_busy := by rw [h7, h2]; exact C.pend_busy
    pend_code := by rw [h7]; exact C.pend_code
    out_trace := by rw [h8, h9]; exact C.out_trace }

/-- `PhaseOk` reads `PHASE` and the working state alone. -/
theorem phaseOk_congr {s t : State} (ok : PhaseOk s)
    (h : (t.phase, t.arena, t.serIdx, t.table, t.pbuf, t.cur, t.bits) =
      (s.phase, s.arena, s.serIdx, s.table, s.pbuf, s.cur, s.bits)) : PhaseOk t := by
  simp only [Prod.mk.injEq] at h
  obtain ⟨h1, h2, h3, h4, h5, h6, h7⟩ := h
  unfold PhaseOk at *
  rw [h1, h2, h3, h4, h5, h6, h7]
  exact ok

/-- So a host action that touches none of these keeps a state sound. -/
theorem sound_congr {s t : State} (S : Sound s)
    (h : (t.phase, t.status, t.opc, t.lastOp, t.err, t.info, t.pend, t.out, t.trace) =
      (s.phase, s.status, s.opc, s.lastOp, s.err, s.info, s.pend, s.out, s.trace))
    (h' : (t.arena, t.serIdx, t.table, t.pbuf, t.cur, t.bits) =
      (s.arena, s.serIdx, s.table, s.pbuf, s.cur, s.bits)) : Sound t := by
  have C := consistent_congr S.consistent h
  simp only [Prod.mk.injEq] at h h'
  obtain ⟨h1, h2, -, -, h3, -, h4, -⟩ := h
  refine ⟨C, by rw [h'.1]; exact S.weights_fit, by rw [h3, h4]; exact S.no_pad_error, fun a b => ?_⟩
  exact phaseOk_congr (S.phase_ok (h2 ▸ a) (h4 ▸ b)) (by simp only [h1, h'])

/-! ### Many small steps -/

/-- Along small steps a state stays sound: one that is not `BUSY` makes none. -/
theorem ticks_sound {s t : State} (S : Sound s) (h : Ticks s t) : Sound t := by
  refine ticks_keep (fun s t S h => ?_) S h
  cases hb : busy s with
  | true =>
    obtain ⟨u, h1, h2⟩ := tick_sound S hb
    rw [h] at h1
    cases h1
    exact h2
  | false =>
    have hn : s.status ≠ .busy := by
      intro hs
      rw [busy, hs] at hb
      cases hb
    have hp : s.pend = none := by
      by_contra hp
      exact hn (S.consistent.pend_busy hp)
    have hi := S.consistent.idle_iff.2 hn
    have hm : s.phase ∉ phasesOf s.opc := by
      rw [hi]
      generalize s.opc = i
      cases i <;> decide
    rw [tick, hp] at h
    simp only [hm, if_false] at h
    cases h

end Sys2Proof.Machine
end

