-- ==== Sys2Proof/Laws/ZeroLeaves.lean ====
section
/-! SUPPORT. The slots of weight 0 are merged before any other (R120). -/

namespace Sys2Proof.Machine

/-- While slots `z` and `zs`, in increasing order, are exactly the non-empty slots of weight 0, the merges
take `z` with each of `zs` in order (R120). -/
theorem zero_run (z : Byte) : ∀ (zs : List Byte) (n : Nat) (a f : Arena), Forest a →
    a.k.toNat + n = 255 → zs.length ≤ n →
    mergeLoop n a = some f → (z :: zs).Pairwise (· < ·) → (∀ i ∈ z :: zs, a.slotAt i ≠ emptySlot) →
    (∀ i, a.slotAt i ≠ emptySlot → (a.weightAt (a.slotAt i) = 0 ↔ i ∈ z :: zs)) →
    ∀ j (h : j < zs.length), f.mseqAt (2 * (a.k.toNat + j)) = z ∧
      f.mseqAt (2 * (a.k.toNat + j) + 1) = zs[j] := by
  intro zs
  induction zs with
  | nil => intro n a f _ _ _ _ _ _ _ j h; exact absurd h (Nat.not_lt_zero j)
  | cons y zs ih =>
    intro n a f F hk hn hm hp hs hz
    obtain ⟨n, rfl⟩ : ∃ m, n = m + 1 := ⟨n - 1, by simp at hn; omega⟩
    obtain ⟨b, hb, hbf⟩ := Option.bind_eq_some_iff.1 hm
    have hk' : a.k.toNat < 255 := by omega
    have hp' := List.pairwise_cons.1 hp
    have hp2 := List.pairwise_cons.1 hp'.2
    have hzy : z < y := hp'.1 y (by simp)
    have le0 : ∀ i l, (∀ x ∈ l, i < x) → (∀ j ∈ i :: l, a.slotAt j ≠ emptySlot) →
        a.weightAt (a.slotAt i) = 0 → ∀ j, a.slotAt j ≠ emptySlot →
        (a.weightAt (a.slotAt j) = 0 → j ∈ i :: l) → PairLe a i j := by
      intro i l hi hs hw j hj hmem
      unfold PairLe
      rw [hw]
      by_cases h0 : a.weightAt (a.slotAt j) = 0
      · right
        refine ⟨h0.symm, ?_⟩
        rcases List.mem_cons.1 (hmem h0) with rfl | h
        · exact BitVec.le_refl _
        · exact BitVec.le_of_lt (hi j h)
      · left
        exact Nat.pos_of_ne_zero h0
    have h1 : selectMin a none = some z := by
      refine selectMin_least ⟨hs z (by simp), by simp⟩ fun j hj _ => ?_
      exact le0 z _ hp'.1 hs ((hz z (hs z (by simp))).2 (by simp)) j hj.1 (hz j hj.1).1
    have h2 : selectMin a (some z) = some y := by
      refine selectMin_least ⟨hs y (by simp), ?_⟩ fun j hj _ => ?_
      · intro h; rw [Option.some.inj h] at hzy; exact absurd hzy (BitVec.lt_irrefl _)
      · refine le0 y _ hp2.1 (fun i hi => hs i (List.mem_cons_of_mem _ hi))
          ((hz y (hs y (by simp))).2 (by simp)) j hj.1 fun h => ?_
        rcases List.mem_cons.1 ((hz j hj.1).1 h) with rfl | h
        · exact absurd rfl hj.2
        · exact h
    have hmin : minByte z y = z := if_pos (BitVec.le_of_lt hzy)
    have hmax : maxByte z y = y := if_pos (BitVec.le_of_lt hzy)
    simp only [mergeStep, h1, h2, hmin, hmax, Option.some.injEq] at hb
    subst hb
    have hlo := hs z (by simp)
    have hhi := hs y (by simp)
    have F' := mergePair_forest F hk' hlo hhi hzy
    have hkk : (mergePair z y a).k.toNat = a.k.toNat + 1 := by rw [k_mergePair, toNat_succ_k hk']
    have hsl : ∀ i, (mergePair z y a).slotAt i =
        if y = i then emptySlot else if z = i then mergeNode a.k else a.slotAt i := fun i => by
      rw [slotAt_mergePair, slotAt_linkPair]
    have hne : mergeNode a.k ≠ emptySlot := by
      intro h
      have := congrArg BitVec.toNat h
      rw [mergeNode_toNat _ hk'] at this
      simp [emptySlot] at this
      omega
    have hzero : ∀ i ∈ z :: y :: zs, a.weightAt (a.slotAt i) = 0 := fun i hi => (hz i (hs i hi)).2 hi
    have hnew : (mergePair z y a).weightAt (mergeNode a.k) = 0 := by
      rw [weightAt_mergePair _ _ _ _ hk', if_pos rfl, hzero z (by simp), hzero y (by simp)]
      exact Nat.zero_mod _
    have hold : ∀ i, a.slotAt i ≠ emptySlot →
        (mergePair z y a).weightAt (a.slotAt i) = a.weightAt (a.slotAt i) := by
      intro i hi
      exact weightAt_below z y hk' (F.below i hi)
    have hyn : ∀ i ∈ zs, y ≠ i := fun i hi h => by
      have := hp2.1 i hi; rw [h] at this; exact absurd this (BitVec.lt_irrefl _)
    have hyz : ¬ y = z := fun h => by rw [h] at hzy; exact absurd hzy (BitVec.lt_irrefl _)
    have key := ih n (mergePair z y a) f F' (by omega) (by simp at hn; omega) hbf
      (List.pairwise_cons.2 ⟨fun i hi => hp'.1 i (by simp [hi]), hp2.2⟩) ?_ ?_
    · intro j h
      cases j with
      | zero =>
        obtain ⟨f', g1, -, -, -, -, -, -, g7, -⟩ := mergeLoop_spec n F' (by omega)
        obtain rfl := Option.some.inj (hbf.symm.trans g1)
        rw [g7 _ (by omega), g7 _ (by omega), mseqAt_mergePair _ _ _ _ hk', mseqAt_mergePair _ _ _ _ hk']
        simp
      | succ j =>
        have := key j (by simpa using h)
        rw [hkk] at this
        rw [show a.k.toNat + (j + 1) = a.k.toNat + 1 + j by omega]
        simpa using this
    · intro i hi
      rw [hsl]
      rcases List.mem_cons.1 hi with rfl | h
      · rw [if_neg hyz, if_pos rfl]; exact hne
      · rw [if_neg (hyn i h)]
        split
        · exact hne
        · exact hs i (by simp [h])
    · intro i hi
      rw [hsl] at hi ⊢
      by_cases h1 : y = i
      · rw [if_pos h1] at hi; exact absurd rfl hi
      · rw [if_neg h1] at hi ⊢
        by_cases h2 : z = i
        · rw [if_pos h2, hnew]; simp [h2]
        · rw [if_neg h2] at hi ⊢
          rw [hold i hi, hz i hi]
          simp [Ne.symm h1, Ne.symm h2]

/-- The scan order is the order of the byte values. -/
theorem allBytes_pairwise : allBytes.Pairwise (· < ·) := by
  refine List.Pairwise.imp ?_ allBytes_sorted
  intro a b h
  exact h

end Sys2Proof.Machine
end

