-- ==== Sys2Proof/Tests/Slice0.lean ====
section
/-! SUPPORT. Tests. Expected values come from `95_test_vectors.md` or from the encodings of
`30_encoding.md`, never from the model; then, for every statement that has hypotheses, a named witness
that meets them all. -/

open Sys2Proof Sys2Proof.Machine

namespace Sys2Proof.Tests

/-! ### Small states -/

/-- The state after reset, in a machine of this `WEIGHT_WIDTH`, with `IN` and `TREE` wholly delivered. -/
def servedAt (width : Nat) (xs ys : List Byte) : State :=
  { State.resetAt width with inp := openPort xs true, tree := openPort ys true }

/-- The same in a machine of the default width. -/
def served (xs ys : List Byte) : State := servedAt 64 xs ys

/-- The arena at reset, in a machine of the default width. -/
def blank : Arena := Arena.reset 64

/-- The state after reset with these host actions pending. -/
def hosted (acts : List HostAct) : State := { State.reset with host := acts }

/-- A command that has just been accepted, with nothing delivered and these host actions pending. -/
def running (i : Instr) (acts : List HostAct) : State := { start i State.reset with host := acts }

/-- Whether an outcome is a next state with this property. -/
def after (r : Host.Outcome State Fault Refusal) (f : State → Bool) : Bool :=
  match r with
  | .next t => f t
  | .fault _ => false
  | .refused _ => false

theorem after_next {r : Host.Outcome State Fault Refusal} {f : State → Bool} (h : after r f = true) :
    ∃ t, r = .next t ∧ f t = true := by
  cases r with
  | next t => exact ⟨t, rfl, h⟩
  | fault e => cases h
  | refused e => cases h

/-! ### Tree encodings, pair by pair -/

/-- The first `n` pairs of `f`, as bytes (R80). -/
def pairs (f : Nat → Byte × Byte) (n : Nat) : List Byte := (List.range n).flatMap fun k => [(f k).1, (f k).2]

theorem pairs_length (f : Nat → Byte × Byte) (n : Nat) : (pairs f n).length = 2 * n := by
  induction n with
  | zero => rfl
  | succ n ih =>
    have : pairs f (n + 1) = pairs f n ++ [(f n).1, (f n).2] := by simp [pairs, List.range_succ]
    rw [this, List.length_append, ih]
    simp
    omega

theorem pairs_get (f : Nat → Byte × Byte) (n k : Nat) (hk : k < n) :
    loIndex (pairs f n) k = (f k).1 ∧ hiIndex (pairs f n) k = (f k).2 := by
  induction n with
  | zero => omega
  | succ n ih =>
    have e : pairs f (n + 1) = pairs f n ++ [(f n).1, (f n).2] := by simp [pairs, List.range_succ]
    have hl := pairs_length f n
    unfold loIndex hiIndex at *
    rw [e]
    by_cases h : k < n
    · rw [List.getD_append _ _ _ _ (by omega), List.getD_append _ _ _ _ (by omega)]
      exact ih h
    · obtain rfl : k = n := by omega
      rw [List.getD_append_right _ _ _ _ (by omega), List.getD_append_right _ _ _ _ (by omega), hl]
      simp

/-- V1's header `(0,1), (0,2), …, (0,255)`, but for the pairs `g` changes. -/
def chain (g : Nat → Option (Byte × Byte)) : List Byte :=
  pairs (fun k => (g k).getD (0, BitVec.ofNat 8 (k + 1))) 255

theorem chain_length (g : Nat → Option (Byte × Byte)) : (chain g).length = 510 := pairs_length _ _

/-- Before the first change every pair of the chain passes R81's conditions. -/
theorem chain_pair {g : Nat → Option (Byte × Byte)} {n k : Nat} (hk : k < 255)
    (hg : ∀ j, j < n → g j = none) (hkn : k < n) :
    pairSlotsFull (chain g) k = true ∧ pairOrdered (chain g) k = true := by
  have hh : ∀ j, j < n → j < 255 → hiIndex (chain g) j = BitVec.ofNat 8 (j + 1) := fun j h1 h2 => by
    rw [chain, (pairs_get _ _ _ h2).2, hg j h1]; rfl
  have hlo : loIndex (chain g) k = 0#8 := by rw [chain, (pairs_get _ _ _ hk).1, hg k hkn]; rfl
  have hi := hh k hkn hk
  have hto : ∀ j, j < 255 → (BitVec.ofNat 8 (j + 1)).toNat = j + 1 := fun j h => by
    rw [BitVec.toNat_ofNat, Nat.mod_eq_of_lt (by omega)]
  constructor
  · rw [pairSlotsFull, hlo, hi]
    have h1 : 0#8 ∉ clearedBefore (chain g) k := by
      intro h
      obtain ⟨j, hj, hj'⟩ := mem_clearedBefore.1 h
      rw [hh j (by omega) (by omega)] at hj'
      have := congrArg BitVec.toNat hj'
      rw [hto j (by omega)] at this
      simp at this
    have h2 : BitVec.ofNat 8 (k + 1) ∉ clearedBefore (chain g) k := by
      intro h
      obtain ⟨j, hj, hj'⟩ := mem_clearedBefore.1 h
      rw [hh j (by omega) (by omega)] at hj'
      have := congrArg BitVec.toNat hj'
      rw [hto j (by omega), hto k hk] at this
      omega
    simp [h1, h2]
  · rw [pairOrdered, hlo, hi, decide_eq_true_iff, BitVec.lt_def, hto k hk]
    exact Nat.succ_pos k

theorem chain_accepted : wellFormedTree (chain fun _ => none) = true :=
  (wellFormedTree_iff _).2 ⟨chain_length _, fun _ hk => chain_pair hk (n := 255) (fun _ _ => rfl) hk⟩

/-! ### WellFormed refuses an ill-formed term for each check -/

theorem test_commands_well_formed : (Instr.buildTree).wellFormed = true ∧ (Instr.encode).wellFormed = true ∧
    (Instr.decode).wellFormed = true ∧ (Instr.encodeExt).wellFormed = true := by decide

/-- `RSVD` set, `OP` legal (V19c). -/
theorem test_refuses_reserved_bits : reservedClear 0x00000102#32 = false ∧
    wellFormedWord 0x00000102#32 = false := by decide

/-- `OP` reserved, `RSVD` clear (V19a, V19b). -/
theorem test_refuses_reserved_opcodes : opcodeLegal 0x00000000#32 = false ∧
    opcodeLegal 0x00000005#32 = false ∧ wellFormedWord 0x00000005#32 = false := by decide

/-- 509 bytes are no tree encoding (V14b). -/
theorem test_refuses_short_tree : treeLengthOk (List.replicate 509 0#8) = false := by decide +kernel

/-- Pair 1 names slot 1, which pair 0 cleared (V15). -/
theorem test_refuses_empty_slot : pairSlotsFull [0x00#8, 0x01#8, 0x00#8, 0x01#8] 1 = false := by decide

/-- `(01, 00)` and `(05, 05)` are no pairs (V16a, V16b). -/
theorem test_refuses_pair_order : pairOrdered [0x01#8, 0x00#8] 0 = false ∧
    pairOrdered [0x05#8, 0x05#8] 0 = false := by decide

/-! ### Words written out from the encodings of R71 and R72 -/

theorem test_word_build_tree : decode 0b00000000000000000000000000000001#32 = .ok .buildTree := by decide
theorem test_word_encode : decode 0b00000000000000000000000000000010#32 = .ok .encode := by decide
theorem test_word_decode : decode 0b00000000000000000000000000000011#32 = .ok .decode := by decide
theorem test_word_encode_ext : decode 0b00000000000000000000000000000100#32 = .ok .encodeExt := by decide

theorem test_table_words : decodeTableWord 32 1 = some .buildTree ∧ decodeTableWord 32 2 = some .encode ∧
    decodeTableWord 32 3 = some .decode ∧ decodeTableWord 32 4 = some .encodeExt := by decide

/-- R75 and R76: the reserved words are refused by name. -/
theorem test_reserved_words : decode 0x00000000#32 = .error .reservedOpcode ∧
    decode 0x000000FF#32 = .error .reservedOpcode ∧ decode 0x80000001#32 = .error .reservedField := by decide

/-- R78: the source's spellings, and an arbitrary word. -/
theorem test_assembler : asmWord (.mnemonic "encode-with-external-tree") = some 0x00000004#32 ∧
    asmWord (.mnemonic "ENCODE") = some 0x00000002#32 ∧
    asmWord (.dotWord 0x00000105#32) = some 0x00000105#32 := by decide

/-- V19b and V19d: `STATUS` and `ERRINFO` after an illegal word. -/
theorem test_illegal_words : (after (step (hosted [.cmdWrite 0x00000005#32])) fun t =>
      statusWord t == 0x00050603#32 && errinfoWord t == 0x00000005#32) = true ∧
    (after (step (hosted [.cmdWrite 0xFFFFFFFF#32])) fun t =>
      statusWord t == 0x00FF0603#32 && errinfoWord t == 0x0000FFFF#32) = true := by decide +kernel

/-- V18: the state after reset. -/
theorem test_reset_words : statusWord State.reset = 0#32 ∧ errinfoWord State.reset = 0#32 := by decide +kernel

/-! ### The commands, at most two small tests each -/

/-- Two slots and a heavier third, as before V4's merge 253: slot 0 weighs 4, slot 0x52 weighs 2 and slot
0x41 weighs 5. -/
def beforeMerge253 : Arena :=
  { blank with
    k := 253
    slot := tabulate 256 fun i =>
      if i = 0 then 508#9 else if i = 0x52 then 0x52#9 else if i = 0x41 then 0x41#9 else 511#9
    w := tabulate 511 fun n => if n = 508 then 4 else if n = 0x52 then 2 else if n = 0x41 then 5 else 0 }

/-- V4, `k = 253`: `i1` = 0x52 and `i2` = 0, so the pair is `(0, 0x52)`, the weight-4 subtree goes left, and
the new node 509 weighs 6. -/
theorem test_build_tree_merge : (after (tick { running .buildTree [] with
      phase := .build, arena := beforeMerge253 }) fun t =>
    t.arena.mseqAt 506 == 0x00#8 && t.arena.mseqAt 507 == 0x52#8 &&
    t.arena.child 509#9 false == some 508#9 && t.arena.child 509#9 true == some 0x52#9 &&
    t.arena.weightAt 509#9 == 6 && t.arena.slotAt 0x52 == 511#9 && t.arena.slotAt 0 == 509#9) = true := by
  decide +kernel

/-- R100, R8: the byte that comes while `TOTAL` is full is refused before it is counted: byte `2^64` at the
default width, byte 512 at a width of 9 bits, where byte 511 is still counted. -/
theorem test_build_tree_overflow : (∀ wt ∈ [(64, 0xFFFFFFFFFFFFFFFF), (9, 511)],
    (after (tick { running .buildTree [] with
      inp := openPort [0x41] true, arena := { Arena.reset wt.1 with total := wt.2 } }) fun t =>
    t.pend == some (.raised .weightOverflow 0) && t.inp.taken == [0x41#8] &&
    t.arena.weightAt 0x41#9 == 0) = true) ∧
    (after (tick { running .buildTree [] with
      inp := openPort [0x41] true, arena := { Arena.reset 9 with total := 510 } }) fun t =>
    t.pend == none && t.arena.total == 511 && t.arena.weightAt 0x41#9 == 1) = true := by
  decide +kernel

/-- V7's codes: `CODE[0]` = `0`, `CODE[1]` = `10`, `CODE[2]` = `11 0^253`. -/
def tableV7 : CodeTable :=
  ((CodeTable.reset.record 0 [false]).record 1 [true, false]).record 2 (true :: true :: List.replicate 253 false)

/-- V7: ten `00` and one `01` pack to `00 2C`; the padding is from `CODE[2]`, the first code longer than 4. -/
theorem test_encode_pack : (after (conclude (packPhase { running .encode [] with
      table := tableV7, inp := openPort (List.replicate 10 0x00#8 ++ [0x01#8]) true })) fun t =>
    t.out == [0x00#8, 0x2C#8] && t.status == .done) = true := by
  decide +kernel

/-- R53: between DERIVE and PACK the engine rewinds `IN`, once. -/
theorem test_encode_rewind : (after (tick { running .encode [] with
      phase := .derive, inp := { taken := [0x41#8, 0x42#8], ahead := [], ended := true } }) fun t =>
    t.inp.ahead == [0x41#8, 0x42#8] && t.inp.taken == [] && t.phase == .pack &&
    t.trace == [.inRewind]) = true := by
  decide +kernel

/-- V14a: an empty `IN` is `TRUNCATED_TREE(0)`. -/
theorem test_decode_truncated : (after (exec .decode (served [] [])) fun t =>
    statusWord t == 0x00030103#32 && errinfoWord t == 0#32 && t.out == []) = true := by
  decide +kernel

/-- The end of "AAA"'s tree (V2): `CODE[0x41]` = `1`, and `0` leads to an internal node. -/
def treeAAA : Arena :=
  { blank with
    root := 510
    left := tabulate 255 fun k => if k = 254 then 509#9 else 511#9
    right := tabulate 255 fun k => if k = 254 then 0x41#9 else if k = 253 then 0xFF#9 else 511#9 }

/-- V17: the payload `7F` is `FF 41 41 41 41 41 41`, `01` being `CODE[0xFF]`. -/
theorem test_decode_unpack : (after (conclude (unpackPhase { running .decode [] with
      arena := treeAAA, inp := openPort [0x7F#8] true })) fun t =>
    t.out == [0xFF#8, 0x41#8, 0x41#8, 0x41#8, 0x41#8, 0x41#8, 0x41#8] && t.status == .done) = true := by
  decide +kernel

/-- An empty `TREE` is `TRUNCATED_TREE(0)`, and `IN` is not read (V14a with the bytes on `TREE`). -/
theorem test_encode_ext_truncated : (after (exec .encodeExt (served [0x41] [])) fun t =>
    statusWord t == 0x00040103#32 && t.inp.ahead == [0x41#8] && t.trace.length == 2) = true := by
  decide +kernel

/-- V16a: `(01, 00)` as pair 0 is refused at once, with no link made. -/
theorem test_encode_ext_pair_order : (after (tick { running .encodeExt [] with
      phase := .deserReplay, arena := initSlots (blank.setMseq 0 0x01) }) fun t =>
    t.pend == some (.raised .malformedPairOrder 0) && t.arena.slotAt 0x01 == 0x01#9) = true := by
  decide +kernel

/-! ### Witnesses: command words and host actions -/

theorem witness_IllegalWordAborts_reserved_low :
    WritesCmd (hosted [.cmdWrite 0x00000101#32]) 0x00000101#32 [] ∧
      busy (hosted [.cmdWrite 0x00000101#32]) = false ∧ (0x00000101#32).extractLsb' 8 24 ≠ 0#24 :=
  ⟨.inl rfl, rfl, by decide⟩

theorem witness_IllegalWordAborts_reserved_high :
    WritesCmd (hosted [.command 0xFFFFFFFF#32]) 0xFFFFFFFF#32 [] ∧
      busy (hosted [.command 0xFFFFFFFF#32]) = false ∧ (0xFFFFFFFF#32).extractLsb' 8 24 ≠ 0#24 :=
  ⟨.inr rfl, rfl, by decide⟩

theorem witness_IllegalWordAborts_opcode_zero :
    WritesCmd (hosted [.cmdWrite 0#32]) 0#32 [] ∧ busy (hosted [.cmdWrite 0#32]) = false ∧
      (0#32).extractLsb' 0 8 ∉ [0x01#8, 0x02#8, 0x03#8, 0x04#8] :=
  ⟨.inl rfl, rfl, by decide⟩

theorem witness_IllegalWordAborts_opcode_five :
    WritesCmd (hosted [.cmdWrite 5#32]) 5#32 [] ∧ busy (hosted [.cmdWrite 5#32]) = false ∧
      (5#32).extractLsb' 0 8 ∉ [0x01#8, 0x02#8, 0x03#8, 0x04#8] :=
  ⟨.inl rfl, rfl, by decide⟩

theorem witness_StepRunsQueuedCommand :
    (hosted [.command 4#32]).host = .command 4#32 :: [] ∧ decode 4#32 = .ok .encodeExt := ⟨rfl, rfl⟩

theorem witness_AcceptanceSetsRegisters :
    (hosted [.cmdWrite 1#32]).host = .cmdWrite 1#32 :: [] ∧ busy (hosted [.cmdWrite 1#32]) = false ∧
      decode 1#32 = .ok .buildTree := ⟨rfl, rfl, rfl⟩

theorem witness_StatusReadAfterWrite_legal :
    (hosted [.cmdWrite 3#32, .statusRead]).host = .cmdWrite 3#32 :: .statusRead :: [] ∧
      busy (hosted [.cmdWrite 3#32, .statusRead]) = false ∧ wellFormedWord 3#32 = true :=
  ⟨rfl, rfl, by decide⟩

theorem witness_StatusReadAfterWrite_illegal :
    (hosted [.cmdWrite 5#32, .statusRead]).host = .cmdWrite 5#32 :: .statusRead :: [] ∧
      busy (hosted [.cmdWrite 5#32, .statusRead]) = false ∧ wellFormedWord 5#32 = false :=
  ⟨rfl, rfl, by decide⟩

theorem witness_BusyWriteIsDropped :
    WritesCmd (running .encode [.cmdWrite 3#32]) 3#32 [] ∧ busy (running .encode [.cmdWrite 3#32]) = true :=
  ⟨.inl rfl, rfl⟩

theorem witness_StatusWordLayout :
    (hosted [.statusWrite 0xFFFFFFFF#32]).host = .statusWrite 0xFFFFFFFF#32 :: [] := rfl

theorem witness_WordPortReads :
    (hosted [.statusRead]).host = .statusRead :: [] ∧ (hosted [.errinfoRead]).host = .errinfoRead :: [] ∧
      (hosted [.errinfoWrite 1#32]).host = .errinfoWrite 1#32 :: [] := ⟨rfl, rfl, rfl⟩

theorem witness_StreamPrimitives_byte : (served [0x41] []).inp.ahead = 0x41#8 :: [] := rfl

theorem witness_StreamPrimitives_end :
    (served [] []).inp.ahead = [] ∧ (served [] []).inp.ended = true := ⟨rfl, rfl⟩

theorem witness_StreamPrimitives_blocked :
    State.reset.inp.ahead = [] ∧ State.reset.inp.ended = false := ⟨rfl, rfl⟩

theorem witness_StreamPrimitives_tree : (served [] [0x41]).tree.ahead = 0x41#8 :: [] ∧
    ((served [] []).tree.ahead = [] ∧ (served [] []).tree.ended = true) ∧
    (State.reset.tree.ahead = [] ∧ State.reset.tree.ended = false) := ⟨rfl, ⟨rfl, rfl⟩, rfl, rfl⟩

theorem witness_StreamPrimitives_write : State.reset.outReady = .always ∧
    { State.reset with outReady := .upTo 1 }.outReady = .upTo (0 + 1) ∧
    { State.reset with outReady := .upTo 0 }.outReady = .upTo 0 := ⟨rfl, rfl, rfl⟩

theorem witness_BlockedEngineWaits_reads :
    (busy (running .buildTree []) = true ∧ (running .buildTree []).pend = none ∧
      (running .buildTree []).phase ∈ phasesOf (running .buildTree []).opc ∧
      (running .buildTree []).phase = .acc ∧ (running .buildTree []).inp.ahead = [] ∧
      (running .buildTree []).inp.ended = false) ∧
    (busy (running .decode []) = true ∧ (running .decode []).pend = none ∧
      (running .decode []).phase ∈ phasesOf (running .decode []).opc ∧
      (running .decode []).phase = .deserRead ∧ (running .decode []).opc = .decode ∧
      (running .decode []).arena.tcnt.toNat < 510 ∧ (running .decode []).inp.ahead = [] ∧
      (running .decode []).inp.ended = false) ∧
    (busy (running .encodeExt []) = true ∧ (running .encodeExt []).pend = none ∧
      (running .encodeExt []).phase ∈ phasesOf (running .encodeExt []).opc ∧
      (running .encodeExt []).phase = .deserRead ∧ (running .encodeExt []).opc = .encodeExt ∧
      (running .encodeExt []).arena.tcnt.toNat < 510 ∧ (running .encodeExt []).tree.ahead = [] ∧
      (running .encodeExt []).tree.ended = false) := by
  decide +kernel

/-- A running command in a later phase, with `OUT` closed. -/
def stopped (i : Instr) (ph : Phase) (n : Nat) (cur : NodeIdx) : State :=
  { running i [] with phase := ph, pbuf := List.replicate n true, cur := cur, outReady := .upTo 0 }

theorem witness_BlockedEngineWaits_payload_reads :
    (busy (stopped .encode .pack 7 0) = true ∧ (stopped .encode .pack 7 0).pend = none ∧
      (stopped .encode .pack 7 0).phase ∈ phasesOf (stopped .encode .pack 7 0).opc ∧
      (stopped .encode .pack 7 0).phase = .pack ∧ (stopped .encode .pack 7 0).pbuf.length < 8 ∧
      (stopped .encode .pack 7 0).inp.ahead = [] ∧ (stopped .encode .pack 7 0).inp.ended = false) ∧
    (busy (stopped .decode .unpack 0 256) = true ∧ (stopped .decode .unpack 0 256).pend = none ∧
      (stopped .decode .unpack 0 256).phase ∈ phasesOf (stopped .decode .unpack 0 256).opc ∧
      (stopped .decode .unpack 0 256).phase = .unpack ∧ isLeaf (stopped .decode .unpack 0 256).cur = false ∧
      (stopped .decode .unpack 0 256).inp.ahead = [] ∧
      (stopped .decode .unpack 0 256).inp.ended = false) := by
  decide +kernel

/-- The same at a leaf in UNPACK, with an internal root. -/
def unpacking : State :=
  { stopped .decode .unpack 0 255 with arena := { (Arena.reset 64) with root := 256 } }

theorem witness_BlockedEngineWaits_writes :
    (∀ i ph n cur, busy (stopped i ph n cur) = true ∧ (stopped i ph n cur).pend = none ∧
      (stopped i ph n cur).outReady = .upTo 0) ∧
    ((stopped .buildTree .ser 0 0).phase ∈ phasesOf .buildTree ∧ (stopped .buildTree .ser 0 0).serIdx < 510) ∧
    ((stopped .encode .pack 8 0).phase ∈ phasesOf .encode ∧ 8 ≤ (stopped .encode .pack 8 0).pbuf.length) ∧
    ((stopped .encode .pad 8 0).phase ∈ phasesOf .encode ∧ (stopped .encode .pad 8 0).pbuf ≠ []) ∧
    (busy unpacking = true ∧ unpacking.pend = none ∧ unpacking.outReady = .upTo 0 ∧
      unpacking.phase ∈ phasesOf unpacking.opc ∧ unpacking.phase = .unpack ∧ isLeaf unpacking.cur = true ∧
      isLeaf unpacking.arena.root = false) := by
  refine ⟨fun i ph n cur => ⟨by cases i <;> rfl, by cases i <;> rfl, rfl⟩, ?_⟩
  decide +kernel

theorem witness_IdleEngineWaits : busy State.reset = false ∧ State.reset.host = [] := ⟨rfl, rfl⟩

theorem witness_ResetAbandonsCommand : (running .encode [.reset]).host = .reset :: [] := rfl

/-! ### Witnesses: the status registers -/

theorem witness_step_of_a_write : (∃ t, step (hosted [.cmdWrite 2#32]) = .next t) ∧
    TakesWrite (hosted [.cmdWrite 2#32]) 2#32 ∧ wellFormedWord 2#32 = true :=
  ⟨⟨_, rfl⟩, ⟨rfl, [], .inl rfl⟩, by decide⟩

theorem witness_step_of_an_illegal_write : (∃ t, step (hosted [.cmdWrite 0#32]) = .next t) ∧
    TakesWrite (hosted [.cmdWrite 0#32]) 0#32 ∧ wellFormedWord 0#32 = false :=
  ⟨⟨_, rfl⟩, ⟨rfl, [], .inl rfl⟩, by decide⟩

theorem witness_step_of_a_dropped_write : (∃ t, step (running .encode [.cmdWrite 2#32]) = .next t) ∧
    DropsWrite (running .encode [.cmdWrite 2#32]) :=
  ⟨⟨_, rfl⟩, rfl, _, [], .inl rfl⟩

theorem witness_step_of_a_reset : (∃ t, step (running .encode [.reset]) = .next t) ∧
    (running .encode [.reset]).host.head? = some .reset := ⟨⟨_, rfl⟩, rfl⟩

theorem witness_step_of_the_engine : (∃ t, step (running .encode []) = .next t) ∧
    ¬ DropsWrite (running .encode []) ∧ (∀ c, ¬ TakesWrite (running .encode []) c) ∧
    (running .encode []).host.head? ≠ some .reset := by
  refine ⟨⟨_, rfl⟩, ?_, ?_, by simp [running]⟩
  · rintro ⟨-, c, rest, h | h⟩ <;> cases h
  · rintro c ⟨h, -⟩; cases h

/-! ### Witnesses: invariants -/

theorem witness_Sound : Sound (running .decode []) ∧ busy (running .decode []) = true ∧
    ∃ t, step (running .decode []) = .next t := by
  exact ⟨start_sound .decode (s := State.reset) (fits_reset 64), rfl, _, rfl⟩

theorem witness_Consistent : Consistent (running .decode []) ∧
    ∃ t, step (running .decode []) = .next t := ⟨witness_Sound.1.consistent, _, rfl⟩

theorem witness_tick : busy (running .encode []) = true ∧
    ∃ t, tick (running .encode []) = .next t ∧ t.status = .busy := ⟨rfl, _, rfl, rfl⟩

theorem witness_SmallStepsAgree : busy (served [0x41] []) = false := rfl

/-! ### Witnesses: the frequency table and the builder -/

theorem ready_served (xs ys : List Byte) : Ready (served xs ys) := ⟨rfl, rfl, rfl⟩

/-- An input at both ends of what R217 allows, at every width; what follows it is refused. -/
theorem witness_input_fits_empty : Ready (served [] []) ∧
    (served [] []).inp.ahead.length ≤ (served [] []).arena.maxInput ∧
    (served [] []).inp.taken = [] := ⟨ready_served _ _, Nat.zero_le _, rfl⟩

/-- As many bytes as a machine of this width takes, and so many more. -/
def filled (width more : Nat) : State := servedAt width (List.replicate (2 ^ width - 1 + more) 0x41) []

theorem filled_length (width more : Nat) :
    (filled width more).inp.ahead.length = (filled width more).arena.maxInput + more := List.length_replicate

theorem witness_input_fits_full (width : Nat) : Ready (filled width 0) ∧
    (filled width 0).inp.ahead.length ≤ (filled width 0).arena.maxInput ∧ (filled width 0).inp.taken = [] :=
  ⟨⟨rfl, rfl, rfl⟩, (filled_length width 0).le, rfl⟩

theorem witness_WeightOverflowRefused (width : Nat) : busy (filled width 1) = false ∧
    (filled width 1).arena.maxInput < (filled width 1).inp.ahead.length :=
  ⟨rfl, by rw [filled_length]; exact Nat.lt_succ_self _⟩

/-- Two arenas of equal leaf weights that differ elsewhere. -/
theorem witness_BuildIsDeterministic_arenas : { blank with root := 5 }.weightWidth = blank.weightWidth ∧
    ∀ v, blank.weightAt (leafNode v) = { blank with root := 5 }.weightAt (leafNode v) :=
  ⟨rfl, fun _ => rfl⟩

/-- V12: two orders of the same bytes. -/
theorem witness_BuildIsDeterministic_inputs :
    Ready (served [0x41, 0x42] []) ∧ Ready (served [0x42, 0x41] []) ∧
    (served [0x42, 0x41] []).arena.weightWidth = (served [0x41, 0x42] []).arena.weightWidth ∧
    (served [0x41, 0x42] []).inp.ahead.Perm (served [0x42, 0x41] []).inp.ahead ∧
    (served [0x41, 0x42] []).inp.ahead.length ≤ (served [0x41, 0x42] []).arena.maxInput :=
  ⟨ready_served _ _, ready_served _ _, rfl, List.Perm.swap 0x42 0x41 [], by decide +kernel⟩

/-- A builder's state after `n` merges of the empty input's forest. -/
def merging (n : Nat) : State :=
  { running .buildTree [] with
    phase := .build
    arena := (mergeLoop n (initSlots blank)).getD blank }

/-- A running command moved to another of its phases keeps its registers consistent. -/
theorem moved_consistent {i : Instr} {ph : Phase} (hp : ph ∈ phasesOf i) {s : State} {tr : List PortEvent}
    {o : List Byte} (h : (s.status, s.phase, s.opc, s.lastOp, s.err, s.info, s.pend, s.out, s.trace) =
      (.busy, ph, i, opcodeOf i, .none, 0, none, o, tr)) (ht : o = outBytes tr) : Consistent s := by
  simp only [Prod.mk.injEq] at h
  obtain ⟨h1, h2, h3, h4, h5, h6, h7, h8, h9⟩ := h
  have hi : ph ≠ .idle := by rintro rfl; cases i <;> exact absurd hp (by decide)
  exact
    { idle_iff := ⟨fun h => absurd (h2.symm.trans h) hi, fun h => absurd h1 h⟩
      phase_own := fun _ => by rw [h2, h3]; exact hp
      last_op := fun _ => by rw [h4, h3]
      err_iff := ⟨fun h => absurd h5 h, fun h => by rw [h1] at h; cases h⟩
      info_zero := fun _ => h6
      pend_busy := fun h => absurd h7 h
      pend_code := fun e j h => by rw [h7] at h; cases h
      out_trace := by rw [h8, h9, ht] }

theorem merging_sound (n : Nat) (hn : n < 255) : Sound (merging n) ∧ busy (merging n) = true ∧
    (merging n).pend = none ∧ (merging n).phase = .build ∧ (merging n).arena.k.toNat = n := by
  obtain ⟨a, h, F, hk, ht, -⟩ := mergeLoop_spec n (initSlots_forest blank) (by simp; omega)
  have hk' : a.k.toNat = n := by simpa using hk
  have ha : (merging n).arena = a := by simp only [merging, h, Option.getD_some]
  have W : WeightsFit (initSlots blank) := fits_of_same (a := blank) rfl (fits_reset 64)
  have h0 : liveWeight (initSlots blank) = 0 := by
    rw [liveWeight_initSlots]
    refine Finset.sum_eq_zero fun v _ => ?_
    have := v.isLt
    simp only [Arena.weightAt, blank, Arena.reset, Vector.getElem?_replicate]
    split <;> rfl
  have hw := (mergeLoop_weights n (initSlots_forest blank) (by simp; omega) (by rw [h0]; exact Nat.zero_le _)
    (fun m h1 h2 => by simp at h2; omega) h).1
  refine ⟨⟨moved_consistent (i := .buildTree) (ph := .build) (by decide) rfl rfl, ?_,
    ⟨fun h => (by cases h), fun i h => (by cases h)⟩, fun _ _ => ?_⟩, rfl, rfl, rfl, by rw [ha, hk']⟩
  · rw [ha]; exact fits_mergeLoop n h W
  · refine phaseOk_build rfl ?_ ?_ ?_
    · rw [ha]; exact F
    · rw [ha]; omega
    · rw [ha, hw, h0, ht]; rfl

theorem witness_MergeStepLinks_first : Sound (merging 0) ∧ busy (merging 0) = true ∧
    (merging 0).pend = none ∧ (merging 0).phase = .build ∧ (merging 0).arena.k.toNat = 0 :=
  merging_sound 0 (by decide)

theorem witness_MergeStepLinks_last_but_one : Sound (merging 253) ∧ busy (merging 253) = true ∧
    (merging 253).pend = none ∧ (merging 253).phase = .build ∧ (merging 253).arena.k.toNat = 253 :=
  merging_sound 253 (by decide)

theorem witness_MergeStepLinks_last : Sound (merging 254) ∧ busy (merging 254) = true ∧
    (merging 254).pend = none ∧ (merging 254).phase = .build ∧ (merging 254).arena.k.toNat = 254 :=
  merging_sound 254 (by decide)

/-- With an empty input every byte value has weight 0. -/
theorem witness_ZeroWeightLeavesFirst :
    allBytes.filter (fun v => decide ((served [] []).inp.ahead.count v = 0)) = 0x00#8 :: allBytes.tail := by
  decide +kernel

theorem witness_EmptyInputBuildsChain : Ready (served [] []) ∧ (served [] []).inp.ahead = [] :=
  ⟨ready_served _ _, rfl⟩

theorem witness_SelectMin : (∃ i, Eligible (initSlots blank) none i) ∧
    ∀ i, ¬ Eligible { blank with slot := Vector.replicate _ emptySlot } none i := by
  refine ⟨⟨0, by decide +kernel, by simp⟩, fun i h => h.1 ?_⟩
  simp [Arena.slotAt]

/-! ### Witnesses: the commands -/

theorem witness_EncodeExtCompletes : Ready (served [0x42] (chain fun _ => none)) ∧
    wellFormedTree ((served [0x42] (chain fun _ => none)).tree.ahead.take 510) = true := by
  refine ⟨ready_served _ _, ?_⟩
  show wellFormedTree ((chain fun _ => none).take 510) = true
  rw [List.take_of_length_le (chain_length _).le]
  exact chain_accepted

/-- A header with an arbitrary payload. -/
theorem witness_DecodeCompletes (payload : List Byte) : Ready (served ((chain fun _ => none) ++ payload) []) ∧
    wellFormedTree ((served ((chain fun _ => none) ++ payload) []).inp.ahead.take 510) = true := by
  refine ⟨ready_served _ _, ?_⟩
  show wellFormedTree (((chain fun _ => none) ++ payload).take 510) = true
  rw [List.take_append_of_le_length (chain_length _).ge, List.take_of_length_le (chain_length _).le]
  exact chain_accepted

theorem witness_AcceptedEncodings : Ready (served (chain fun _ => none) []) ∧
    510 ≤ (served (chain fun _ => none) []).inp.ahead.length := ⟨ready_served _ _, (chain_length _).ge⟩

theorem witness_AcceptedHighIndices : wellFormedTree (chain fun _ => none) = true := chain_accepted

theorem witness_HeaderIsTreeFile : Ready (served [0x41] []) ∧ Ready (served [0x41] [0x00]) ∧
    (served [0x41] [0x00]).arena.weightWidth = (served [0x41] []).arena.weightWidth ∧
    (served [0x41] [0x00]).inp = (served [0x41] []).inp ∧
    (served [0x41] []).inp.ahead.length ≤ (served [0x41] []).arena.maxInput :=
  ⟨ready_served _ _, ready_served _ _, rfl, rfl, by decide +kernel⟩

theorem witness_command_answers : busy (served [] []) = false ∧
    ∃ t, exec .decode (served [] []) = .next t ∧ t.status = .error := by
  refine ⟨rfl, ?_⟩
  obtain ⟨t, h, h'⟩ := after_next (r := exec .decode (served [] [])) (f := fun t => t.status == .error)
    (by decide +kernel)
  exact ⟨t, h, by simpa using h'⟩

/-- Streams of any bytes at all, as the round trips feed one command's output to the next. -/
theorem witness_round_trip (out xs rest : List Byte) : Ready (served (out ++ rest) []) ∧
    (served (out ++ rest) []).inp.ahead = out ++ rest ∧ Ready (served xs (out ++ rest)) ∧
    (served xs (out ++ rest)).tree.ahead = out ++ rest :=
  ⟨ready_served _ _, rfl, ready_served _ _, rfl⟩

/-- Two histories: after reset, and with every part of the working state different. -/
theorem witness_CommandsForgetHistory :
    busy (served [0x41] []) = false ∧ { blank with root := 5, tcnt := 9 }.weightWidth = blank.weightWidth ∧
    busy { served [0x41] [] with
      status := .error, ovr := true, err := .weightOverflow, lastOp := 2, opc := .decode, cur := 7,
      pbuf := [true], arena := { blank with root := 5, tcnt := 9 } } = false := ⟨rfl, rfl, rfl⟩

/-! ### Witnesses: the code, the packer and the unpacker -/

/-- What BUILD makes of an arena. -/
def built (a : Arena) : Arena := (buildArena a).getD a

/-- The code DERIVE makes of an arena. -/
def codeOf (a : Arena) : CodeTable := (walk a Config.maxCodeLen a.root [] CodeTable.reset).getD CodeTable.reset

theorem built_spec (a : Arena) : buildArena a = some (built a) ∧ Tree (built a) := by
  obtain ⟨b, h, T, -⟩ := buildArena_spec a
  simp only [built, h, Option.getD_some]
  exact ⟨trivial, T⟩

theorem codeOf_spec {a : Arena} (T : Tree a) : CodesOf a (codeOf a) := by
  obtain ⟨t, h, C⟩ := derive_spec (s := { State.reset with arena := a }) T
  unfold derive at h
  split at h
  · next t' h' =>
    have ht : t' = t := congrArg State.table (Run.going.inj h)
    have hw : walk a Config.maxCodeLen a.root [] CodeTable.reset = some t' := h'
    rw [codeOf, hw, ht]
    exact C
  · cases h

/-- The tree of the empty input (V1). -/
@[irreducible] def builtArena : Arena := built blank

/-- Its code. -/
@[irreducible] def builtTable : CodeTable := codeOf builtArena

theorem builtArena_eq : buildArena blank = some builtArena := by
  unfold builtArena; exact (built_spec blank).1

theorem witness_DeriveFillsTable : Tree builtArena := by
  unfold builtArena; exact (built_spec blank).2

theorem builtTable_codes : CodesOf builtArena builtTable := by
  unfold builtTable; exact codeOf_spec witness_DeriveFillsTable

theorem builtArena_fits : WeightsFit builtArena := by
  obtain ⟨b, hb, hba⟩ := Option.map_eq_some_iff.1 builtArena_eq
  rw [← hba]
  exact fits_of_same (a := b) rfl (fits_mergeLoop 255 hb (fits_of_same (a := blank) rfl (fits_reset 64)))

/-- A command in a later phase, over that tree: `n` bits in `PBUF`, `CUR` and `bits` as given. -/
def late (i : Instr) (ph : Phase) (n : Nat) (cur : NodeIdx) (bits : BitString) (xs : List Byte) : State :=
  { running i [] with
    phase := ph, arena := builtArena, table := builtTable, pbuf := List.replicate n true, cur := cur
    bits := bits, inp := openPort xs true }

theorem late_sound {i : Instr} {ph : Phase} {n : Nat} {cur : NodeIdx} {bits : BitString} {xs : List Byte}
    (hp : ph ∈ phasesOf i) (ok : PhaseOk (late i ph n cur bits xs)) : Sound (late i ph n cur bits xs) ∧
      busy (late i ph n cur bits xs) = true ∧ (late i ph n cur bits xs).pend = none ∧
      (late i ph n cur bits xs).phase = ph ∧ (late i ph n cur bits xs).outReady = .always :=
  ⟨⟨moved_consistent (o := []) (tr := []) hp (by cases i <;> rfl) rfl, builtArena_fits,
    ⟨fun h => (by cases i <;> cases h), fun j h => (by cases i <;> cases h)⟩, fun _ _ => ok⟩,
    by cases i <;> rfl, by cases i <;> rfl, rfl, by cases i <;> rfl⟩

/-- A running PACK with any number of bits up to 262 in `PBUF`, and any input left. -/
theorem witness_PackBufferBound (n : Nat) (hn : n ≤ 262) (xs : List Byte) :
    Sound (late .encode .pack n 0 [] xs) ∧ busy (late .encode .pack n 0 [] xs) = true ∧
    (late .encode .pack n 0 [] xs).pend = none ∧ (late .encode .pack n 0 [] xs).phase = .pack ∧
    (late .encode .pack n 0 [] xs).outReady = .always ∧ (late .encode .pack n 0 [] xs).pbuf.length = n ∧
    (late .encode .pack n 0 [] xs).inp.ahead = xs ∧ (late .encode .pack n 0 [] xs).inp.ended = true := by
  have hl : (List.replicate n true).length = n := List.length_replicate
  obtain ⟨h1, h2, h3, h4, h5⟩ := late_sound (i := .encode) (ph := .pack) (n := n) (cur := 0) (bits := []) (xs := xs)
    (by decide) (phaseOk_pack rfl witness_DeriveFillsTable builtTable_codes (by
      show (List.replicate n true).length ≤ 262
      omega))
  exact ⟨h1, h2, h3, h4, h5, hl, rfl, rfl⟩

/-- Each of the three phases in which a command may come to pad. -/
theorem witness_PaddingNeverFails :
    (Sound (late .encode .derive 0 0 [] []) ∧ busy (late .encode .derive 0 0 [] []) = true ∧
      (late .encode .derive 0 0 [] []).pend = none) ∧
    (Sound (late .encodeExt .pack 7 0 [] []) ∧ busy (late .encodeExt .pack 7 0 [] []) = true ∧
      (late .encodeExt .pack 7 0 [] []).pend = none) ∧
    (Sound (late .encode .pad 8 0 [] []) ∧ busy (late .encode .pad 8 0 [] []) = true ∧
      (late .encode .pad 8 0 [] []).pend = none) := by
  have T := witness_DeriveFillsTable
  have C := builtTable_codes
  have h1 := late_sound (n := 0) (cur := 0) (bits := []) (xs := []) (i := .encode) (ph := .derive) (by decide)
    (phaseOk_derive rfl T C)
  have h2 := late_sound (n := 7) (cur := 0) (bits := []) (xs := []) (i := .encodeExt) (ph := .pack) (by decide)
    (phaseOk_pack rfl T C (by show (7 : Nat) ≤ 262; decide))
  have h3 := late_sound (n := 8) (cur := 0) (bits := []) (xs := []) (i := .encode) (ph := .pad) (by decide)
    (phaseOk_pad rfl T C rfl)
  exact ⟨⟨h1.1, h1.2.1, h1.2.2.1⟩, ⟨h2.1, h2.2.1, h2.2.2.1⟩, h3.1, h3.2.1, h3.2.2.1⟩

/-- A running UNPACK at any node, with any bits left that the invariant allows there, and any input left. -/
theorem unpacking_sound (r : NodeIdx) (bits : BitString) (xs : List Byte) (hn : r.toNat < 511)
    (hb : if isLeaf r then bits.length ≤ 7 else bits = []) :
    Sound (late .decode .unpack 0 r bits xs) ∧ busy (late .decode .unpack 0 r bits xs) = true ∧
    (late .decode .unpack 0 r bits xs).pend = none ∧ (late .decode .unpack 0 r bits xs).phase = .unpack ∧
    (late .decode .unpack 0 r bits xs).outReady = .always ∧ (late .decode .unpack 0 r bits xs).cur = r ∧
    (late .decode .unpack 0 r bits xs).inp.ahead = xs := by
  have := late_sound (i := .decode) (ph := .unpack) (n := 0) (cur := r) (bits := bits) (xs := xs)
    (by decide) (phaseOk_unpack rfl witness_DeriveFillsTable hn hb)
  exact ⟨this.1, this.2.1, this.2.2.1, rfl, this.2.2.2.2, rfl, rfl⟩

/-- The first and the last leaf, with 7 bits and with no bit left, and the first and the last internal node. -/
theorem witness_BitStepsStayInTree (xs : List Byte) :
    (Sound (late .decode .unpack 0 0#9 (List.replicate 7 true) xs) ∧ isLeaf 0#9 = true) ∧
    (Sound (late .decode .unpack 0 255#9 [] xs) ∧ isLeaf 255#9 = true) ∧
    (Sound (late .decode .unpack 0 256#9 [] xs) ∧ isLeaf 256#9 = false) ∧
    (Sound (late .decode .unpack 0 510#9 [] xs) ∧ isLeaf 510#9 = false) :=
  ⟨⟨(unpacking_sound _ _ _ (by decide) (by decide)).1, rfl⟩,
    ⟨(unpacking_sound _ _ _ (by decide) (by decide)).1, rfl⟩,
    ⟨(unpacking_sound _ _ _ (by decide) (by decide)).1, rfl⟩,
    ⟨(unpacking_sound _ _ _ (by decide) (by decide)).1, rfl⟩⟩

/-! ### Witnesses: the tree codec's errors -/

theorem witness_TruncatedTreeReported_empty : busy (served [] []) = false ∧
    (served [] []).inp.ahead.length < 510 ∧ (served [] []).inp.ended = true ∧
    (served [] []).tree.ahead.length < 510 ∧ (served [] []).tree.ended = true := by
  decide +kernel

/-- V14b's length. -/
theorem witness_TruncatedTreeReported_509 :
    busy (served (List.replicate 509 0) (List.replicate 509 0)) = false ∧
    (served (List.replicate 509 0) (List.replicate 509 0)).inp.ahead.length < 510 ∧
    (served (List.replicate 509 0) (List.replicate 509 0)).inp.ended = true ∧
    (served (List.replicate 509 0) (List.replicate 509 0)).tree.ahead.length < 510 ∧
    (served (List.replicate 509 0) (List.replicate 509 0)).tree.ended = true := by
  decide +kernel

/-- The chain with pair `k` changed. -/
def chainBut (k : Nat) (p q : Byte) : List Byte := chain fun j => if j = k then some (p, q) else none

theorem chainBut_before {k j : Nat} (p q : Byte) (hk : k < 255) (hj : j < k) :
    pairSlotsFull (chainBut k p q) j = true ∧ pairOrdered (chainBut k p q) j = true :=
  chain_pair (n := k) (by omega) (fun i hi => if_neg (by omega)) hj

theorem chainBut_at {k : Nat} (p q : Byte) (hk : k < 255) :
    loIndex (chainBut k p q) k = p ∧ hiIndex (chainBut k p q) k = q := by
  have := pairs_get (fun j => ((fun j => if j = k then some (p, q) else none) j : Option (Byte × Byte)).getD
    (0, BitVec.ofNat 8 (j + 1))) 255 k hk
  simpa [chainBut, chain] using this

/-- V16a: pair 0 is `(01, 00)`: both slots are full, the order is wrong. -/
theorem witness_FirstBadPairReported_order_first : (chainBut 0 1 0).length = 510 ∧
    (∀ j, j < 0 → pairSlotsFull (chainBut 0 1 0) j = true ∧ pairOrdered (chainBut 0 1 0) j = true) ∧
    pairSlotsFull (chainBut 0 1 0) 0 = true ∧ pairOrdered (chainBut 0 1 0) 0 = false := by
  obtain ⟨h1, h2⟩ := chainBut_at (k := 0) 1 0 (by decide)
  refine ⟨chain_length _, fun j hj => absurd hj (Nat.not_lt_zero j), by simp [pairSlotsFull, clearedBefore], ?_⟩
  rw [pairOrdered, h1, h2]
  decide

/-- V15: pair 1 is `(00, 01)` again, and slot 1 is empty. -/
theorem witness_FirstBadPairReported_slot_second : (chainBut 1 0 1).length = 510 ∧
    (∀ j, j < 1 → pairSlotsFull (chainBut 1 0 1) j = true ∧ pairOrdered (chainBut 1 0 1) j = true) ∧
    pairSlotsFull (chainBut 1 0 1) 1 = false := by
  obtain ⟨-, h2⟩ := chainBut_at (k := 1) 0 1 (by decide)
  refine ⟨chain_length _, fun j hj => chainBut_before 0 1 (by decide) hj, ?_⟩
  have h0 : hiIndex (chainBut 1 0 1) 0 = 1 := by
    rw [chainBut, chain, (pairs_get _ _ _ (by decide)).2]; rfl
  have h : (clearedBefore (chainBut 1 0 1) 1).contains (hiIndex (chainBut 1 0 1) 1) = true :=
    List.contains_iff_mem.2 (mem_clearedBefore.2 ⟨0, by decide, by rw [h0, h2]⟩)
  rw [pairSlotsFull, h, Bool.not_true, Bool.and_false]

/-- The last pair in the wrong order: `(FF, 00)`, both slots being full. -/
theorem witness_FirstBadPairReported_last : (chainBut 254 255 0).length = 510 ∧
    (∀ j, j < 254 → pairSlotsFull (chainBut 254 255 0) j = true ∧
      pairOrdered (chainBut 254 255 0) j = true) ∧
    ¬ (pairSlotsFull (chainBut 254 255 0) 254 = true ∧ pairOrdered (chainBut 254 255 0) 254 = true) := by
  obtain ⟨h1, h2⟩ := chainBut_at (k := 254) 255 0 (by decide)
  refine ⟨chain_length _, fun j hj => chainBut_before 255 0 (by decide) hj, ?_⟩
  rintro ⟨-, h⟩
  rw [pairOrdered, h1, h2] at h
  exact absurd h (by decide)

/-- Streams that begin with such an encoding. -/
theorem witness_FirstBadPairReported_streams (h rest : List Byte) (hl : h.length = 510) :
    busy (served (h ++ rest) (h ++ rest)) = false ∧ (served (h ++ rest) (h ++ rest)).inp.ahead.take 510 = h ∧
    (served (h ++ rest) (h ++ rest)).tree.ahead.take 510 = h := by
  refine ⟨rfl, ?_, ?_⟩ <;> exact List.take_left' hl

end Sys2Proof.Tests
end

namespace Sys2Proof.Machine

/-! ### The big step and the small steps (R14, R247) -/

/-- The final `STATUS` update is the small step of a state in which an outcome waits (R247). -/
theorem tick_pending {s : State} {v : Verdict} (h : s.pend = some v) : tick s = .next (applyVerdict v s) := by
  simp only [tick, h]

/-- The final `STATUS` update overwrites the waiting outcome and reads it nowhere else. -/
theorem applyVerdict_setPend (v : Verdict) (p : Option Verdict) (s : State) :
    applyVerdict v { s with pend := p } = applyVerdict v s := by
  cases v <;> rfl

/-- When an outcome has been taken, no command runs any more (R27). -/
theorem busy_applyVerdict (v : Verdict) (s : State) : busy (applyVerdict v s) = false := by
  cases v <;> rfl

/-- Small steps to a waiting outcome go on, by the `STATUS` update, to the state the outcome leaves. -/
theorem ticks_verdict {s u : State} {v : Verdict} (h : Ticks s { u with pend := some v }) :
    Ticks s (applyVerdict v u) := by
  refine ticks_trans h (ticks_one ?_)
  rw [tick_pending rfl, applyVerdict_setPend]

/-- Where small steps lead to what a stretch comes to, they lead to the state it concludes in, and that state
is `BUSY` only where the stretch blocks. -/
theorem leads_conclude {s : State} {r : Run} {go : State → Prop} {bad : ErrCode → Prop}
    (h : Leads s endsHere r) (hp : r.Post go bad) :
    ∃ t, conclude r = .next t ∧ Ticks s t ∧ (busy t = true → tick t = .next t) := by
  have settled : ∀ (v : Verdict) (u : State), Ticks s { u with pend := some v } →
      Ticks s (applyVerdict v u) ∧ (busy (applyVerdict v u) = true → tick (applyVerdict v u) =
        .next (applyVerdict v u)) := fun v u hu =>
    ⟨ticks_verdict hu, fun hb => absurd hb (by rw [busy_applyVerdict]; decide)⟩
  cases h with
  | going h => exact ⟨_, rfl, settled .finished _ h⟩
  | waiting h hw => exact ⟨_, rfl, h, fun _ => hw⟩
  | raised h => exact ⟨_, rfl, settled (.raised _ _) _ h⟩
  | ended h => exact ⟨_, rfl, settled .finished _ h⟩
  | broken b => cases hp

/-- Settles O25: the body's small steps (`body_small`) lead to what the big step concludes with, and no body
breaks (`bodyOf_post`). -/
theorem smallStepsAgree : Obligations.SmallStepsAgree := by
  intro i s hb
  rw [exec_idle i hb]
  exact leads_conclude (body_small i (s := accept i s) rfl rfl) (bodyOf_post i _)

/-! ### An input too long for the weights (R217, R221) -/

/-- Where the first pass refuses a byte, the command ends there, whatever phases would have followed. -/
theorem bodyOf_overflow {i : Instr} {s : State} (hi : i = .buildTree ∨ i = .encode)
    (hl : s.arena.maxInput < s.inp.ahead.length) :
    ∃ u, bodyOf i s = .raised .weightOverflow 0 u ∧ u.inp = readPart (s.arena.maxInput + 1) s.inp ∧
      u.tree = s.tree ∧ u.out = s.out ∧ u.ovr = s.ovr ∧ u.lastOp = s.lastOp := by
  have counted := andThen_raised (andThen_raised (accumulate_overflow hl) buildPhase) serialize
  obtain rfl | rfl := hi
  · exact ⟨_, counted, rfl, rfl, rfl, rfl, rfl⟩
  · exact ⟨_, andThen_raised (andThen_raised counted derive) _, rfl, rfl, rfl, rfl, rfl⟩

/-- Settles O27: ACCUMULATE is the first phase of both commands, and nothing is written before it ends. -/
theorem weightOverflowRefused : Obligations.WeightOverflowRefused := by
  intro i s hi hb hl
  obtain ⟨u, hu, hinp, htree, hout, hovr, hop⟩ := bodyOf_overflow (s := accept i s) hi hl
  refine ⟨raiseError .weightOverflow 0 u, by rw [exec_idle i hb, hu]; rfl, ?_, hout, hinp, htree⟩
  exact ⟨rfl, rfl, rfl, hovr, hop.trans (opField_encode i), rfl⟩

/-! ### Frames of whole commands (R47) -/

section
variable {α : Type} {f : State → α} {c : α}

/-- One stretch after another leaves alone what both do. -/
theorem fix_seq {r : Run} {g : State → Run} (h : r.Fix f c) (hg : ∀ s, (g s).Fix f (f s)) :
    (r.andThen g).Fix f c :=
  fix_andThen h fun s hs => hs ▸ hg s

/-- What does not look at `PHASE`, the status registers and the trace is in the concluded state as it was where
the stretch stopped (R190, R220). -/
theorem conclude_fix {r : Run} {t : State} (hr : r.Fix f c)
    (hend : ∀ s st er info ev, f { s with
      phase := .idle, pend := none, status := st, err := er, info := info, trace := ev } = f s)
    (h : conclude r = .next t) : f t = c := by
  cases hr with
  | @going u hs => cases h; exact (hend u .done _ _ _).trans hs
  | waiting hs => cases h; exact hs
  | @raised u e i hs => cases h; exact (hend u .error e i _).trans hs
  | @ended u hs => cases h; exact (hend u .done _ _ _).trans hs
  | broken b => cases h

end

/-- What no command's phases and no command's end change once it is accepted (R8, R25, R29, R30). -/
def heldByAll (s : State) : List HostAct × Option Word × Bool × Instr × BitVec 8 × Nat :=
  (s.host, s.readData, s.ovr, s.opc, s.lastOp, s.arena.weightWidth)

/-- `BUILD_TREE` also leaves alone what the tree codec reads, the code table, the packer, the unpacker and `TREE`
(R47, R54, R192). -/
def heldByBuildTree (s : State) : BitVec 10 × CodeTable × BitString × NodeIdx × InPort :=
  (s.arena.tcnt, s.table, s.pbuf, s.cur, s.tree)

/-- `ENCODE` derives a code and packs, but reads no tree and unpacks nothing (R47, R54, R193). -/
def heldByEncode (s : State) : BitVec 10 × NodeIdx × InPort := (s.arena.tcnt, s.cur, s.tree)

/-- `DECODE` counts nothing, derives no code, packs nothing and takes its tree from `IN` (R54, R135, R194). -/
def heldByDecode (s : State) : Vector Nat Config.nodes × Nat × CodeTable × BitString × InPort :=
  (s.arena.w, s.arena.total, s.table, s.pbuf, s.tree)

/-- `ENCODE_EXT` counts nothing and unpacks nothing (R104, R135, R195). -/
def heldByEncodeExt (s : State) : Vector Nat Config.nodes × Nat × NodeIdx := (s.arena.w, s.arena.total, s.cur)

theorem bodyBuildTree_keeps (s : State) : (bodyBuildTree s).Fix heldByBuildTree (heldByBuildTree s) :=
  fix_seq (fix_seq (accumulate_fix (by intros; rfl) s)
    (buildPhase_fix fun _ _ _ _ ht => by simp only [heldByBuildTree, ht]))
    (serialize_fix (by intros; rfl))

theorem bodyEncode_keeps (s : State) : (bodyEncode s).Fix heldByEncode (heldByEncode s) :=
  fix_seq (fix_seq (fix_seq (fix_seq (accumulate_fix (by intros; rfl) s)
    (buildPhase_fix fun _ _ _ _ ht => by simp only [heldByEncode, ht]))
    (serialize_fix (by intros; rfl)))
    (derive_fix (by intros; rfl)))
    fun s => packPhase_fix (f := heldByEncode) (by intros; rfl) (inRewind s)

theorem bodyDecode_keeps (s : State) : (bodyDecode s).Fix heldByDecode (heldByDecode s) :=
  fix_seq (fix_seq (deserRead_fix (by intros; rfl) s)
    (deserReplay_fix (by intros; rfl)))
    (unpackPhase_fix (by intros; rfl))

theorem bodyEncodeExt_keeps (s : State) : (bodyEncodeExt s).Fix heldByEncodeExt (heldByEncodeExt s) :=
  fix_seq (fix_seq (fix_seq (fix_seq (deserRead_fix (by intros; rfl) s)
    (deserReplay_fix (by intros; rfl)))
    (serialize_fix (by intros; rfl)))
    (derive_fix (by intros; rfl)))
    (packPhase_fix (by intros; rfl))

/-- Whatever a command answers, these are as acceptance has set them. -/
theorem exec_keeps_all {i : Instr} {s t : State} (hb : busy s = false) (h : exec i s = .next t) :
    heldByAll t = heldByAll (accept i s) := by
  rw [exec_idle i hb] at h
  refine conclude_fix (bodyOf_fix ?_ i _) (by intros; rfl) h
  intro _ _ _ _ _ _ _ _ _ _ _ _ _ hw
  simp only [heldByAll, hw]

/-- Settles O40: each phase's frame (`accumulate_fix` and the like), put together along the command's body. -/
theorem commandFrames : Obligations.CommandFrames := by
  intro i s t hb h
  have common := exec_keeps_all hb h
  simp only [heldByAll, Prod.mk.injEq] at common
  obtain ⟨hhost, hdata, hovr, hopc, hop, hwidth⟩ := common
  refine ⟨hhost, hdata, hovr, hopc, hop.trans (opField_encode i), hwidth, ?_, ?_, ?_, ?_⟩ <;>
    rintro rfl <;> rw [exec_idle _ hb] at h
  · simpa [heldByBuildTree] using
      conclude_fix (bodyBuildTree_keeps (accept .buildTree s)) (by intros; rfl) h
  · simpa [heldByEncode] using
      conclude_fix (bodyEncode_keeps (accept .encode s)) (by intros; rfl) h
  · simpa [heldByDecode] using
      conclude_fix (bodyDecode_keeps (accept .decode s)) (by intros; rfl) h
  · simpa [heldByEncodeExt] using
      conclude_fix (bodyEncodeExt_keeps (accept .encodeExt s)) (by intros; rfl) h

/-! ### The host's queue, reset and the width of the weights (R8, R190, R240) -/

/-- A legal word written to `CMD` and run on is its command, dropped writes included (R190, R191). -/
theorem runCommand_of_decode {c : Word} {i : Instr} (s : State) (h : decode c = .ok i) :
    runCommand c s = exec i s := by
  cases hb : busy s with
  | true => rw [runCommand, hb, if_pos rfl, exec_busy i hb]
  | false => simp only [runCommand, hb, Bool.false_eq_true, if_false, h]

/-- A step whose host writes a word and lets the engine run. -/
theorem step_command {s : State} {c : Word} {rest : List HostAct} (h : s.host = .command c :: rest) :
    step s = runCommand c { s with host := rest } := by
  simp only [step, hostStep, h, hostAct]

/-- A command's own word is short enough for its 32 table bits. -/
theorem tableWord_encode (i : Instr) : tableWord 32 (encode i).toNat = encode i := by
  cases i <;> decide

/-- Settles O4: a queued word runs as its command, and `withFetchWord` queues the command's word. -/
theorem stepRunsQueuedCommand : Obligations.StepRunsQueuedCommand := by
  have queued : ∀ (s : State) (c : Word) (i : Instr) (rest : List HostAct),
      s.host = .command c :: rest → decode c = .ok i → step s = exec i { s with host := rest } :=
    fun s c i rest hh hd => (step_command hh).trans (runCommand_of_decode _ hd)
  refine ⟨queued, fun s i => queued (s.withFetchWord 32 (encode i).toNat) (encode i) i s.host ?_ (decode_encode i)⟩
  rw [State.withFetchWord, tableWord_encode]
  rfl

/-- No command runs and nothing has happened after reset, so the registers hang together (R240). -/
theorem resetAt_consistent (width : Nat) : Consistent (State.resetAt width) where
  idle_iff := ⟨fun _ h => (by cases h), fun _ => rfl⟩
  phase_own h := by cases h
  last_op h := by cases h
  err_iff := ⟨fun h => absurd rfl h, fun h => by cases h⟩
  info_zero _ := rfl
  pend_busy h := absurd rfl h
  pend_code _ _ h := by cases h
  out_trace := rfl

/-- With every weight 0 and no command running, the state after reset is sound (R45, R240). -/
theorem resetAt_sound (width : Nat) : Sound (State.resetAt width) where
  consistent := resetAt_consistent width
  weights_fit := fits_reset width
  no_pad_error := ⟨fun h => (by cases h), fun _ h => (by cases h)⟩
  phase_ok h := by cases h

/-- Settles O20: `Sound` holds after reset at every width, the default's among them. -/
theorem resetIsSound : Obligations.ResetIsSound :=
  ⟨resetAt_sound, resetAt_sound Config.defaultWeightWidth⟩

/-- A small step keeps the width: no phase writes it, and neither does the final `STATUS` update. -/
theorem width_tick {s t : State} (h : tick s = .next t) : t.arena.weightWidth = s.arena.weightWidth := by
  obtain ⟨v, -, rfl⟩ | ⟨-, -, s', -, hs⟩ := tick_cases h
  · cases v <;> rfl
  · have keeps : (stepPhase s).All True fun u => u.arena.weightWidth = s.arena.weightWidth :=
      all_fix (stepPhase_fix (f := fun u => u.arena.weightWidth) (by intros; assumption) s) fun _ hu => hu
    obtain ⟨hr, rfl⟩ | ⟨hr, rfl⟩ | ⟨hr, rfl⟩ | ⟨e, i, -, hr, rfl⟩ := hs
    · exact all_of_eq keeps (.inl hr)
    · exact all_of_eq keeps (.inr (.inl hr))
    · exact (all_of_eq keeps (.inr (.inr (.inl hr))) :)
    · exact (all_of_eq keeps (.inr (.inr (.inr ⟨e, i, hr⟩))) :)

/-- A command keeps the width, whether it is dropped or run. -/
theorem width_exec {i : Instr} {s t : State} (h : exec i s = .next t) :
    t.arena.weightWidth = s.arena.weightWidth := by
  cases hb : busy s with
  | true => rw [exec_busy i hb] at h; cases h; rfl
  | false =>
    have common := exec_keeps_all hb h
    simp only [heldByAll, Prod.mk.injEq] at common
    obtain ⟨-, -, -, -, -, hw⟩ := common
    exact hw

/-- Acceptance keeps the width: `clearWeights` is built on the arena it clears. -/
theorem width_start (i : Instr) (s : State) : (start i s).arena.weightWidth = s.arena.weightWidth := by
  cases i with
  | buildTree => exact width_clearWeights s.arena
  | encode => exact width_clearWeights s.arena
  | decode => rfl
  | encodeExt => rfl

/-- Every kind of step keeps the width (R8). -/
theorem width_step {s t : State} (h : step s = .next t) : t.arena.weightWidth = s.arena.weightWidth := by
  obtain ⟨c, rest, hw⟩ | ⟨rest, -, hr⟩ | ⟨-, q, ⟨-, he⟩ | ⟨-, he⟩⟩ | ⟨-, -, -, i, tr, r, rd, q, ho⟩ := step_kinds s
  · obtain ⟨-, hs⟩ | ⟨-, -, hs⟩ | ⟨-, -, i, -, -, ⟨-, hs⟩ | ⟨-, hs⟩⟩ := step_write hw
    · rw [hs] at h; cases h; rfl
    · rw [hs] at h; cases h; rfl
    · rw [hs] at h; cases h; exact width_start i _
    · exact (width_exec (hs.symm.trans h) :)
  · rw [hr] at h; cases h; rfl
  · exact (width_tick (he.symm.trans h) :)
  · rw [he] at h; cases h; rfl
  · rw [ho] at h; cases h; rfl

/-- Settles O21: reset builds the machine with its width, and every kind of step keeps it (`width_step`). -/
theorem weightWidthIsFixed : Obligations.WeightWidthIsFixed :=
  ⟨fun _ => rfl, rfl, fun _ _ h => width_step h⟩

end Sys2Proof.Machine

namespace Sys2Proof.Machine

/-! ### The events of a step, one law each (R251) -/

theorem status_of_busy {s : State} (hb : busy s = true) : s.status = .busy := by
  simpa [busy] using hb

/-- Neither a `CMD` write nor a reset is pending, and no running engine moves. -/
def Quiet (s : State) : Prop :=
  s.host.head? ≠ some .reset ∧ (∀ c rest, ¬ WritesCmd s c rest) ∧ ¬ (EngineMoves s ∧ busy s = true)

/-- Every step has one of five events. -/
theorem step_event (s : State) :
    s.host.head? = some .reset ∨ (∃ c, TakesWrite s c) ∨ DropsWrite s ∨
      (EngineMoves s ∧ busy s = true) ∨ Quiet s := by
  by_cases hr : s.host.head? = some .reset
  · exact .inl hr
  by_cases hm : EngineMoves s ∧ busy s = true
  · exact .inr (.inr (.inr (.inl hm)))
  by_cases hw : ∃ c rest, WritesCmd s c rest
  · obtain ⟨c, rest, hw⟩ := hw
    cases hb : busy s with
    | true => exact .inr (.inr (.inl ⟨hb, c, rest, hw⟩))
    | false => exact .inr (.inl ⟨c, hb, rest, hw⟩)
  · exact .inr (.inr (.inr (.inr ⟨hr, fun c rest h => hw ⟨c, rest, h⟩, hm⟩)))

/-- A pending `CMD` write is not the engine's move. -/
theorem writesCmd_excludes {s : State} {c : Word} {rest : List HostAct} (h : WritesCmd s c rest) :
    ¬ EngineMoves s := by
  rcases h with h | h <;> simp [EngineMoves, h]

/-- A pending reset is not the engine's move. -/
theorem reset_excludes {s : State} (h : s.host.head? = some .reset) : ¬ EngineMoves s := by
  simp [EngineMoves, h]

/-- A step in which an action stands first in the queue is that action (R251). -/
theorem step_act {s : State} {a : HostAct} {rest : List HostAct} (h : s.host = a :: rest) :
    step s = hostAct a { s with host := rest } := by
  simp only [step, hostStep, h]

/-- Reset, at any time (R240, R241). -/
theorem step_reset {s : State} (h : s.host.head? = some .reset) :
    step s = .next (resetEngine { s with host := s.host.tail }) := by
  obtain ⟨rest, hh⟩ := List.head?_eq_some_iff.1 h
  rw [step_act hh, hh]
  rfl

/-- A `CMD` write that is dropped (R29, R191). -/
theorem step_drops {s : State} (h : DropsWrite s) :
    step s = .next { s with ovr := true, host := s.host.tail } := by
  obtain ⟨hb, c, rest, hw⟩ := h
  have ht : s.host.tail = rest := by rcases hw with hw | hw <;> rw [hw] <;> rfl
  rw [ht]
  obtain ⟨-, hs⟩ | ⟨hn, -⟩ | ⟨hn, -⟩ := step_write hw
  · exact hs
  · rw [hb] at hn; cases hn
  · rw [hb] at hn; cases hn

/-- A word that is no command, taken (R190, R218). -/
theorem step_refuses {s : State} {c : Word} (h : TakesWrite s c) (hf : wellFormedWord c = false) :
    ∃ rest, step s = .next (rejectWrite c { s with host := rest }) := by
  obtain ⟨hb, rest, hw⟩ := h
  obtain ⟨hn, -⟩ | ⟨-, -, hs⟩ | ⟨-, hn, -⟩ := step_write hw
  · rw [hb] at hn; cases hn
  · exact ⟨rest, hs⟩
  · rw [hf] at hn; cases hn

/-- A command's word, taken: it is accepted, and run on where the action lets the engine run (R14, R190). -/
theorem step_accepts {s : State} {c : Word} (h : TakesWrite s c) (hf : wellFormedWord c = true) :
    ∃ rest i, opField c = opcodeOf i ∧
      (step s = .next (start i { s with host := rest }) ∨
       s.host.head? = some (.command c) ∧ step s = exec i { s with host := rest }) := by
  obtain ⟨hb, rest, hw⟩ := h
  obtain ⟨hn, -⟩ | ⟨-, hn, -⟩ | ⟨-, -, i, -, ho, ⟨-, hs⟩ | ⟨hh, hs⟩⟩ := step_write hw
  · rw [hb] at hn; cases hn
  · rw [hf] at hn; cases hn
  · exact ⟨rest, i, ho, .inl hs⟩
  · exact ⟨rest, i, ho, .inr ⟨by rw [hh]; rfl, hs⟩⟩

/-- The running engine's own move is its small step (R247). -/
theorem step_engine {s : State} (hm : EngineMoves s) (hb : busy s = true) :
    ∃ h, step s = tick { s with host := h } := by
  obtain ⟨c, rest, hw⟩ | ⟨rest, hr, -⟩ | ⟨-, h, ⟨-, hs⟩ | ⟨hn, -⟩⟩ | ⟨-, -, hn, -⟩ := step_kinds s
  · exact absurd hm (writesCmd_excludes hw)
  · exact absurd hm (reset_excludes (by rw [hr]; rfl))
  · exact ⟨h, hs⟩
  · rw [hb] at hn; cases hn
  · exact absurd hm hn

/-- Any other step touches only the ports, the data last read and the queue (R233, R251). -/
theorem step_quiet {s : State} (h : Quiet s) : ∃ i tr r rd q,
    step s = .next { s with inp := i, tree := tr, outReady := r, readData := rd, host := q } := by
  obtain ⟨hr, hw, hm⟩ := h
  obtain ⟨c, rest, hw'⟩ | ⟨rest, hr', -⟩ | ⟨hm', q, ⟨hb, -⟩ | ⟨-, hs⟩⟩ | ⟨-, -, -, i, tr, r, rd, q, hs⟩ :=
    step_kinds s
  · exact absurd hw' (hw c rest)
  · exact absurd (by rw [hr']; rfl) hr
  · exact absurd ⟨hm', hb⟩ hm
  · exact ⟨s.inp, s.tree, s.outReady, s.readData, q, hs⟩
  · exact ⟨i, tr, r, rd, q, hs⟩

/-! ### `Consistent` along every step (R24 to R30, R55) -/

/-- A refused word leaves the engine idle, in `ERROR` with its code (R190, R218). -/
theorem rejectWrite_consistent (c : Word) (s : State) : Consistent (rejectWrite c s) where
  idle_iff := ⟨fun _ h => (by cases h), fun _ => rfl⟩
  phase_own h := by cases h
  last_op h := by cases h
  err_iff := ⟨fun _ => rfl, fun _ h => (by cases h)⟩
  info_zero h := by cases h
  pend_busy h := absurd rfl h
  pend_code _ _ h := by cases h
  out_trace := rfl

/-- Reset leaves `OUT` and the trace as they are, and all else `Consistent` reads as after power-up (R240, R241). -/
theorem resetEngine_consistent {s : State} (C : Consistent s) : Consistent (resetEngine s) :=
  { resetAt_consistent s.arena.weightWidth with out_trace := C.out_trace }

/-- Settles O18: acceptance sets the registers up, small steps keep them together, and no other event
touches what `Consistent` reads but to reset it. -/
theorem consistentKept : Obligations.ConsistentKept := by
  intro s t C h
  obtain hr | ⟨c, hw⟩ | hd | ⟨hm, hb⟩ | hq := step_event s
  · rw [step_reset hr] at h; cases h
    exact resetEngine_consistent (consistent_congr C rfl)
  · cases hf : wellFormedWord c with
    | false =>
      obtain ⟨rest, hs⟩ := step_refuses hw hf
      rw [hs] at h; cases h; exact rejectWrite_consistent c _
    | true =>
      obtain ⟨rest, i, -, hs | ⟨-, hs⟩⟩ := step_accepts hw hf
      · rw [hs] at h; cases h; exact start_consistent i
      · obtain ⟨u, he, hu, -⟩ := smallStepsAgree i { s with host := rest } hw.1
        rw [hs, he] at h; cases h
        exact ticks_consistent (start_consistent i) hu
  · rw [step_drops hd] at h; cases h; exact consistent_congr C rfl
  · obtain ⟨q, hs⟩ := step_engine hm hb
    exact tick_consistent (consistent_congr (t := { s with host := q }) C rfl) (hs.symm.trans h)
  · obtain ⟨i, tr, r, rd, q, hs⟩ := step_quiet hq
    rw [hs] at h; cases h; exact consistent_congr C rfl

/-! ### `Sound` along every step -/

/-- A refused word touches no working state, and its error is not `PAD_UNAVAILABLE` (R218). -/
theorem rejectWrite_sound (c : Word) {s : State} (W : WeightsFit s.arena) : Sound (rejectWrite c s) where
  consistent := rejectWrite_consistent c s
  weights_fit := W
  no_pad_error := ⟨fun h => (by cases h), fun _ h => (by cases h)⟩
  phase_ok h := by cases h

/-- After a reset the engine is as after power-up (R240). -/
theorem resetEngine_sound {s : State} (C : Consistent s) : Sound (resetEngine s) :=
  { resetAt_sound s.arena.weightWidth with consistent := resetEngine_consistent C }

/-- Settles O19: the small steps keep `Sound` (`tick_sound`), a command taken in one step is made of them, and
the other events leave what `Sound` reads or set it anew. -/
theorem soundNeverFaults : Obligations.SoundNeverFaults := by
  intro s S
  obtain hr | ⟨c, hw⟩ | hd | ⟨hm, hb⟩ | hq := step_event s
  · exact ⟨_, step_reset hr, resetEngine_sound (consistent_congr S.consistent rfl)⟩
  · cases hf : wellFormedWord c with
    | false =>
      obtain ⟨rest, hs⟩ := step_refuses hw hf
      exact ⟨_, hs, rejectWrite_sound c S.weights_fit⟩
    | true =>
      obtain ⟨rest, i, -, hs | ⟨-, hs⟩⟩ := step_accepts hw hf
      · exact ⟨_, hs, start_sound i S.weights_fit⟩
      · obtain ⟨t, he, ht, -⟩ := smallStepsAgree i { s with host := rest } hw.1
        exact ⟨t, hs.trans he, ticks_sound (start_sound i (by exact S.weights_fit)) ht⟩
  · exact ⟨_, step_drops hd, sound_congr S rfl rfl⟩
  · obtain ⟨q, hs⟩ := step_engine hm hb
    obtain ⟨t, ht, St⟩ := tick_sound (sound_congr (t := { s with host := q }) S rfl rfl) hb
    exact ⟨t, hs.trans ht, St⟩
  · obtain ⟨i, tr, r, rd, q, hs⟩ := step_quiet hq
    exact ⟨_, hs, sound_congr S rfl rfl⟩

/-- Settles O22: a `BUSY` engine drops the write, and an idle one runs to the end of the small steps or to
where they block. -/
theorem everyCommandAnswers : Obligations.EveryCommandAnswers := by
  intro i s
  cases hb : busy s with
  | true => exact ⟨_, exec_busy i hb⟩
  | false =>
    obtain ⟨t, he, -⟩ := smallStepsAgree i s hb
    exact ⟨t, he⟩

/-! ### The word ports (R23, R26, R60) -/

/-- The cuts of `STATUS` at R23's bounds: each lies wholly in one of the parts that the word joins. -/
theorem statusWord_fields (s : State) :
    (statusWord s).extractLsb' 0 2 = stateCode s.status ∧
    (statusWord s).extractLsb' 2 1 = BitVec.ofBool s.ovr ∧
    (statusWord s).extractLsb' 3 5 = 0#5 ∧
    (statusWord s).extractLsb' 8 4 = errCode s.err ∧
    (statusWord s).extractLsb' 12 4 = 0#4 ∧
    (statusWord s).extractLsb' 16 8 = s.lastOp ∧
    (statusWord s).extractLsb' 24 8 = 0#8 := by
  unfold statusWord
  refine ⟨?_, ?_, ?_, ?_, ?_, ?_, ?_⟩ <;>
  simp (disch := omega) only [BitVec.extractLsb'_append_eq_of_le, BitVec.extractLsb'_append_eq_of_add_le,
    BitVec.extractLsb'_eq_self, Nat.reduceSub]

/-- The cuts of `ERRINFO` at R26's bound. -/
theorem errinfoWord_fields (s : State) :
    (errinfoWord s).extractLsb' 0 16 = s.info ∧ (errinfoWord s).extractLsb' 16 16 = 0#16 := by
  unfold errinfoWord
  refine ⟨?_, ?_⟩ <;>
  simp (disch := omega) only [BitVec.extractLsb'_append_eq_of_le, BitVec.extractLsb'_append_eq_of_add_le,
    BitVec.extractLsb'_eq_self, Nat.reduceSub]

/-- The codes 7 to 15 name no error (R210). -/
theorem errCode_le (e : ErrCode) : (errCode e).toNat ≤ 6 := by
  cases e <;> decide

/-- Settles O8: the fields by `statusWord_fields`, and a `STATUS` write by what its action does. -/
theorem statusWordLayout : Obligations.StatusWordLayout := by
  refine ⟨fun s => ?_, by decide, fun s v rest h => step_act h⟩
  obtain ⟨hstate, hovr, hlow, herr, hmid, hop, hhigh⟩ := statusWord_fields s
  exact ⟨hstate, hovr, hlow, herr, herr ▸ errCode_le s.err, hmid, hop, hhigh⟩

/-- Settles O9: the fields by `errinfoWord_fields`; neither word reads the host's queue, so a read with the
action taken off answers the current word. -/
theorem wordPortReads : Obligations.WordPortReads :=
  ⟨errinfoWord_fields, by decide, fun _ _ h => step_act h, fun _ _ h => step_act h, fun _ _ _ h => step_act h⟩

/-! ### The status registers, event by event (R27 to R30) -/

/-- The fields of `STATUS` and `ERRINFO` (R23, R26). -/
def statusFields (s : State) : EngState × Bool × ErrCode × BitVec 16 × BitVec 8 :=
  (s.status, s.ovr, s.err, s.info, s.lastOp)

section
variable {s u : State} (h : statusFields u = statusFields s)
include h

theorem err_info_of_statusFields : u.err = s.err ∧ u.info = s.info := by
  simp only [statusFields, Prod.mk.injEq] at h
  obtain ⟨-, -, herr, hinfo, -⟩ := h
  exact ⟨herr, hinfo⟩

theorem ovr_lastOp_of_statusFields : u.ovr = s.ovr ∧ u.lastOp = s.lastOp := by
  simp only [statusFields, Prod.mk.injEq] at h
  obtain ⟨-, hovr, -, -, hop⟩ := h
  exact ⟨hovr, hop⟩

end

/-- A small step takes the outcome that waits, or leaves the status registers alone (R247). -/
theorem tick_status {s t : State} (h : tick s = .next t) :
    (∃ v, s.pend = some v ∧ t = applyVerdict v s) ∨ (s.pend = none ∧ statusFields t = statusFields s) := by
  obtain hv | ⟨hp, -, s', hreg, ht⟩ := tick_cases h
  · exact .inl hv
  · refine .inr ⟨hp, ?_⟩
    have hs : statusFields s' = statusFields s := by
      simp only [registers, Prod.mk.injEq] at hreg
      simp only [statusFields, hreg]
    obtain ⟨-, rfl⟩ | ⟨-, rfl⟩ | ⟨-, rfl⟩ | ⟨e, i, -, -, rfl⟩ := ht <;> exact hs

/-- How a command taken in one step answers: blocked, completed or aborted, the status registers else as
acceptance has set them (R190, R220). -/
theorem exec_answer {i : Instr} {s t : State} (hb : busy s = false) (h : exec i s = .next t) :
    ∃ u, statusFields u = statusFields (accept i s) ∧
      (t = u ∨ t = finish u ∨ ∃ e info, e ≠ .none ∧ t = raiseError e info u) := by
  rw [exec_idle i hb] at h
  have hf := bodyOf_fix (f := statusFields) (by intros; rfl) i (accept i s)
  have hp := bodyOf_post i (accept i s)
  generalize bodyOf i (accept i s) = r at hf hp h
  cases hf with
  | going hu => cases h; exact ⟨_, hu, .inr (.inl rfl)⟩
  | waiting hu => cases h; exact ⟨_, hu, .inl rfl⟩
  | raised e info hu =>
    cases h
    cases hp with | raised _ _ he => exact ⟨_, hu, .inr (.inr ⟨e, info, he.2, rfl⟩)⟩
  | ended hu => cases h; exact ⟨_, hu, .inr (.inl rfl)⟩
  | broken b => cases hp

/-- A command's word, taken: from `BUSY` with the registers that acceptance sets, the step stays there, or, where
the engine has run, shows the command's end. -/
theorem accepts_answer {s t : State} {c : Word} (hw : TakesWrite s c) (hf : wellFormedWord c = true)
    (h : step s = .next t) : ∃ u, statusFields u = (.busy, false, .none, 0, opField c) ∧
      (t = u ∨ s.host.head? = some (.command c) ∧
        (t = finish u ∨ ∃ e info, e ≠ .none ∧ t = raiseError e info u)) := by
  obtain ⟨rest, i, ho, hs | ⟨hh, hs⟩⟩ := step_accepts hw hf
  · rw [hs] at h; cases h
    exact ⟨_, by rw [ho]; cases i <;> rfl, .inl rfl⟩
  · obtain ⟨u, hu, ht⟩ := exec_answer (s := { s with host := rest }) hw.1 (hs.symm.trans h)
    refine ⟨u, hu.trans ?_, ht.imp_right fun ht => ⟨hh, ht⟩⟩
    rw [ho, ← opField_encode i]
    rfl

/-- The running engine's own move (R247): it takes the outcome that waits, or leaves the status registers alone. -/
theorem engine_answer {s t : State} (hm : EngineMoves s) (hb : busy s = true) (h : step s = .next t) :
    (∃ v u, s.pend = some v ∧ statusFields u = statusFields s ∧ t = applyVerdict v u) ∨
    (s.pend = none ∧ statusFields t = statusFields s) := by
  obtain ⟨q, hs⟩ := step_engine hm hb
  obtain ⟨v, hv, ht⟩ | hn := tick_status (hs.symm.trans h)
  · exact .inl ⟨v, { s with host := q }, hv, rfl, ht⟩
  · exact .inr hn

/-- A step of none of the other events leaves the status registers alone (R233). -/
theorem quiet_answer {s t : State} (hq : Quiet s) (h : step s = .next t) : statusFields t = statusFields s := by
  obtain ⟨i, tr, r, rd, q, hs⟩ := step_quiet hq
  rw [hs] at h; cases h; rfl

/-- Settles O14: each event's law says what the step answers, and its `STATUS.STATE` is read off. -/
theorem statusStateTransitions : Obligations.StatusStateTransitions := by
  intro s t h
  refine ⟨fun hr => ?reset, fun c hw hf => ?refused, fun c hw hf hh => ?accepted, fun c hw hf _ => ?run,
    fun hd => ?dropped, fun hm hb => ?engine, fun hr hw hm => ?quiet⟩
  case reset => rw [step_reset hr] at h; cases h; rfl
  case refused =>
    obtain ⟨rest, hs⟩ := step_refuses hw hf
    rw [hs] at h; cases h; rfl
  case accepted =>
    obtain ⟨u, hu, rfl | ⟨hc, -⟩⟩ := accepts_answer hw hf h
    · exact congrArg Prod.fst hu
    · rw [hh] at hc; cases hc
  case run =>
    obtain ⟨u, hu, rfl | ⟨-, rfl | ⟨e, info, -, rfl⟩⟩⟩ := accepts_answer hw hf h
    · exact .inl (congrArg Prod.fst hu)
    · exact .inr (.inl rfl)
    · exact .inr (.inr rfl)
  case dropped => rw [step_drops hd] at h; cases h; exact status_of_busy hd.1
  case engine =>
    obtain ⟨v, u, hv, -, rfl⟩ | ⟨hn, hsame⟩ := engine_answer hm hb h
    · rw [hv]
      refine ⟨fun hf => ?_, fun ⟨e, i, hr⟩ => ?_, fun hn => by cases hn⟩
      · cases hf; rfl
      · cases hr; rfl
    · rw [hn]
      exact ⟨fun hf => (by cases hf), fun ⟨_, _, hr⟩ => (by cases hr),
        fun _ => (congrArg Prod.fst hsame).trans (status_of_busy hb)⟩
  case quiet => exact congrArg Prod.fst (quiet_answer ⟨hr, hw, hm⟩ h)

/-- Settles O15: acceptance clears `ERR` and `INFO`, and of the other events only a raised error's final
`STATUS` update, a refused word and a reset write them. -/
theorem errorRegisterWrites : Obligations.ErrorRegisterWrites := by
  intro s t h
  refine ⟨fun hr => ?reset, fun c hw hf => ?refused, fun c hw hf => ?accepted, fun hm hb e i hp => ?raised,
    fun hr hw hm => ?other⟩
  case reset => rw [step_reset hr] at h; cases h; exact ⟨rfl, rfl⟩
  case refused =>
    obtain ⟨rest, hs⟩ := step_refuses hw hf
    rw [hs] at h; cases h; exact ⟨rfl, rfl⟩
  case accepted =>
    obtain ⟨u, hu, ht⟩ := accepts_answer hw hf h
    simp only [statusFields, Prod.mk.injEq] at hu
    obtain ⟨hst, -, herr, hinfo, -⟩ := hu
    obtain rfl | ⟨-, rfl | ⟨e, info, he, rfl⟩⟩ := ht
    · rw [if_neg (by rw [hst]; decide)]; exact ⟨herr, hinfo⟩
    · rw [if_neg (by rw [status_finish]; decide)]; exact ⟨herr, hinfo⟩
    · rw [if_pos (status_raiseError u e info)]; exact he
  case raised =>
    obtain ⟨v, u, hv, -, rfl⟩ | ⟨hn, -⟩ := engine_answer hm hb h
    · rw [hv] at hp; cases hp; exact ⟨rfl, rfl⟩
    · rw [hn] at hp; cases hp
  case other =>
    obtain hr' | ⟨c, hw'⟩ | hd | ⟨hm', hb⟩ | hq := step_event s
    · exact absurd hr' hr
    · exact absurd hw' (hw c)
    · rw [step_drops hd] at h; cases h; exact ⟨rfl, rfl⟩
    · obtain ⟨v, u, hv, hu, rfl⟩ | ⟨-, hsame⟩ := engine_answer hm' hb h
      · cases v with
        | finished => exact (err_info_of_statusFields hu :)
        | raised e i => exact absurd ⟨hm', hb, e, i, hv⟩ hm
      · exact err_info_of_statusFields hsame
    · exact err_info_of_statusFields (quiet_answer hq h)

/-- The final `STATUS` update leaves `OVR` and `LAST_OP` alone (R29, R30). -/
theorem applyVerdict_ovr_lastOp (v : Verdict) (u : State) :
    (applyVerdict v u).ovr = u.ovr ∧ (applyVerdict v u).lastOp = u.lastOp := by
  cases v <;> exact ⟨rfl, rfl⟩

/-- The engine's own move, and a step of none of the events, leave `OVR` and `LAST_OP` alone (R29, R30). -/
theorem ovr_lastOp_kept {s t : State} (he : (EngineMoves s ∧ busy s = true) ∨ Quiet s) (h : step s = .next t) :
    t.ovr = s.ovr ∧ t.lastOp = s.lastOp := by
  obtain ⟨hm, hb⟩ | hq := he
  · obtain ⟨v, u, -, hu, rfl⟩ | ⟨-, hsame⟩ := engine_answer hm hb h
    · obtain ⟨hovr, hop⟩ := applyVerdict_ovr_lastOp v u
      rw [hovr, hop]
      exact ovr_lastOp_of_statusFields hu
    · exact ovr_lastOp_of_statusFields hsame
  · exact ovr_lastOp_of_statusFields (quiet_answer hq h)

/-- A `CMD` write that is taken clears `OVR` and stores its low byte in `LAST_OP`, legal or not (R29, R30). -/
theorem takes_ovr_lastOp {s t : State} {c : Word} (hw : TakesWrite s c) (h : step s = .next t) :
    t.ovr = false ∧ t.lastOp = c.extractLsb' 0 8 := by
  cases hf : wellFormedWord c with
  | false =>
    obtain ⟨rest, hs⟩ := step_refuses hw hf
    rw [hs] at h; cases h; exact ⟨rfl, rfl⟩
  | true =>
    obtain ⟨u, hu, ht⟩ := accepts_answer hw hf h
    simp only [statusFields, Prod.mk.injEq] at hu
    obtain ⟨-, hovr, -, -, hop⟩ := hu
    obtain rfl | ⟨-, rfl | ⟨e, info, -, rfl⟩⟩ := ht <;> exact ⟨hovr, hop⟩

/-- Settles O16: a dropped write by `step_drops`, a taken one by `takes_ovr_lastOp`, the rest by
`ovr_lastOp_kept`. -/
theorem overrunFlag : Obligations.OverrunFlag := by
  intro s t h
  refine ⟨fun hd => ?dropped, fun ⟨c, hw⟩ => (takes_ovr_lastOp hw h).1, fun hr => ?reset, fun hd hw hr => ?other⟩
  case dropped => rw [step_drops hd] at h; cases h; rfl
  case reset => rw [step_reset hr] at h; cases h; rfl
  case other =>
    obtain hr' | ⟨c, hw'⟩ | hd' | he := step_event s
    · exact absurd hr' hr
    · exact absurd hw' (hw c)
    · exact absurd hd' hd
    · exact (ovr_lastOp_kept he h).1

/-- Settles O17: a taken write by `takes_ovr_lastOp`, a dropped one by `step_drops`, the rest by
`ovr_lastOp_kept`. -/
theorem lastOpRegister : Obligations.LastOpRegister := by
  intro s t h
  refine ⟨fun c hw => (takes_ovr_lastOp hw h).2, fun hr => ?reset, fun hw hr => ?other⟩
  case reset => rw [step_reset hr] at h; cases h; rfl
  case other =>
    obtain hr' | ⟨c, hw'⟩ | hd | he := step_event s
    · exact absurd hr' hr
    · exact absurd hw' (hw c)
    · rw [step_drops hd] at h; cases h; rfl
    · exact (ovr_lastOp_kept he h).2

/-! ### The order of the phases (R24) -/

/-- Settles O23: a small step after which the command still runs is a stretch of the running phase, which keeps
`OPC` and does not go back (`stepPhase_phase`). -/
theorem phaseNeverGoesBack : Obligations.PhaseNeverGoesBack := by
  intro s t _ h ht
  obtain ⟨v, -, rfl⟩ | ⟨-, hph, s', hreg, hs⟩ := tick_cases h
  · cases v <;> cases ht
  · have hopc : s'.opc = s.opc := by
      simp only [registers, Prod.mk.injEq] at hreg
      simp only [hreg]
    have hrank := all_of_eq (s := s') (stepPhase_phase hph) (by
      obtain ⟨hr, -⟩ | ⟨hr, -⟩ | ⟨hr, -⟩ | ⟨e, i, -, hr, -⟩ := hs <;> simp [hr])
    obtain ⟨-, rfl⟩ | ⟨-, rfl⟩ | ⟨-, rfl⟩ | ⟨e, i, -, -, rfl⟩ := hs <;> exact ⟨hopc, hrank.2⟩

/-! ### BUILD_TREE (R117, R122) -/

/-- Settles O31: the body comes to the arena of BUILD (`countBuild_spec`), which is such a tree
(`countBuild_arena`). -/
theorem buildLeavesFullTree : Obligations.BuildLeavesFullTree := by
  intro s ⟨hb, he, ho⟩ hl
  obtain ⟨a, tr, ha, hrun, -⟩ := countBuild_spec (s := accept .buildTree s) (by exact he) (by exact ho) (by exact hl)
  obtain ⟨T, hk, hempty, -⟩ := countBuild_arena (xs := s.inp.ahead) hl ha
  exact ⟨_, (exec_idle _ hb).trans (congrArg conclude hrun), T, hempty, hk⟩

/-! ### Sound running states (R24) -/

/-- A sound running state is in a phase of its own, with the working state that phase has (R24). -/
theorem sound_running {s : State} (S : Sound s) (hb : busy s = true) (hp : s.pend = none) :
    s.phase ∈ phasesOf s.opc ∧ PhaseOk s :=
  ⟨S.consistent.phase_own (status_of_busy hb), S.phase_ok (status_of_busy hb) hp⟩

/-! ### The packer, step by step (R160, R161, R163) -/

/-- In a sound `P_PACK` state the small step is PACK's, and the table is the tree's code (R40, R150, R153). -/
theorem sound_pack {s : State} (S : Sound s) (hb : busy s = true) (hp : s.pend = none) (hph : s.phase = .pack) :
    .pack ∈ phasesOf s.opc ∧ tick s = concludeSmall (stepPack s) ∧ CodesOf s.arena s.table ∧
      s.pbuf.length ≤ 262 := by
  obtain ⟨hown, ok⟩ := sound_running S hb hp
  rw [hph] at hown
  rw [PhaseOk, hph] at ok
  obtain ⟨-, C, hl⟩ := ok
  exact ⟨hown, tick_pack ⟨rfl, hph, hp⟩ hown, C, hl⟩

/-- The commands that pack are the commands that pad (R193, R195). -/
theorem pad_of_pack {i : Instr} (h : .pack ∈ phasesOf i) : .pad ∈ phasesOf i := by
  cases i with
  | buildTree => exact absurd h (by decide)
  | encode => decide
  | decode => exact absurd h (by decide)
  | encodeExt => decide

/-- With a byte's worth of bits, PACK writes or blocks, and reads nothing (R160). -/
theorem emitByte_reads {s t : State} (h : concludeSmall (emitByte s) = .next t) :
    inReads t.trace = inReads s.trace := by
  unfold emitByte at h
  split at h
  · next s' ho =>
    obtain ⟨r, rfl⟩ := outWrite_spec ho
    cases h; rfl
  · cases h; rfl

/-- PAD completes the last byte with the code that the search finds (R163, R165). -/
theorem padFill_completes {s : State} (C : CodesOf s.arena s.table) (hn : s.pbuf ≠ []) (hl : s.pbuf.length ≤ 7) :
    ∃ v, padChoice s.table (8 - s.pbuf.length) = some v ∧
      padFill s = .going
        { s with phase := .pad, pbuf := s.pbuf ++ (s.table.codeAt v).take (8 - s.pbuf.length) } ∧
      (s.pbuf ++ (s.table.codeAt v).take (8 - s.pbuf.length)).length = 8 := by
  have hpos := List.length_pos_of_ne_nil hn
  obtain ⟨v, hv, hlong⟩ := padChoice_some C (need := 8 - s.pbuf.length) (by omega)
  refine ⟨v, hv, ?_, ?_⟩
  · rw [padFill, if_neg hn, padNeed, hv]
  · rw [List.length_append, List.length_take]; omega

/-- PAD's step on a host that accepts writes the byte and ends the command (R163). -/
theorem tick_pad_writes {i : Instr} {s : State} (h : At i .pad s) (hi : .pad ∈ phasesOf i) (hn : s.pbuf ≠ [])
    (ho : s.outReady = .always) :
    tick s = .next { wrote (pack8 s.pbuf) s with pbuf := [], pend := some .finished } := by
  rw [tick_pad h hi, stepPad, padEmit, if_neg hn, outWrite_always ho]
  rfl

/-- Settles O54: PACK's step by what it meets (`stepPack_full`, `stepPack_byte`, `stepPack_eos`), the lengths by
the code's (`CodesOf`) and the padding search's (`padFill_completes`). -/
theorem packBufferBound : Obligations.PackBufferBound := by
  intro s S hb hp hph
  obtain ⟨hown, htick, C, hl⟩ := sound_pack S hb hp hph
  refine ⟨hl, ?plen, fun h8 ho => ?full, fun t h8 ht => ?noRead, fun x rest h7 hx => ?byte, fun hn hx he => ?done,
    fun hn h7 hx he => ?pad⟩
  case plen => rw [plen, BitVec.toNat_ofNat]; omega
  case full =>
    rw [stepPack_full h8, emitByte, outWrite_always ho] at htick
    exact ⟨_, htick, rfl, rfl, rfl, hph⟩
  case noRead =>
    rw [htick, stepPack_full h8] at ht
    exact emitByte_reads ht
  case byte =>
    obtain ⟨-, -, -, hcode⟩ := C x
    rw [stepPack_byte (by omega) hx] at htick
    refine ⟨_, htick, rfl, ?_, rfl, rfl, hph⟩
    show (s.pbuf ++ s.table.codeAt x).length ≤ 262
    rw [List.length_append]; omega
  case done =>
    rw [stepPack_eos (by rw [hn]; decide) hx he, padFill, if_pos (by exact hn)] at htick
    simp only [Run.andThen, pbuf_note, hn, if_true] at htick
    exact ⟨_, htick, rfl, rfl⟩
  case pad =>
    obtain ⟨v, hv, hfill, hlen⟩ := padFill_completes (s := note (.inRead none) s) C hn h7
    have hne := List.ne_nil_of_length_pos (by rw [hlen]; decide)
    rw [stepPack_eos (by omega) hx he, hfill] at htick
    simp only [Run.andThen, hne, if_false] at htick
    exact ⟨v, _, hv, htick, rfl, hlen, rfl, rfl, fun ho =>
      ⟨_, tick_pad_writes ⟨rfl, rfl, hp⟩ (pad_of_pack hown) hne ho, rfl, rfl, rfl⟩⟩

/-! ### The unpacker, step by step (R180, R181, R184) -/

/-- In a sound `P_UNPACK` state the small step is UNPACK's, and `CUR` is a node of a finished tree (R41, R122). -/
theorem sound_unpack {s : State} (S : Sound s) (hb : busy s = true) (hp : s.pend = none)
    (hph : s.phase = .unpack) :
    tick s = concludeSmall (stepUnpack s) ∧ Tree s.arena ∧ s.cur.toNat < 511 := by
  obtain ⟨hown, ok⟩ := sound_running S hb hp
  rw [hph] at hown
  rw [PhaseOk, hph] at ok
  obtain ⟨T, hc, -⟩ := ok
  exact ⟨tick_unpack ⟨rfl, hph, hp⟩ hown, T, hc⟩

/-- `n` is where the bits lead from node `m` as far as UNPACK's walk takes them: to the first leaf, or to the last
bit. `l` is what is left of them (R180, R181). -/
structure Walked (a : Arena) (m n : NodeIdx) (bits p l : BitString) : Prop where
  split : bits = p ++ l
  path : follow a m p = some n
  node : n.toNat < 511
  internal : isLeaf n = false → l = []

/-- UNPACK's walk from an internal node of a tree (`descend_tree`). -/
theorem descend_walked {s : State} (bs : BitString) (T : Tree s.arena) (hl : isLeaf s.cur = false)
    (hc : s.cur.toNat < 511) :
    ∃ n p l, descend bs s = .going { s with cur := n, bits := l } ∧ Walked s.arena s.cur n bs p l := by
  obtain ⟨n, p, l, hd, hsplit, hpath, hnode, hrest⟩ := descend_tree bs s T hl hc
  refine ⟨n, p, l, hd, hsplit, hpath, hnode, fun hn => ?_⟩
  rwa [hn, if_neg (by decide)] at hrest

/-- A step at an internal node with a byte on `IN` reads it and walks its bits (R180). -/
theorem stepUnpack_walks {s : State} {x : Byte} {rest : List Byte} (T : Tree s.arena) (hl : isLeaf s.cur = false)
    (hc : s.cur.toNat < 511) (hx : s.inp.ahead = x :: rest) :
    ∃ n p l, stepUnpack s = .going
        { s with
          cur := n
          bits := l
          inp := { s.inp with taken := s.inp.taken ++ [x], ahead := rest }
          trace := .inRead (some x) :: s.trace } ∧
      Walked s.arena s.cur n (bits8 x) p l := by
  rw [stepUnpack_byte (symbolDue_internal hl) hx]
  exact descend_walked (bits8 x) (by exact T) (by exact hl) (by exact hc)

/-- A step at a leaf whose byte is accepted walks the bits left, from the root (R180). -/
theorem stepUnpack_emits {s u : State} (T : Tree s.arena) (hl : isLeaf s.cur = true)
    (ho : outWrite (leafByte s.cur) s = some u) :
    ∃ n p l, stepUnpack s = .going { u with cur := n, bits := l } ∧
      Walked s.arena s.arena.root n s.bits p l := by
  obtain ⟨r, rfl⟩ := outWrite_spec ho
  rw [stepUnpack_leaf ((symbolDue_of_root (root_not_leaf T)).trans hl), emitSymbol, ho]
  exact descend_walked (s := { s with cur := s.arena.root, out := _, outReady := _, trace := _ }) s.bits T
    (root_not_leaf T) T.root_node

/-- A step at a leaf whose byte is not accepted blocks (R55). -/
theorem stepUnpack_refused {s : State} (T : Tree s.arena) (hl : isLeaf s.cur = true)
    (ho : outWrite (leafByte s.cur) s = none) : stepUnpack s = .waiting s := by
  rw [stepUnpack_leaf ((symbolDue_of_root (root_not_leaf T)).trans hl), emitSymbol, ho]
  rfl

/-- UNPACK has met the end of `IN` where it would read (R180). -/
def AtEnd (s : State) : Prop := isLeaf s.cur = false ∧ s.inp.ahead = [] ∧ s.inp.ended = true

/-- At the end of `IN` a step of UNPACK ends the command; every other goes on or blocks, at a node of the tree
(R180, R182, R184). -/
theorem stepUnpack_cases {s : State} (T : Tree s.arena) (hc : s.cur.toNat < 511) :
    (AtEnd s ∧ stepUnpack s = .ended (note (.inRead none) s)) ∨
    (¬ AtEnd s ∧ ∃ u, (stepUnpack s = .going u ∨ stepUnpack s = .waiting u) ∧ u.cur.toNat < 511 ∧
      (u.phase, u.arena, u.pend) = (s.phase, s.arena, s.pend)) := by
  by_cases hend : AtEnd s
  · obtain ⟨hl, hx, he⟩ := hend
    exact .inl ⟨⟨hl, hx, he⟩, stepUnpack_eos (symbolDue_internal hl) hx he⟩
  · refine .inr ⟨hend, ?_⟩
    cases hl : isLeaf s.cur with
    | true =>
      cases ho : outWrite (leafByte s.cur) s with
      | some u =>
        obtain ⟨n, p, l, hs, W⟩ := stepUnpack_emits T hl ho
        obtain ⟨r, rfl⟩ := outWrite_spec ho
        exact ⟨_, .inl hs, W.node, rfl⟩
      | none => exact ⟨s, .inr (stepUnpack_refused T hl ho), hc, rfl⟩
    | false =>
      cases hx : s.inp.ahead with
      | cons x rest =>
        obtain ⟨n, p, l, hs, W⟩ := stepUnpack_walks T hl hc hx
        exact ⟨_, .inl hs, W.node, rfl⟩
      | nil =>
        have he : s.inp.ended = false := by
          rw [Bool.eq_false_iff]
          exact fun he => hend ⟨hl, hx, he⟩
        exact ⟨s, .inr (stepUnpack_blocked (symbolDue_internal hl) hx he), hc, rfl⟩

/-- Settles O55: UNPACK's step by what it meets (`stepUnpack_walks`, `stepUnpack_emits`, `stepUnpack_cases`). -/
theorem bitStepsStayInTree : Obligations.BitStepsStayInTree := by
  intro s S hb hp hph
  obtain ⟨htick, T, hc⟩ := sound_unpack S hb hp hph
  refine ⟨hc, fun hl b => ?children, fun x rest hl hx => ?byte, fun hl ho => ?symbol, fun t ht => ?any⟩
  case children =>
    obtain ⟨m, hm, hlt⟩ := tree_child T hl hc b
    exact ⟨m, hm, hlt.trans hc⟩
  case byte =>
    obtain ⟨n, p, l, hs, W⟩ := stepUnpack_walks T hl hc hx
    rw [hs] at htick
    exact ⟨_, p, htick, rfl, rfl, W.split, W.path, W.internal⟩
  case symbol =>
    obtain ⟨n, p, l, hs, W⟩ := stepUnpack_emits T hl (outWrite_always ho _)
    rw [hs] at htick
    exact ⟨_, p, htick, rfl, rfl, W.split, W.path, W.internal⟩
  case any =>
    rw [htick] at ht
    obtain ⟨hend, hs⟩ | ⟨hgo, u, hs, hcu, hu⟩ := stepUnpack_cases T hc
    · rw [hs] at ht; cases ht
      exact ⟨hph, hc, rfl, .inr rfl, fun _ => hend, fun _ => rfl⟩
    · obtain rfl : u = t := by
        obtain hs | hs := hs <;> · rw [hs] at ht; cases ht; rfl
      simp only [Prod.mk.injEq] at hu
      obtain ⟨hphu, ha, hpu⟩ := hu
      rw [hp] at hpu
      exact ⟨hphu.trans hph, hcu, ha, .inl hpu, fun h => (by rw [hpu] at h; cases h), fun h => absurd h hgo⟩

end Sys2Proof.Machine

namespace Sys2Proof.Machine

/-! ### The stream primitives by what they meet (R52, R53, R55) -/

/-- `OutWrite` on a host that accepts so many bytes more spends one of them (R55). -/
theorem outWrite_counted {s : State} {n : Nat} (h : s.outReady = .upTo (n + 1)) (b : Byte) :
    outWrite b s = some (note (.outWrite b) { s with out := s.out ++ [b], outReady := .upTo n }) := by
  simp only [outWrite, h]

/-- `OutWrite` on a host that accepts no byte blocks (R55). -/
theorem outWrite_refused {s : State} (h : s.outReady = .upTo 0) (b : Byte) : outWrite b s = none := by
  simp only [outWrite, h]

/-- Settles O10: the two reads by the one law of both input ports (`portRead_cons`, `portRead_eos`,
`portRead_blocked`), the write by what the host accepts (`outWrite_always`, `outWrite_counted`,
`outWrite_refused`). -/
theorem streamPrimitives : Obligations.StreamPrimitives :=
  ⟨fun _ _ _ hx => portRead_cons (p := .inStream) hx,
    fun _ hx he => portRead_eos (p := .inStream) hx he,
    fun _ hx he => portRead_blocked (p := .inStream) hx he,
    fun _ _ _ hx => portRead_cons (p := .treeStream) hx,
    fun _ hx he => portRead_eos (p := .treeStream) hx he,
    fun _ hx he => portRead_blocked (p := .treeStream) hx he,
    fun _ => rfl,
    fun _ b hr => outWrite_always hr b,
    fun _ b _ hr => outWrite_counted hr b,
    fun _ b hr => outWrite_refused hr b⟩

/-! ### Steps whose port call blocks (R52, R55, R251) -/

/-- ACCUMULATE with nothing to read (R52). -/
theorem stepAcc_blocked {s : State} (hx : s.inp.ahead = []) (he : s.inp.ended = false) :
    stepAcc s = .waiting s := by
  rw [stepAcc, show inRead s = _ from portRead_blocked (p := .inStream) hx he]

/-- DESER_READ, its tree not complete, with nothing to read on its port (R52, R133). -/
theorem stepDeserRead_blocked {s : State} {p : StreamSel} (hp : treePort s.opc = some p)
    (ht : s.arena.tcnt.toNat < 510) (hx : (portOf p s).ahead = []) (he : (portOf p s).ended = false) :
    stepDeserRead s = .waiting s := by
  simp only [stepDeserRead, hp, if_pos ht, deserReadByte, portRead_blocked hx he, Run.andThen]

/-- SERIALIZE with a byte to write that is not accepted (R55, R130). -/
theorem stepSer_refused {s : State} (hj : s.serIdx < 510) (hr : s.outReady = .upTo 0) :
    stepSer s = .waiting s := by
  rw [stepSer, if_pos hj, serByte, outWrite_refused hr]
  rfl

/-- PACK with less than a byte in the buffer and nothing to read (R52, R160). -/
theorem stepPack_blocked {s : State} (hl : s.pbuf.length < 8) (hx : s.inp.ahead = [])
    (he : s.inp.ended = false) : stepPack s = .waiting s := by
  rw [stepPack, if_neg (by omega), show inRead s = _ from portRead_blocked (p := .inStream) hx he]

/-- PACK with a full byte that is not accepted (R55, R160). -/
theorem stepPack_refused {s : State} (hl : 8 ≤ s.pbuf.length) (hr : s.outReady = .upTo 0) :
    stepPack s = .waiting s := by
  rw [stepPack_full hl, emitByte, outWrite_refused hr]

/-- PAD with a last byte that is not accepted (R55, R163). -/
theorem stepPad_refused {s : State} (hn : s.pbuf ≠ []) (hr : s.outReady = .upTo 0) :
    stepPad s = .waiting s := by
  rw [stepPad, padEmit, if_neg hn, outWrite_refused hr]
  rfl

/-- UNPACK with a symbol due that is not accepted (R55, R180). -/
theorem stepUnpack_due_refused {s : State} (hd : symbolDue s = true) (hr : s.outReady = .upTo 0) :
    stepUnpack s = .waiting s := by
  rw [stepUnpack_leaf hd, emitSymbol, outWrite_refused hr]
  rfl

/-- A running engine whose port call blocks stays as it is (R52, R55, I13). -/
theorem engineStep_blocked {s : State} (hb : busy s = true) (hp : s.pend = none) (hown : s.phase ∈ phasesOf s.opc)
    (hw : stepPhase s = .waiting s) : engineStep s = .next s := by
  rw [engineStep, if_pos hb, tick_phase hp hown, hw]
  rfl

/-- Settles O11: each phase's step blocks at its port call (`stepAcc_blocked` and the like), and a step that
blocks changes nothing (`engineStep_blocked`). -/
theorem blockedEngineWaits : Obligations.BlockedEngineWaits := by
  intro s hb hp hown hblock
  refine engineStep_blocked hb hp hown ?_
  obtain ⟨hph, hx, he⟩ | ⟨hph, ho, ht, hx, he⟩ | ⟨hph, ho, ht, hx, he⟩ | ⟨hph, hl, hx, he⟩ |
    ⟨hph, hc, hx, he⟩ | ⟨hr, ⟨hph, hj⟩ | ⟨hph, hl⟩ | ⟨hph, hn⟩ | ⟨hph, hc, hroot⟩⟩ := hblock <;>
    rw [stepPhase, hph]
  · exact stepAcc_blocked hx he
  · exact stepDeserRead_blocked (p := .inStream) (by rw [ho]; rfl) ht hx he
  · exact stepDeserRead_blocked (p := .treeStream) (by rw [ho]; rfl) ht hx he
  · exact stepPack_blocked hl hx he
  · exact stepUnpack_blocked (hc.elim symbolDue_internal symbolDue_leaf_root) hx he
  · exact stepSer_refused hj hr
  · exact stepPack_refused hl hr
  · exact stepPad_refused hn hr
  · exact stepUnpack_due_refused ((symbolDue_of_root hroot).trans hc) hr

/-! ### The events of one small step (R55, R56, R247) -/

/-- The final `STATUS` update shows its own event and writes nothing (R56). -/
theorem applyVerdict_showsOne (v : Verdict) (s : State) : ShowsOne s (applyVerdict v s) := by
  cases v with
  | finished => exact showsOne_read (e := .stateFinal .done) rfl rfl
  | raised e i => exact showsOne_read (e := .stateFinal .error) rfl rfl

/-- A small step shows at most one event, whatever it is a step of (R56, R247). -/
theorem tick_showsOne {s t : State} (h : tick s = .next t) : ShowsOne s t := by
  obtain ⟨v, -, rfl⟩ | ⟨-, -, s', -, hs⟩ := tick_cases h
  · exact applyVerdict_showsOne v s
  · have shows := stepPhase_shows s
    obtain ⟨hr, rfl⟩ | ⟨hr, rfl⟩ | ⟨hr, rfl⟩ | ⟨e, i, -, hr, rfl⟩ := hs
    · exact all_of_eq shows (.inl hr)
    · exact all_of_eq shows (.inr (.inl hr))
    · exact showsOne_fix (t := s') rfl (all_of_eq shows (.inr (.inr (.inl hr))))
    · exact showsOne_fix (t := s') rfl (all_of_eq shows (.inr (.inr (.inr ⟨e, i, hr⟩))))

/-- Settles O24: `tick_showsOne`, the trace and `OUT` taken apart. -/
theorem oneEventPerStep : Obligations.OneEventPerStep := by
  intro s t _ h
  simpa only [ShowsOne, shown, Prod.mk.injEq] using tick_showsOne h

/-! ### The reads of whole commands (R54) -/

/-- A command whose body runs to its end has made the reads and rewinds of its body: acceptance starts the trace
anew, and the final `STATUS` update reads nothing (R56, R190). -/
theorem exec_reads {i : Instr} {s u : State} {tr : List PortEvent} {ins trees : List (Option Byte)} {n : Nat}
    (hb : busy s = false) (hbody : bodyOf i (accept i s) = .going u) (htr : u.trace = tr ++ (accept i s).trace)
    (hins : inReads tr = ins) (htrees : treeReads tr = trees) (hn : rewinds tr = n) :
    ∃ t, exec i s = .next t ∧ inReads t.trace = ins ∧ treeReads t.trace = trees ∧ rewinds t.trace = n := by
  have hu : u.trace = tr := by rw [htr, trace_accept, List.append_nil]
  subst hu
  exact ⟨finish u, by rw [exec_idle i hb, hbody]; rfl, hins, htrees, hn⟩

/-- Settles O41: the trace of each body (`countBuild_spec`, `bodyEncode_spec`, `bodyDecode_spec`,
`bodyEncodeExt_spec`) is the command's (`exec_reads`). -/
theorem streamsConsumed : Obligations.StreamsConsumed := by
  refine ⟨fun s hr hl => ?buildTree, fun s hr hl htaken => ?encode, fun s hr hw => ?decode,
    fun s hr hw => ?encodeExt⟩ <;> obtain ⟨hb, he, ho⟩ := hr
  case buildTree =>
    obtain ⟨_, tr, -, hbody, hadds⟩ := countBuild_spec (s := accept .buildTree s) he ho hl
    exact exec_reads hb hbody rfl hadds.ins_eq hadds.trees_eq hadds.rewinds_eq
  case encode =>
    obtain ⟨_, _, _, tr, -, -, hbody, hins, htrees, hn, -⟩ := bodyEncode_spec (s := accept .encode s) he ho hl
    refine exec_reads hb hbody rfl (hins.trans ?_) htrees hn
    rw [inp_accept, htaken, List.nil_append]
  case decode =>
    obtain ⟨_, _, tr, -, -, -, -, -, hbody, hadds⟩ := bodyDecode_spec (s := accept .decode s) he ho hw
    exact exec_reads hb hbody rfl hadds.ins_eq hadds.trees_eq hadds.rewinds_eq
  case encodeExt =>
    obtain ⟨_, _, _, tr, -, -, -, -, -, -, hbody, hins, htrees, hn, -⟩ :=
      bodyEncodeExt_spec (s := accept .encodeExt s) he ho hw
    exact exec_reads hb hbody rfl hins htrees hn

end Sys2Proof.Machine

namespace Sys2Proof.Machine

/-! ### Commands that complete (R190, R192, R193, R195) -/

/-- A command whose body runs to its end completes: no phase writes the status registers (`bodyOf_fix`), so the final
`STATUS` update finds them as acceptance has set them (R190). -/
theorem exec_completes {i : Instr} {s u : State} (hb : busy s = false) (hbody : bodyOf i (accept i s) = .going u) :
    exec i s = .next (finish u) ∧ Completed i (finish u) := by
  have kept : (bodyOf i (accept i s)).Fix statusFields (statusFields (accept i s)) :=
    bodyOf_fix (by intros; rfl) i (accept i s)
  rw [hbody] at kept
  cases kept with
  | going h =>
    obtain ⟨herr, hinfo⟩ := err_info_of_statusFields h
    obtain ⟨hovr, hop⟩ := ovr_lastOp_of_statusFields h
    exact ⟨by rw [exec_idle i hb, hbody]; rfl, rfl, herr, hinfo, hovr, hop.trans (opField_encode i), rfl⟩

/-- A 510-byte header and the payload of `xs` are `510 + ceil(L / 8)` bytes (R84, R85). -/
theorem header_payload_length {a : Arena} {t : CodeTable} (C : CodesOf a t) {header : List Byte}
    (h : header.length = 510) (xs : List Byte) :
    (header ++ payload t xs).length = 510 + ((codeBits t xs).length + 7) / 8 := by
  rw [List.length_append, h, (payload_length C xs).1]

/-- Settles O36: the body of `ENCODE` runs to its end (`bodyEncode_spec`), and the record of the tree it builds is an
accepted encoding (`countBuild_arena`). -/
theorem encodeCompletes : Obligations.EncodeCompletes := by
  intro s ⟨hb, he, ho⟩ hl
  obtain ⟨a, t, ph, tr, ha, C, hbody, -⟩ := bodyEncode_spec (s := accept .encode s) he ho hl
  obtain ⟨T, -, -, hw, -⟩ := countBuild_arena (xs := s.inp.ahead) hl ha
  obtain ⟨hexec, hdone⟩ := exec_completes (i := .encode) hb hbody
  exact ⟨_, hexec, hdone, T, C, hw, rfl, header_payload_length C (mseqList_length a) _, rfl, rfl⟩

/-- Settles O37: the body of `ENCODE_EXT` runs to its end (`bodyEncodeExt_spec`) with the header as it was read. -/
theorem encodeExtCompletes : Obligations.EncodeExtCompletes := by
  intro s ⟨hb, he, ho⟩ hw
  obtain ⟨a, t, ph, tr, T, C, -, -, -, -, hbody, -⟩ := bodyEncodeExt_spec (s := accept .encodeExt s) he ho hw
  obtain ⟨hexec, hdone⟩ := exec_completes (i := .encodeExt) hb hbody
  obtain ⟨hheader, -⟩ := (wellFormedTree_iff _).1 hw
  exact ⟨_, hexec, hdone, T, C, rfl, header_payload_length C hheader _, rfl, rfl⟩

/-- Settles O35: the body of `BUILD_TREE` runs to its end (`countBuild_spec`), and its record is an accepted encoding
(`build_record_accepted`). -/
theorem buildTreeCompletes : Obligations.BuildTreeCompletes := by
  intro s ⟨hb, he, ho⟩ hl
  obtain ⟨a, tr, ha, hbody, -⟩ := countBuild_spec (s := accept .buildTree s) he ho hl
  obtain ⟨hexec, hdone⟩ := exec_completes (i := .buildTree) hb hbody
  exact ⟨_, hexec, hdone, rfl, mseqList_length a, build_record_accepted ha, rfl, rfl⟩

/-! ### Command words, bit by bit (R71, R72) -/

/-- A word is its two fields joined (R71). -/
theorem rsvdField_append_opField (c : Word) : rsvdField c ++ opField c = c :=
  BitVec.extractLsb'_append_extractLsb'

/-- A word that decodes to a command is the command's encoding: its `RSVD` is 0 and its `OP` is the command's, and it
has no other bit. -/
theorem eq_encode_of_decode {c : Word} {i : Instr} (h : decode c = .ok i) : c = encode i := by
  obtain ⟨hw, j, hj, hop⟩ | ⟨-, e, he⟩ := decode_wellFormed c
  · obtain rfl : j = i := Except.ok.inj (hj.symm.trans h)
    have hrsvd : rsvdField c = 0#24 := by
      simp only [wellFormedWord, reservedClear, Bool.and_eq_true, beq_iff_eq] at hw
      exact hw.1
    rw [← rsvdField_append_opField c, hrsvd, hop, encode]
  · cases he.symm.trans h

/-- Settles O2: `eq_encode_of_decode` one way, `decode_encode` the other. -/
theorem oneLegalWordPerCommand : Obligations.OneLegalWordPerCommand :=
  fun _ i => ⟨eq_encode_of_decode, fun h => h ▸ decode_encode i⟩

/-- Settles O1: the four words are the encodings of the four commands. -/
theorem commandWordsDecode : Obligations.CommandWordsDecode :=
  ⟨decode_encode .buildTree, decode_encode .encode, decode_encode .decode, decode_encode .encodeExt⟩

/-! ### Accepted tree encodings (R81) -/

/-- 510 bytes that are no accepted encoding have a first pair that fails (R137). -/
theorem exists_first_bad_pair {t : List Byte} (hlen : t.length = 510) (h : wellFormedTree t ≠ true) :
    ∃ k, k < 255 ∧ (∀ j, j < k → pairSlotsFull t j = true ∧ pairOrdered t j = true) ∧
      ¬ (pairSlotsFull t k = true ∧ pairOrdered t k = true) := by
  have bad : ∃ k, k < 255 ∧ ¬ (pairSlotsFull t k = true ∧ pairOrdered t k = true) := by
    by_contra hnone
    push Not at hnone
    exact h ((wellFormedTree_iff t).2 ⟨hlen, hnone⟩)
  obtain ⟨hk, hbad⟩ := Nat.find_spec bad
  refine ⟨Nat.find bad, hk, fun j hj => ?_, hbad⟩
  by_contra hbadj
  exact Nat.find_min bad hj ⟨hj.trans hk, hbadj⟩

/-- `DECODE` of 510 bytes that are no accepted encoding ends in `ERROR`: the replay stops at the first bad pair
(`readTree_rejected`). -/
theorem exec_decode_rejected {s : State} (hb : busy s = false) (hlen : 510 ≤ s.inp.ahead.length)
    (h : wellFormedTree (s.inp.ahead.take 510) ≠ true) : ∃ t, exec .decode s = .next t ∧ t.status = .error := by
  obtain ⟨k, hk, hgood, hbad⟩ := exists_first_bad_pair (List.length_take_of_le hlen) h
  obtain ⟨a, hread⟩ := readTree_rejected (p := .inStream) (s := accept .decode s) hlen hk hgood hbad
  have hbody : bodyOf .decode (accept .decode s) = .raised _ _ _ := andThen_raised hread unpackPhase
  exact ⟨_, by rw [exec_idle .decode hb, hbody]; rfl, rfl⟩

/-- Settles O45: an accepted header is decoded to the end (`bodyDecode_spec`), and any other ends in `ERROR`
(`exec_decode_rejected`). -/
theorem acceptedEncodings : Obligations.AcceptedEncodings := by
  intro s ⟨hb, he, ho⟩ hlen
  by_cases hw : wellFormedTree (s.inp.ahead.take 510) = true
  · obtain ⟨a, c, tr, -, -, -, -, -, hbody, -⟩ := bodyDecode_spec (s := accept .decode s) he ho hw
    obtain ⟨hexec, hdone, -⟩ := exec_completes (i := .decode) hb hbody
    exact ⟨_, hexec, iff_of_true hdone hw⟩
  · obtain ⟨t, hexec, herror⟩ := exec_decode_rejected hb hlen hw
    exact ⟨t, hexec, iff_of_false (by rw [herror]; decide) hw⟩

section
variable {t : List Byte} (h : wellFormedTree t = true)
include h

/-- The high index of a pair is not 0, since the low one is below it (condition 3 of R81). -/
theorem hiIndex_ne_zero {k : Nat} (hk : k < 255) : hiIndex t k ≠ 0 := by
  obtain ⟨-, good⟩ := (wellFormedTree_iff t).1 h
  have hlt : loIndex t k < hiIndex t k := of_decide_eq_true (good k hk).2
  intro hz
  rw [hz] at hlt
  exact absurd hlt (BitVec.not_lt_zero)

/-- A pair's high index is none of the high indices before it, whose slots are cleared (conditions 1, 2 of R81). -/
theorem hiIndex_ne_of_lt {j k : Nat} (hjk : j < k) (hk : k < 255) : hiIndex t j ≠ hiIndex t k := by
  obtain ⟨-, good⟩ := (wellFormedTree_iff t).1 h
  have hfull := (good k hk).1
  simp only [pairSlotsFull, Bool.and_eq_true, Bool.not_eq_true', List.contains_eq_mem, decide_eq_false_iff_not] at hfull
  exact fun e => hfull.2 (mem_clearedBefore.2 ⟨j, hjk, e⟩)

/-- The 255 high indices differ from one another. -/
theorem clearedBefore_nodup : (clearedBefore t 255).Nodup := by
  refine List.Nodup.map_on (fun j hj k hk e => ?_) List.nodup_range
  rw [List.mem_range] at hj hk
  by_contra hne
  obtain hlt | hlt := Nat.lt_or_gt_of_ne hne
  · exact hiIndex_ne_of_lt h hlt hk e
  · exact hiIndex_ne_of_lt h hlt hj e.symm

/-- 255 different byte values other than 0 are all there are. -/
theorem clearedBefore_perm : (clearedBefore t 255).Perm (allBytes.erase 0) := by
  have hsub : clearedBefore t 255 ⊆ allBytes.erase 0 := by
    intro v hv
    obtain ⟨k, hk, rfl⟩ := mem_clearedBefore.1 hv
    exact (List.mem_erase_of_ne (hiIndex_ne_zero h hk)).2 (mem_allBytes _)
  refine (List.subperm_of_subset (clearedBefore_nodup h) hsub).perm_of_length_le ?_
  rw [List.length_erase_of_mem (mem_allBytes 0)]
  simp [allBytes, clearedBefore]

end

/-- Settles O46: the high indices are the slots the 255 pairs clear, and those are all byte values but 0, each once
(`clearedBefore_perm`). -/
theorem acceptedHighIndices : Obligations.AcceptedHighIndices := by
  intro t h v
  calc (List.range 255).countP (fun k => decide (hiIndex t k = v))
    _ = (clearedBefore t 255).count v := by rw [clearedBefore, List.count, List.countP_map]; rfl
    _ = (allBytes.erase 0).count v := (clearedBefore_perm h).count_eq v
    _ = if v ∈ allBytes.erase 0 then 1 else 0 := (allBytes_nodup.erase 0).count
    _ = if v = 0 then 0 else 1 := by
      simp only [allBytes_nodup.mem_erase_iff, mem_allBytes, and_true, ne_eq, ite_not]

end Sys2Proof.Machine

namespace Sys2Proof.Machine

/-! ### The counts that BUILD starts from (R101) -/

/-- Both commands that count their input end with the arena that BUILD makes of its counts (R192, R193). -/
theorem exec_builds_counts {i : Instr} {s : State} (hi : i = .buildTree ∨ i = .encode) (hr : Ready s)
    (hl : s.inp.ahead.length ≤ s.arena.maxInput) :
    ∃ t, exec i s = .next t ∧ buildArena (countAll (clearWeights s.arena) s.inp.ahead) = some t.arena := by
  obtain ⟨hb, he, ho⟩ := hr
  obtain rfl | rfl := hi
  · obtain ⟨a, tr, ha, hbody, -⟩ := countBuild_spec (s := accept .buildTree s) he ho hl
    exact ⟨_, (exec_completes (i := .buildTree) hb hbody).1, ha⟩
  · obtain ⟨a, t, ph, tr, ha, -, hbody, -⟩ := bodyEncode_spec (s := accept .encode s) he ho hl
    exact ⟨_, (exec_completes (i := .encode) hb hbody).1, ha⟩

/-- Settles O26: the final arena has the leaf weights and `TOTAL` that ACCUMULATE counted (`countBuild_arena`), and the
counts of all byte values add up to the length of the input (`sum_count`). -/
theorem frequencyCounts : Obligations.FrequencyCounts := by
  intro i s hi hr hl
  obtain ⟨t, hexec, hbuild⟩ := exec_builds_counts hi hr hl
  obtain ⟨-, -, -, -, hcount, htotal, -⟩ := countBuild_arena hl hbuild
  refine ⟨t, hexec, hcount, htotal, ?_, fun v => ?_, htotal.trans_le hl⟩
  · calc t.arena.total
      _ = s.inp.ahead.length := htotal
      _ = ∑ v : Byte, s.inp.ahead.count v := (sum_count _).symm
      _ = ∑ v : Byte, t.arena.weightAt (leafNode v) := Finset.sum_congr rfl fun v _ => (hcount v).symm
  · rw [hcount, htotal]
    exact List.count_le_length

/-! ### Leaves of weight 0, and the empty input (R103, R120, R121) -/

@[simp] theorem mseqAt_takeRoot (a : Arena) (j : Nat) : (takeRoot a).mseqAt j = a.mseqAt j := rfl

/-- BUILD's first merges are of the leaves of weight 0, in order, each into the slot of the lowest of them (R120). -/
theorem buildArena_zero_leaves {a b : Arena} {z : Byte} {zs : List Byte} (h : buildArena a = some b)
    (hzero : allBytes.filter (fun v => decide (a.weightAt (leafNode v) = 0)) = z :: zs) {j : Nat}
    (hj : j < zs.length) : b.mseqAt (2 * j) = z ∧ b.mseqAt (2 * j + 1) = zs[j] := by
  obtain ⟨f, hloop, rfl⟩ := Option.map_eq_some_iff.1 h
  have hlen : (z :: zs).length ≤ 256 := by
    rw [← hzero]
    exact (List.length_filter_le _ _).trans (by simp [allBytes])
  have hsorted : (z :: zs).Pairwise (· < ·) := hzero ▸ allBytes_pairwise.filter _
  have hmem : ∀ i, (initSlots a).weightAt ((initSlots a).slotAt i) = 0 ↔ i ∈ z :: zs := fun i => by
    rw [slotAt_initSlots, ← hzero, List.mem_filter, decide_eq_true_iff]
    exact (and_iff_right (mem_allBytes i)).symm
  have hlive : ∀ i, (initSlots a).slotAt i ≠ emptySlot := fun i => by
    rw [slotAt_initSlots]
    exact leafNode_ne_empty i
  have first := zero_run z zs 255 (initSlots a) f (initSlots_forest a) rfl (Nat.le_of_succ_le_succ hlen) hloop hsorted
    (fun i _ => hlive i) (fun i _ => hmem i) j hj
  simpa using first

/-- The pairs of a tree encoding, one after another, are the encoding (R80). -/
theorem eq_flatMap_pairs (n : Nat) : ∀ {t : List Byte}, t.length = 2 * n →
    t = (List.range n).flatMap fun k => [loIndex t k, hiIndex t k] := by
  induction n with
  | zero => intro t h; exact List.length_eq_zero_iff.1 h
  | succ n ih =>
    intro t h
    match t, h with
    | x :: y :: rest, h =>
      have hrest : rest.length = 2 * n := by simp only [List.length_cons] at h; omega
      rw [List.range_succ_eq_map, List.flatMap_cons, List.flatMap_map]
      exact congrArg (x :: y :: ·) (ih hrest)

/-- The byte values are 0 and then 1 to 255. -/
theorem allBytes_eq_zero_cons : allBytes = 0 :: (List.range 255).map fun k => BitVec.ofNat 8 (k + 1) := by
  rw [allBytes, Config.alphabet, List.range_succ_eq_map, List.map_cons, List.map_map]
  rfl

/-- Where no leaf weighs anything, BUILD records the chain `(0,1), (0,2), …, (0,255)` (R121). -/
theorem buildArena_all_zero {a b : Arena} (h : buildArena a = some b) (hz : ∀ v, a.weightAt (leafNode v) = 0) :
    mseqList b = (List.range 255).flatMap fun k => [0#8, BitVec.ofNat 8 (k + 1)] := by
  have hzero : allBytes.filter (fun v => decide (a.weightAt (leafNode v) = 0)) =
      0 :: (List.range 255).map fun k => BitVec.ofNat 8 (k + 1) := by
    rw [← allBytes_eq_zero_cons, List.filter_eq_self]
    exact fun v _ => decide_eq_true (hz v)
  rw [eq_flatMap_pairs 255 (mseqList_length b)]
  refine List.flatMap_congr fun k hk => ?_
  obtain ⟨hlo, hhi⟩ := buildArena_zero_leaves h hzero (j := k) (by simpa using hk)
  rw [loIndex_mseqList, hiIndex_mseqList, hlo, hhi, List.getElem_map, List.getElem_range]
  rfl

/-- Settles O34: the counts of an empty input are all 0 (`countAll_clearWeights`), so the record that `BUILD_TREE`
writes is the chain (`buildArena_all_zero`). -/
theorem emptyInputBuildsChain : Obligations.EmptyInputBuildsChain := by
  intro s ⟨hb, he, ho⟩ hempty
  have hl : s.inp.ahead.length ≤ s.arena.maxInput := by rw [hempty]; exact Nat.zero_le _
  obtain ⟨a, tr, hbuild, hbody, -⟩ := countBuild_spec (s := accept .buildTree s) he ho hl
  obtain ⟨hexec, hdone⟩ := exec_completes (i := .buildTree) hb hbody
  obtain ⟨-, -, -, -, -, htotal, -⟩ := countBuild_arena (xs := s.inp.ahead) hl hbuild
  obtain ⟨-, hcount⟩ := countAll_clearWeights hl
  have hz : ∀ v, (countAll (clearWeights s.arena) s.inp.ahead).weightAt (leafNode v) = 0 := fun v => by
    rw [hcount, hempty, List.count_nil]
  refine ⟨_, hexec, hdone, ?_, buildArena_all_zero hbuild hz⟩
  exact htotal.trans (List.length_eq_zero_iff.2 hempty)

end Sys2Proof.Machine

namespace Sys2Proof.Machine

/-! ### The record that BUILD_TREE writes (R119, R120) -/

/-- `BUILD_TREE` writes the record of the tree that BUILD makes of the input's counts (R192). -/
theorem exec_buildTree_writes {s : State} (hr : Ready s) (hl : s.inp.ahead.length ≤ s.arena.maxInput) :
    ∃ t b, exec .buildTree s = .next t ∧ buildArena (countAll (clearWeights s.arena) s.inp.ahead) = some b ∧
      t.out = mseqList b := by
  obtain ⟨hb, he, ho⟩ := hr
  obtain ⟨b, tr, hbuild, hbody, -⟩ := countBuild_spec (s := accept .buildTree s) he ho hl
  exact ⟨_, b, (exec_completes (i := .buildTree) hb hbody).1, hbuild, rfl⟩

/-- Settles O32: BUILD reads the leaf weights alone (`buildArena_alike`), and the leaf weights of inputs that are
permutations of one another are equal (`leafCounts_perm`). -/
theorem buildIsDeterministic : Obligations.BuildIsDeterministic := by
  refine ⟨fun a a' => buildArena_alike, fun s s' hr hr' hw hperm hl => ?_⟩
  have hl' : s'.inp.ahead.length ≤ s'.arena.maxInput := by
    rw [← hperm.length_eq, Arena.maxInput, hw]
    exact hl
  obtain ⟨t, b, hexec, hbuild, hout⟩ := exec_buildTree_writes hr hl
  obtain ⟨t', b', hexec', hbuild', hout'⟩ := exec_buildTree_writes hr' hl'
  obtain ⟨c, c', hc, hc', hmseq, -⟩ := buildArena_alike (by simp only [width_countAll, width_clearWeights, hw])
    (leafCounts_perm hw hl hperm)
  obtain rfl : c = b := Option.some.inj (hc.symm.trans hbuild)
  obtain rfl : c' = b' := Option.some.inj (hc'.symm.trans hbuild')
  exact ⟨t, t', hexec, hexec', by rw [hout, hout', mseqList, mseqList, hmseq]⟩

/-- Settles O33: the byte values that do not occur are the leaves of weight 0 (`countAll_clearWeights`), which BUILD
merges first (`buildArena_zero_leaves`). -/
theorem zeroWeightLeavesFirst : Obligations.ZeroWeightLeavesFirst := by
  intro s z zs hr hl hzero
  obtain ⟨t, b, hexec, hbuild, hout⟩ := exec_buildTree_writes hr hl
  obtain ⟨-, hcount⟩ := countAll_clearWeights hl
  simp only [← hcount] at hzero
  refine ⟨t, hexec, fun j hj => ?_⟩
  rw [hout, loIndex_mseqList, hiIndex_mseqList]
  exact buildArena_zero_leaves hbuild hzero hj

/-- Settles O30: what the counts of a whole input make of the tree (`countBuild_arena`). -/
theorem rootWeighsTotal : Obligations.RootWeighsTotal := by
  intro i s hi hr hl
  obtain ⟨t, hexec, hbuild⟩ := exec_builds_counts hi hr hl
  obtain ⟨-, -, -, -, -, -, hroot, hsums, -⟩ := countBuild_arena hl hbuild
  exact ⟨t, hexec, hroot, hsums⟩

/-! ### SelectMin (R112) -/

/-- SelectMin finds nothing exactly where no slot is eligible (R112). -/
theorem selectMin_eq_none_iff {a : Arena} {excl : Option Byte} :
    selectMin a excl = none ↔ ∀ i, ¬ Eligible a excl i := by
  refine ⟨selectMin_none, fun h => ?_⟩
  cases hs : selectMin a excl with
  | none => rfl
  | some i => exact absurd (selectMin_some hs).1 (h i)

/-- Settles O28: the least pair is that of one slot only (`selectMin_least`), and SelectMin finds it
(`selectMin_some`). -/
theorem selectMinIsLeastPair : Obligations.SelectMinIsLeastPair := by
  refine fun a excl => ⟨selectMin_eq_none_iff, fun i => ⟨fun h => ?_, fun ⟨he, hle⟩ => selectMin_least he hle⟩⟩
  obtain ⟨he, hle⟩ := selectMin_some h
  exact ⟨he, fun j hj _ => hle j hj⟩

/-! ### One merge, as a small step (R113 to R118) -/

/-- The lower and the higher of two byte values are the two, in one order or the other. -/
theorem minByte_maxByte_cases (i j : Byte) :
    (minByte i j = i ∧ maxByte i j = j) ∨ (minByte i j = j ∧ maxByte i j = i) := by
  by_cases h : i ≤ j
  · exact .inl ⟨if_pos h, if_pos h⟩
  · exact .inr ⟨if_neg h, if_neg h⟩

/-- In a sound `P_BUILD` state the small step is a merge of the forest, whose weight no register cuts (R113, R118). -/
theorem sound_build {s : State} (S : Sound s) (hb : busy s = true) (hp : s.pend = none) (hph : s.phase = .build) :
    tick s = concludeSmall (stepBuild s) ∧ Forest s.arena ∧ s.arena.k.toNat < 255 ∧
      liveWeight s.arena ≤ s.arena.maxInput := by
  obtain ⟨hown, ok⟩ := sound_running S hb hp
  rw [hph] at hown
  rw [PhaseOk, hph] at ok
  obtain ⟨F, hk, hw⟩ := ok
  exact ⟨tick_build ⟨rfl, hph, hp⟩ hown, F, hk, hw.trans_le (le_maxInput.2 S.weights_fit.1)⟩

/-- A merge before the last leaves `P_BUILD` to go on (R111). -/
theorem stepBuild_more {s : State} {a : Arena} (hk : s.arena.k.toNat < 254) (h : mergeStep s.arena = some a) :
    stepBuild s = .going { s with arena := a } := by
  have hk' : a.k.toNat < Config.merges := by
    rw [k_mergeStep h, toNat_succ_k (by omega)]
    exact Nat.succ_lt_succ hk
  rw [stepBuild, if_pos (Nat.lt_succ_of_lt hk), h]
  exact if_pos hk'

/-- After the last merge the root is taken, and SERIALIZE begins in the same step (R117, assumption 18). -/
theorem stepBuild_last {s : State} {a : Arena} (hk : s.arena.k.toNat = 254) (h : mergeStep s.arena = some a) :
    stepBuild s = .going (enterSer { s with arena := takeRoot a }) := by
  have hk' : ¬ a.k.toNat < Config.merges := by
    rw [k_mergeStep h, toNat_succ_k (by omega), hk]
    exact Nat.lt_irrefl 255
  rw [stepBuild, if_pos (by rw [hk]; decide), h]
  exact if_neg hk'

/-- After the last merge, taking the root leaves every slot empty (R117). -/
theorem slotAt_takeRoot_last {a : Arena} (F : Forest a) (hk : a.k.toNat = 255) (i : Byte) :
    (takeRoot a).slotAt i = emptySlot := by
  rw [slotAt_takeRoot, ite_eq_left_iff]
  exact fun hi => not_not.1 (mt (only_slot_zero F hk i) hi)

/-- What a merge of slots `lo` and `hi` of `a` writes to the new node, the record and `K`, as `b` holds it. -/
structure Merged (lo hi : Byte) (a b : Arena) : Prop where
  children : ∀ c, b.child (mergeNode a.k) c = some (a.slotAt (if c then hi else lo))
  weight : b.weightAt (mergeNode a.k) = a.weightAt (a.slotAt lo) + a.weightAt (a.slotAt hi)
  record_lo : b.mseqAt (2 * a.k.toNat) = lo
  record_hi : b.mseqAt (2 * a.k.toNat + 1) = hi
  count : b.k.toNat = a.k.toNat + 1

/-- Taking the root leaves what a merge has written. -/
theorem takeRoot_merged {lo hi : Byte} {a b : Arena} (M : Merged lo hi a b) : Merged lo hi a (takeRoot b) where
  children c := (child_takeRoot b _ c).trans (M.children c)
  weight := M.weight
  record_lo := M.record_lo
  record_hi := M.record_hi
  count := M.count

section
variable {a : Arena} {lo hi : Byte} (F : Forest a) (hk : a.k.toNat < 255) (hlo : a.slotAt lo ≠ emptySlot)
  (hhi : a.slotAt hi ≠ emptySlot) (hlt : lo < hi)

include hk hlo hhi hlt in
/-- A merge of two live slots links them under the new node, weighs it and records the pair (R113, R115, R116). -/
theorem mergePair_merged (hw : liveWeight a ≤ a.maxInput) : Merged lo hi a (mergePair lo hi a) where
  children c := by rw [child_mergePair, child_linkPair lo hi a _ c hk hlo hhi, if_pos rfl]
  weight := weightAt_merged hk hlo hhi hlt hw
  record_lo := by rw [mseqAt_mergePair lo hi a _ hk, if_neg (by omega), if_pos rfl]
  record_hi := by rw [mseqAt_mergePair lo hi a _ hk, if_pos rfl]
  count := by rw [k_mergePair, toNat_succ_k hk]

include hlt in
/-- After a merge the lower slot holds the new node (R114). -/
theorem slotAt_mergePair_lo : (mergePair lo hi a).slotAt lo = mergeNode a.k := by
  rw [slotAt_mergePair, slotAt_linkPair, if_neg (BitVec.ne_of_lt hlt).symm, if_pos rfl]

/-- After a merge the higher slot is empty (R114). -/
theorem slotAt_mergePair_hi : (mergePair lo hi a).slotAt hi = emptySlot := by
  rw [slotAt_mergePair, slotAt_linkPair, if_pos rfl]

/-- A merge changes no other slot (R114). -/
theorem slotAt_mergePair_other {j : Byte} (hjlo : j ≠ lo) (hjhi : j ≠ hi) :
    (mergePair lo hi a).slotAt j = a.slotAt j := by
  rw [slotAt_mergePair, slotAt_linkPair, if_neg hjhi.symm, if_neg hjlo.symm]

include F hk hlo hhi hlt

/-- A merge leaves `255 - K` slots in use (R113). -/
theorem liveSlots_mergePair : liveSlots (mergePair lo hi a) = 255 - a.k.toNat := by
  rw [(mergePair_forest F hk hlo hhi hlt).live, k_mergePair, toNat_succ_k hk]
  omega

/-- The last merge leaves one slot in use, slot 0, so its node is the root (R117). -/
theorem root_takeRoot_mergePair (hlast : a.k.toNat = 254) :
    (takeRoot (mergePair lo hi a)).root = mergeNode a.k := by
  have F' := mergePair_forest F hk hlo hhi hlt
  have hk' : (mergePair lo hi a).k.toNat = 255 := by rw [k_mergePair, toNat_succ_k hk, hlast]
  have hnode : (mergePair lo hi a).slotAt lo = mergeNode a.k := slotAt_mergePair_lo hlt
  have hzero : lo = 0 := only_slot_zero F' hk' lo (by rw [hnode]; exact mergeNode_ne_empty a.k hk)
  rw [root_takeRoot, ← hzero, hnode]

end

/-- Settles O29: a sound state's merge links two live slots (`mergeStep_spec`). Before the last one the step ends with
the merge's arena (`stepBuild_more`), in the last one the root is taken from it (`stepBuild_last`). -/
theorem mergeStepLinks : Obligations.MergeStepLinks := by
  intro s S hb hp hph
  obtain ⟨htick, F, hk, hw⟩ := sound_build S hb hp hph
  obtain ⟨i1, i2, h1, h2, hne, hlive1, hlive2, hstep⟩ := mergeStep_spec F hk
  have hlt := minByte_lt_maxByte hne
  have hcases := minByte_maxByte_cases i1 i2
  refine ⟨i1, i2, ?_⟩
  generalize minByte i1 i2 = lo at *
  generalize maxByte i1 i2 = hi at *
  have hlo : s.arena.slotAt lo ≠ emptySlot := by obtain ⟨rfl, -⟩ | ⟨rfl, -⟩ := hcases <;> assumption
  have hhi : s.arena.slotAt hi ≠ emptySlot := by obtain ⟨-, rfl⟩ | ⟨-, rfl⟩ := hcases <;> assumption
  have hsum : s.arena.weightAt (s.arena.slotAt lo) + s.arena.weightAt (s.arena.slotAt hi) =
      s.arena.weightAt (s.arena.slotAt i1) + s.arena.weightAt (s.arena.slotAt i2) := by
    obtain ⟨rfl, rfl⟩ | ⟨rfl, rfl⟩ := hcases
    · rfl
    · exact Nat.add_comm _ _
  have hother : ∀ j, j ≠ i1 → j ≠ i2 → (mergePair lo hi s.arena).slotAt j = s.arena.slotAt j := by
    intro j hj1 hj2
    obtain ⟨rfl, rfl⟩ | ⟨rfl, rfl⟩ := hcases
    · exact slotAt_mergePair_other hj1 hj2
    · exact slotAt_mergePair_other hj2 hj1
  have M := mergePair_merged hk hlo hhi hlt hw
  obtain hmore | hlast : s.arena.k.toNat < 254 ∨ s.arena.k.toNat = 254 := by omega
  · rw [stepBuild_more hmore hstep] at htick
    exact ⟨_, h1, h2, hne, htick, M.children, M.weight.trans hsum, M.record_lo, M.record_hi, M.count,
      fun _ => ⟨slotAt_mergePair_lo hlt, slotAt_mergePair_hi, liveSlots_mergePair F hk hlo hhi hlt, hother⟩,
      fun h254 => absurd h254 hmore.ne⟩
  · rw [stepBuild_last hlast hstep] at htick
    have M' := takeRoot_merged M
    exact ⟨_, h1, h2, hne, htick, M'.children, M'.weight.trans hsum, M'.record_lo, M'.record_hi, M'.count,
      fun h254 => absurd hlast h254.ne,
      fun _ => ⟨root_takeRoot_mergePair F hk hlo hhi hlt hlast, rfl,
        slotAt_takeRoot_last (mergePair_forest F hk hlo hhi hlt) (by rw [k_mergePair, toNat_succ_k hk, hlast])⟩⟩

end Sys2Proof.Machine

namespace Sys2Proof.Machine

/-! ### A rebuilt tree (R139) -/

/-- Reading and replaying a record of BUILD rebuilds its `LEFT`, `RIGHT` and `ROOT` (R139). -/
theorem readTree_rebuilds {a c : Arena} {p : StreamSel} {s s' : State} (hbuild : buildArena c = some a)
    (hhead : (portOf p s).ahead.take 510 = mseqList a)
    (hread : (deserRead p s).andThen deserReplay = .going s') :
    s'.arena.left = a.left ∧ s'.arena.right = a.right ∧ s'.arena.root = a.root := by
  have hlen : 510 ≤ (portOf p s).ahead.length := by
    rw [← mseqList_length a, ← hhead]
    exact List.length_take_le' 510 _
  obtain ⟨r, hr, hrecord, -⟩ := deserRead_spec hlen
  obtain ⟨g, hg, hkids⟩ := replay_build (a' := a) (s := { setPort p _ s with phase := _, arena := r, trace := _ }) hbuild
    (Vector.toList_inj.1 (hrecord.trans hhead))
  obtain rfl := Run.going.inj (hread.symm.trans ((andThen_going hr _).trans hg))
  exact hkids

/-- `ENCODE` ends with the tree BUILD makes of its counts and with that tree's code, and `OUT` begins with the record of
the tree (R131, R193). -/
theorem exec_encode_builds {s : State} (hr : Ready s) (hl : s.inp.ahead.length ≤ s.arena.maxInput) :
    ∃ t c, exec .encode s = .next t ∧ buildArena c = some t.arena ∧ Tree t.arena ∧ CodesOf t.arena t.table ∧
      t.out.take 510 = mseqList t.arena := by
  obtain ⟨hb, he, ho⟩ := hr
  obtain ⟨a, t, ph, tr, hbuild, C, hbody, -⟩ := bodyEncode_spec (s := accept .encode s) he ho hl
  obtain ⟨T, -⟩ := countBuild_arena (xs := s.inp.ahead) hl hbuild
  obtain ⟨hexec, -⟩ := exec_completes (i := .encode) hb hbody
  exact ⟨_, _, hexec, hbuild, T, C, List.take_left' (mseqList_length a)⟩

section
variable {a c : Arena} {s : State} (hbuild : buildArena c = some a) (hr : Ready s)
include hbuild hr

/-- `DECODE` of a record of BUILD completes with BUILD's tree (R139, R194). -/
theorem exec_decode_rebuilds (hhead : s.inp.ahead.take 510 = mseqList a) :
    ∃ u, exec .decode s = .next u ∧ Completed .decode u ∧
      u.arena.left = a.left ∧ u.arena.right = a.right ∧ u.arena.root = a.root := by
  obtain ⟨hb, he, ho⟩ := hr
  have hw : wellFormedTree (s.inp.ahead.take 510) = true := hhead ▸ build_record_accepted hbuild
  obtain ⟨_, _, _, -, -, -, -, ⟨s', hread, rfl⟩, hbody, -⟩ := bodyDecode_spec (s := accept .decode s) he ho hw
  obtain ⟨hexec, hdone⟩ := exec_completes (i := .decode) hb hbody
  have rebuilt := readTree_rebuilds (p := .inStream) (s := accept .decode s) hbuild hhead hread
  exact ⟨_, hexec, hdone, rebuilt⟩

/-- `ENCODE_EXT` with a record of BUILD completes with BUILD's tree and derives its code (R139, R195). -/
theorem exec_encodeExt_rebuilds (hhead : s.tree.ahead.take 510 = mseqList a) :
    ∃ u, exec .encodeExt s = .next u ∧ Completed .encodeExt u ∧ CodesOf u.arena u.table ∧
      u.arena.left = a.left ∧ u.arena.right = a.right ∧ u.arena.root = a.root := by
  obtain ⟨hb, he, ho⟩ := hr
  have hw : wellFormedTree (s.tree.ahead.take 510) = true := hhead ▸ build_record_accepted hbuild
  obtain ⟨_, _, _, _, -, C, -, -, -, ⟨s', hread, rfl⟩, hbody, -⟩ := bodyEncodeExt_spec (s := accept .encodeExt s) he ho hw
  obtain ⟨hexec, hdone⟩ := exec_completes (i := .encodeExt) hb hbody
  have rebuilt := readTree_rebuilds (p := .treeStream) (s := accept .encodeExt s) hbuild hhead hread
  exact ⟨_, hexec, hdone, C, rebuilt⟩

end

/-- Settles O56: what `ENCODE` wrote first is the record of its tree (`exec_encode_builds`), and both commands that
replay it rebuild that tree (`exec_decode_rebuilds`, `exec_encodeExt_rebuilds`), which has one code (`table_ext`). -/
theorem treeRebuiltExactly : Obligations.TreeRebuiltExactly := by
  intro s d e hs hl
  obtain ⟨t, c, hexec, hbuild, T, C, hheader⟩ := exec_encode_builds hs hl
  have hbegins : ∀ {xs : List Byte}, (∃ rest, xs = t.out.take 510 ++ rest) → xs.take 510 = mseqList t.arena := by
    rintro _ ⟨rest, rfl⟩
    rw [hheader]
    exact List.take_left' (mseqList_length _)
  refine ⟨t, hexec, fun hd hready => exec_decode_rebuilds hbuild hready (hbegins hd), fun he hready => ?_⟩
  obtain ⟨u, hexec', hdone, C', hleft, hright, hroot⟩ := exec_encodeExt_rebuilds hbuild hready (hbegins he)
  exact ⟨u, hexec', hdone, hleft, hright, hroot, table_ext T C C' hleft hright hroot⟩

/-! ### A tree encoding with a bad pair (R214, R215, R221) -/

/-- A command whose body raises an error aborts with it: no phase writes the status registers (`bodyOf_fix`), and the
final `STATUS` update writes the error and its `INFO` (R190, R220). -/
theorem exec_aborts {i : Instr} {s u : State} {e : ErrCode} {info : BitVec 16} (hb : busy s = false)
    (hbody : bodyOf i (accept i s) = .raised e info u) :
    exec i s = .next (raiseError e info u) ∧ Aborted i e info (raiseError e info u) := by
  have kept : (bodyOf i (accept i s)).Fix statusFields (statusFields (accept i s)) :=
    bodyOf_fix (by intros; rfl) i (accept i s)
  rw [hbody] at kept
  cases kept with
  | raised _ _ h =>
    obtain ⟨hovr, hop⟩ := ovr_lastOp_of_statusFields h
    exact ⟨by rw [exec_idle i hb, hbody]; rfl, rfl, rfl, rfl, hovr, hop.trans (opField_encode i), rfl⟩

/-- An error in reading or replaying the tree ends the command, whatever phases would have followed (R194, R195). -/
theorem bodyOf_readTree_raised {i : Instr} {p : StreamSel} {s u : State} {e : ErrCode} {info : BitVec 16}
    (hp : treePort i = some p) (h : (deserRead p s).andThen deserReplay = .raised e info u) :
    bodyOf i s = .raised e info u := by
  cases i with
  | buildTree => cases hp
  | encode => cases hp
  | decode => cases hp; exact andThen_raised h unpackPhase
  | encodeExt =>
    cases hp
    exact andThen_raised (andThen_raised (andThen_raised h serialize) derive) packPhase

/-- A command that reads a tree aborts at the first bad pair, with 510 bytes of its tree port read, the other port as it
was and nothing written (R137, R214, R215, R221). -/
theorem exec_tree_rejected {i : Instr} {p : StreamSel} {s : State} {h : List Byte} {k : Nat} (hp : treePort i = some p)
    (hb : busy s = false) (hhead : (portOf p s).ahead.take 510 = h) (hlen : h.length = 510) (hk : k < 255)
    (hgood : ∀ j, j < k → pairSlotsFull h j = true ∧ pairOrdered h j = true)
    (hbad : ¬ (pairSlotsFull h k = true ∧ pairOrdered h k = true)) :
    ∃ t, exec i s = .next t ∧
      Aborted i (if pairSlotsFull h k = false then .malformedEmptySlot else .malformedPairOrder)
        (BitVec.ofNat 16 k) t ∧
      t.out = [] ∧ t.inp = (setPort p (readPart 510 (portOf p s)) s).inp ∧
      t.tree = (setPort p (readPart 510 (portOf p s)) s).tree := by
  subst hhead
  have hport : portOf p (accept i s) = portOf p s := by cases p <;> rfl
  have hlong : 510 ≤ (portOf p s).ahead.length := hlen ▸ List.length_take_le' 510 _
  obtain ⟨a, hread⟩ := readTree_rejected (p := p) (s := accept i s) (k := k) (by rwa [hport]) hk
    (by rwa [hport]) (by rwa [hport])
  obtain ⟨hexec, habort⟩ := exec_aborts hb (bodyOf_readTree_raised hp hread)
  rw [hport] at hexec habort
  refine ⟨_, hexec, habort, ?_, ?_, ?_⟩ <;> cases p <;> rfl

/-- Settles O44: `DECODE` and `ENCODE_EXT` are the two commands that read a tree (`exec_tree_rejected`), the one from
`IN` and the other from `TREE`. -/
theorem firstBadPairReported : Obligations.FirstBadPairReported := by
  intro h k hlen hk hgood hbad
  constructor
  · intro s hb hhead
    exact exec_tree_rejected (i := .decode) (p := .inStream) rfl hb hhead hlen hk hgood hbad
  · intro s hb hhead
    obtain ⟨t, hexec, habort, hout, hinp, htree⟩ :=
      exec_tree_rejected (i := .encodeExt) (p := .treeStream) rfl hb hhead hlen hk hgood hbad
    exact ⟨t, hexec, habort, hout, htree, hinp⟩

end Sys2Proof.Machine

namespace Sys2Proof.Machine

/-! ### The code of a tree (R150, R153 to R156) -/

section
variable {a : Arena} {t : CodeTable} (C : CodesOf a t)
include C

/-- The code of a byte value is the only path from the root to its leaf, and its stored length is its own, 1 to 255
(R150, R153). -/
theorem codes_are_paths (T : Tree a) (v : Byte) :
    (∀ p, follow a a.root p = some (leafNode v) ↔ p = t.codeAt v) ∧
      (t.lenAt v).toNat = (t.codeAt v).length ∧ 1 ≤ (t.lenAt v).toNat ∧ (t.lenAt v).toNat ≤ 255 := by
  obtain ⟨hpath, hlen, hpos, hmax⟩ := C v
  rw [hlen]
  exact ⟨fun p => ⟨fun hp => T.once v p _ hp hpath, fun hp => hp ▸ hpath⟩, rfl, hpos, hmax⟩

/-- A code that is a prefix of another is the same byte value's (R154). -/
theorem codes_prefix_free (u v : Byte) (h : t.codeAt u <+: t.codeAt v) : u = v := by
  obtain ⟨r, hr⟩ := h
  exact (codes_separate C hr.symm).symm

/-- A proper prefix of a code leads to an internal node, since no path goes on from a leaf (R154). -/
theorem proper_prefix_internal (v : Byte) (n : Nat) (h : n < (t.codeAt v).length) :
    ∃ m, follow a a.root ((t.codeAt v).take n) = some m ∧ isLeaf m = false := by
  have hpath := (C v).1
  rw [← List.take_append_drop n (t.codeAt v), follow_append] at hpath
  obtain ⟨m, hm, hrest⟩ := Option.bind_eq_some_iff.1 hpath
  refine ⟨m, hm, Bool.eq_false_iff.2 fun hleaf => ?_⟩
  obtain ⟨hnil, -⟩ := follow_leaf ((isLeaf_iff m).1 hleaf) hrest
  exact absurd (List.drop_eq_nil_iff.1 hnil) h.not_ge

/-- The Kraft sum over the stored lengths (R155). -/
theorem kraft_sum_lenAt (T : Tree a) : ∑ v : Byte, 2 ^ (255 - (t.lenAt v).toNat) = 2 ^ 255 := by
  calc ∑ v : Byte, 2 ^ (255 - (t.lenAt v).toNat)
    _ = ∑ v : Byte, 2 ^ (255 - (t.codeAt v).length) :=
      Finset.sum_congr rfl fun v _ => by rw [(C v).2.1]
    _ = 2 ^ 255 := kraft_sum T C

/-- Some stored length is 8 or more (R156). -/
theorem long_lenAt : ∃ v, 8 ≤ (t.lenAt v).toNat := by
  obtain ⟨v, hv⟩ := long_code C
  obtain ⟨-, hlen, -⟩ := C v
  exact ⟨v, hlen ▸ hv⟩

end

/-- Settles O48: DERIVE makes the code of the tree (`derive_spec`), and such a code has each of the properties, the
padding search's among them (`padChoice_some`). -/
theorem deriveFillsTable : Obligations.DeriveFillsTable := by
  intro s T
  obtain ⟨t, hrun, C⟩ := derive_spec T
  refine ⟨t, hrun, codes_are_paths C T, codes_prefix_free C, proper_prefix_internal C, kraft_sum_lenAt C T,
    long_lenAt C, fun need hneed => ?_⟩
  obtain ⟨v, hv, -⟩ := padChoice_some C hneed
  exact ⟨v, hv⟩

/-- Settles O49: both commands end with a finished tree and its code (`encodesTo_of_codes`), whose entries are the
paths (`codes_are_paths`). -/
theorem codesArePaths : Obligations.CodesArePaths :=
  fun _ hr => encodesTo_of_codes hr fun _ T C => codes_are_paths C T

/-- Settles O50: both commands end with a finished tree and its code (`encodesTo_of_codes`), which is prefix-free
(`codes_prefix_free`, `proper_prefix_internal`). -/
theorem codesArePrefixFree : Obligations.CodesArePrefixFree :=
  fun _ hr => encodesTo_of_codes hr fun _ _ C => ⟨codes_prefix_free C, proper_prefix_internal C⟩

/-- Settles O51: both commands end with a finished tree and its code (`encodesTo_of_codes`), whose Kraft sum is exact
(`kraft_sum_lenAt`). -/
theorem kraftEquality : Obligations.KraftEquality :=
  fun _ hr => encodesTo_of_codes hr fun _ T C => kraft_sum_lenAt C T

/-- Settles O52: both commands end with a finished tree and its code (`encodesTo_of_codes`), in which some code is long
(`long_lenAt`). -/
theorem someCodeIsLong : Obligations.SomeCodeIsLong :=
  fun _ hr => encodesTo_of_codes hr fun _ _ C => long_lenAt C

end Sys2Proof.Machine

namespace Sys2Proof.Machine

/-! ### Decoding inverts packing (R139, R185) -/

/-- Two machines that read and replay one record, from whichever ports, end with the same tree (R139). -/
theorem readTree_same {p q : StreamSel} {s s' u u' : State} (hlen : 510 ≤ (portOf p s).ahead.length)
    (hrecord : (portOf q s').ahead.take 510 = (portOf p s).ahead.take 510)
    (hread : (deserRead p s).andThen deserReplay = .going u)
    (hread' : (deserRead q s').andThen deserReplay = .going u') : SameTree u.arena u'.arena := by
  have hlen' : 510 ≤ (portOf q s').ahead.length := by
    rw [← List.length_take_of_le hlen, ← hrecord]
    exact List.length_take_le' 510 _
  obtain ⟨a, hr, hm, -⟩ := deserRead_spec hlen
  obtain ⟨a', hr', hm', -⟩ := deserRead_spec hlen'
  have hmseq : a'.mseq = a.mseq := Vector.toList_inj.1 (hm'.trans (hrecord.trans hm.symm))
  refine deserReplay_same ?_ ((andThen_going hr _).symm.trans hread) ((andThen_going hr' _).symm.trans hread')
  exact hmseq

/-- `DECODE` of an accepted header that rebuilds a tree, and of a payload packed under that tree's code, completes with
`OUT` equal to the packed input (R185, R194). -/
theorem exec_decode_payload {a : Arena} {t : CodeTable} {xs : List Byte} {d : State} (C : CodesOf a t) (hr : Ready d)
    (hw : wellFormedTree (d.inp.ahead.take 510) = true) (hpayload : d.inp.ahead.drop 510 = payload t xs)
    (rebuilds : ∀ u, (deserRead .inStream (accept .decode d)).andThen deserReplay = .going u →
      u.arena.left = a.left ∧ u.arena.right = a.right ∧ u.arena.root = a.root) :
    ∃ w, exec .decode d = .next w ∧ Completed .decode w ∧ w.out = xs := by
  obtain ⟨hb, he, ho⟩ := hr
  obtain ⟨_, _, _, -, -, -, -, ⟨u, hread, rfl⟩, hbody, -⟩ := bodyDecode_spec (s := accept .decode d) he ho hw
  obtain ⟨hleft, hright, hroot⟩ := rebuilds u hread
  obtain ⟨hexec, hdone⟩ := exec_completes (i := .decode) hb hbody
  refine ⟨_, hexec, hdone, ?_⟩
  calc symbols u.arena u.arena.root ((d.inp.ahead.drop 510).flatMap bits8)
    _ = symbols a a.root ((payload t xs).flatMap bits8) := by
      rw [hpayload, hroot, symbols_ext hleft hright hroot]
    _ = xs := symbols_payload C xs

/-- Settles O59: `ENCODE_EXT` writes the record it has read and the payload under that record's tree
(`bodyEncodeExt_spec`), `DECODE` rebuilds the same tree (`readTree_same`), and under it the payload reads back as the
input (`exec_decode_payload`). -/
theorem anyTreeRoundTrip : Obligations.AnyTreeRoundTrip := by
  intro e ⟨hb, he, ho⟩ hw
  obtain ⟨hrecord, -⟩ := (wellFormedTree_iff _).1 hw
  obtain ⟨_, t, _, _, -, C, -, -, -, ⟨u, hread, rfl⟩, hbody, -⟩ :=
    bodyEncodeExt_spec (s := accept .encodeExt e) he ho hw
  obtain ⟨hexec, hdone⟩ := exec_completes (i := .encodeExt) hb hbody
  refine ⟨_, hexec, hdone, fun d hready hout => ?_⟩
  replace hout : d.inp.ahead = e.tree.ahead.take 510 ++ payload t e.inp.ahead := hout
  have hhead : d.inp.ahead.take 510 = e.tree.ahead.take 510 := by rw [hout, List.take_left' hrecord]
  have hpayload : d.inp.ahead.drop 510 = payload t e.inp.ahead := by rw [hout, List.drop_left' hrecord]
  refine exec_decode_payload C hready (hhead ▸ hw) hpayload fun v hread' => ?_
  obtain ⟨-, -, same⟩ : SameTree u.arena v.arena :=
    readTree_same (p := .treeStream) (q := .inStream) (s := accept .encodeExt e) (s' := accept .decode d)
      (hrecord ▸ List.length_take_le' 510 _) hhead hread hread'
  exact same

/-! ### The padding search (R165, R216) -/

/-- A sound state that may come to pad has the code of a tree in its table (R150, R163). -/
theorem sound_codes {s : State} (S : Sound s) (hb : busy s = true) (hp : s.pend = none)
    (hph : s.phase = .derive ∨ s.phase = .pack ∨ s.phase = .pad) : CodesOf s.arena s.table := by
  obtain ⟨-, ok⟩ := sound_running S hb hp
  rw [PhaseOk] at ok
  obtain hph | hph | hph := hph <;> rw [hph] at ok
  · obtain ⟨-, C⟩ := ok; exact C
  · obtain ⟨-, C, -⟩ := ok; exact C
  · obtain ⟨-, C, -⟩ := ok; exact C

/-- The error a command's big step shows is the one shown before its body ran, or one that the body may raise. -/
theorem conclude_err {r : Run} {t : State} {go : State → Prop} {bad : ErrCode → Prop} {e : ErrCode}
    (hfix : r.Fix State.err e) (hpost : r.Post go bad) (h : conclude r = .next t) : t.err = e ∨ bad t.err := by
  cases hfix with
  | going he => cases h; exact .inl he
  | waiting he => cases h; exact .inl he
  | raised c i _ =>
    cases h
    cases hpost with | raised _ _ hbad => exact .inr hbad
  | ended he => cases h; exact .inl he
  | broken f => cases h

/-- Settles O53: where a command may come to pad the table is a tree's code (`sound_codes`), in which the search finds a
byte value (`padChoice_some`); `Sound`, which every step keeps, says that the error is neither shown nor waits; and no
body raises it (`bodyOf_post`). -/
theorem paddingNeverFails : Obligations.PaddingNeverFails := by
  refine ⟨fun s S hb hp hph need hneed => ?search, fun s t S h => ?step, fun i s t hb h => ?exec⟩
  case search =>
    obtain ⟨v, hv, -⟩ := padChoice_some (sound_codes S hb hp hph) hneed
    exact ⟨v, hv⟩
  case step =>
    obtain ⟨u, hu, U⟩ := soundNeverFaults s S
    cases h.symm.trans hu
    exact U.no_pad_error
  case exec =>
    rw [exec_idle i hb] at h
    have kept : (bodyOf i (accept i s)).Fix State.err .none := bodyOf_fix (by intros; rfl) i (accept i s)
    obtain hnone | ⟨hpad, -⟩ := conclude_err kept (bodyOf_post i (accept i s)) h
    · rw [hnone]; decide
    · exact hpad

end Sys2Proof.Machine

namespace Sys2Proof.Machine

/-! ### DECODE completes (R180, R182, R183, R194) -/

/-- Settles O38: the body of `DECODE` runs to its end (`bodyDecode_spec`), the replay leaving a full tree and UNPACK
writing what the bits after the header spell in it, to `OUT` as acceptance has emptied it. -/
theorem decodeCompletes : Obligations.DecodeCompletes := by
  intro s ⟨hb, he, ho⟩ hw
  obtain ⟨a, c, tr, T, -, -, -, -, hbody, -⟩ := bodyDecode_spec (s := accept .decode s) he ho hw
  obtain ⟨hexec, hdone⟩ := exec_completes (i := .decode) hb hbody
  exact ⟨_, hexec, hdone, T, rfl, rfl, rfl⟩

end Sys2Proof.Machine

namespace Sys2Proof.Machine

/-! ### Trees and payloads end to end (R197 to R199) -/

/-- `DECODE` of a record of BUILD, and of a payload packed under the code of BUILD's tree, completes with `OUT` equal to
the packed input (R139, R185, R194). -/
theorem exec_decode_built {a c : Arena} {t : CodeTable} {xs : List Byte} {d : State} (hbuild : buildArena c = some a)
    (C : CodesOf a t) (hr : Ready d) (hin : d.inp.ahead = mseqList a ++ payload t xs) :
    ∃ u, exec .decode d = .next u ∧ Completed .decode u ∧ u.out = xs := by
  have hhead : d.inp.ahead.take 510 = mseqList a := by rw [hin, List.take_left' (mseqList_length a)]
  have hpayload : d.inp.ahead.drop 510 = payload t xs := by rw [hin, List.drop_left' (mseqList_length a)]
  have hw : wellFormedTree (d.inp.ahead.take 510) = true := hhead ▸ build_record_accepted hbuild
  exact exec_decode_payload C hr hw hpayload fun _ hread =>
    readTree_rebuilds (p := .inStream) (s := accept .decode d) hbuild hhead hread

/-- Settles O57: `ENCODE` writes the record of the tree it builds and the payload of all of `IN` under that tree's code
(`bodyEncode_spec`), which `DECODE` reads back (`exec_decode_built`). -/
theorem roundTrip : Obligations.RoundTrip := by
  intro s ⟨hb, he, ho⟩ htaken hl
  obtain ⟨a, t, ph, tr, hbuild, C, hbody, -⟩ := bodyEncode_spec (s := accept .encode s) he ho hl
  obtain ⟨hexec, hdone⟩ := exec_completes (i := .encode) hb hbody
  refine ⟨_, hexec, hdone, fun d hready hin => exec_decode_built hbuild C hready ?_⟩
  calc d.inp.ahead
    _ = mseqList a ++ payload t (s.inp.taken ++ s.inp.ahead) := hin
    _ = mseqList a ++ payload t s.inp.ahead := by rw [htaken, List.nil_append]

/-- Settles O58: what `BUILD_TREE` writes is an accepted tree encoding of 510 bytes (`buildTreeCompletes`), and any such
tree serves `ENCODE_EXT` and `DECODE` for any data (`anyTreeRoundTrip`). -/
theorem treeReuseRoundTrip : Obligations.TreeReuseRoundTrip := by
  intro s hr hl
  obtain ⟨t, hexec, hdone, -, hlen, hw, -⟩ := buildTreeCompletes s hr hl
  refine ⟨t, hexec, hdone, fun e hready htree => anyTreeRoundTrip e hready ?_⟩
  rwa [htree, List.take_of_length_le hlen.le]

/-- The counts of one input make one record of BUILD in all machines of one width, whatever their arenas held before
(R119, R199). -/
theorem record_of_counts {a a' b b' : Arena} {xs : List Byte} (hw : a'.weightWidth = a.weightWidth)
    (hl : xs.length ≤ a.maxInput) (h : buildArena (countAll (clearWeights a) xs) = some b)
    (h' : buildArena (countAll (clearWeights a') xs) = some b') : mseqList b' = mseqList b := by
  obtain ⟨c, c', hc, hc', hmseq, -⟩ := buildArena_alike (by simp only [width_countAll, width_clearWeights, hw])
    (leafCounts_perm hw hl (.refl xs))
  obtain rfl : c = b := Option.some.inj (hc.symm.trans h)
  obtain rfl : c' = b' := Option.some.inj (hc'.symm.trans h')
  rw [mseqList, mseqList, hmseq]

/-- Settles O39: both commands build from the counts of the same input (`exec_buildTree_writes`, `exec_builds_counts`),
so `ENCODE`'s header, the record of its tree (`exec_encode_builds`), is `BUILD_TREE`'s (`record_of_counts`). -/
theorem headerIsTreeFile : Obligations.HeaderIsTreeFile := by
  intro s s' hr hr' hw hinp hl
  have hl' : s'.inp.ahead.length ≤ s'.arena.maxInput := by
    rw [hinp, Arena.maxInput, hw]
    exact hl
  obtain ⟨t, b, hexec, hbuild, hout⟩ := exec_buildTree_writes hr hl
  obtain ⟨t', -, hexec', -, -, -, hheader⟩ := exec_encode_builds hr' hl'
  obtain ⟨u, hexec'', hbuild'⟩ := exec_builds_counts (.inr rfl) hr' hl'
  cases hexec''.symm.trans hexec'
  rw [hinp] at hbuild'
  exact ⟨t, t', hexec, hexec', by rw [hheader, hout, record_of_counts hw hl hbuild hbuild']⟩

/-! ### `CMD` writes (R190, R191, R218) -/

/-- A word with `RSVD` set or a reserved `OP` is not legal (R74 to R76). -/
theorem not_wellFormedWord {c : Word}
    (h : c.extractLsb' 8 24 ≠ 0#24 ∨ c.extractLsb' 0 8 ∉ [0x01#8, 0x02#8, 0x03#8, 0x04#8]) :
    wellFormedWord c = false := by
  rw [wellFormedWord, Bool.and_eq_false_iff]
  refine h.imp (fun hrsvd => ?_) fun hop => ?_
  · rwa [reservedClear, beq_eq_false_iff_ne]
  · rwa [opcodeLegal, List.contains_eq_mem, decide_eq_false_iff_not]

/-- Settles O3: such a word is not legal (`not_wellFormedWord`), so its write is refused (`step_write`), and what
`rejectWrite` sets and leaves alone is read off. -/
theorem illegalWordAborts : Obligations.IllegalWordAborts := by
  intro s c rest hwrite hb hbad
  obtain ⟨hbusy, -⟩ | ⟨-, -, hstep⟩ | ⟨-, hlegal, -⟩ := step_write hwrite
  · cases hb.symm.trans hbusy
  · exact ⟨_, hstep, rfl, rfl, rfl, rfl, rfl, rfl, rfl, rfl, rfl, rfl, rfl, rfl, rfl, rfl, rfl, rfl, rfl⟩
  · cases (not_wellFormedWord hbad).symm.trans hlegal

/-- Settles O7: a write while `BUSY` is dropped, as a host action (`step_write`) and as a command run (`exec_busy`). -/
theorem busyWriteIsDropped : Obligations.BusyWriteIsDropped := by
  refine ⟨fun s c rest hwrite hb => ?_, fun s i hb => exec_busy i hb⟩
  obtain ⟨-, hstep⟩ | ⟨hidle, -⟩ | ⟨hidle, -⟩ := step_write hwrite
  · exact hstep
  · cases hb.symm.trans hidle
  · cases hb.symm.trans hidle

/-- Entering a command's first phase sets `PHASE` to it (R24, R196). -/
theorem phase_enterFirst (i : Instr) (s : State) : (phasesOf i).head? = some (enterFirst i s).phase := by
  cases i <;> rfl

/-- Entering a command's first phase sets `PHASE` and writes the arena, and nothing else (R102, R133). -/
theorem enterFirst_frame (i : Instr) (s : State) :
    enterFirst i s = { s with phase := (enterFirst i s).phase, arena := (enterFirst i s).arena } := by
  cases i <;> rfl

/-- A legal word written to `CMD` as a small step starts its command (R190, R247). -/
theorem step_cmdWrite {s : State} {c : Word} {i : Instr} {rest : List HostAct} (hwrite : s.host = .cmdWrite c :: rest)
    (hb : busy s = false) (hd : decode c = .ok i) : step s = .next (start i { s with host := rest }) := by
  have hidle : busy { s with host := rest } = false := hb
  simp only [step, hostStep, hwrite, hostAct, writeCmd, hidle, hd, Bool.false_eq_true, if_false]

/-- Settles O5: a legal word written as a small step starts its command (`step_cmdWrite`): `accept` sets the registers
and empties `OUT` and the trace, and the entry into the first phase adds `PHASE` (`phase_enterFirst`) and leaves them as
they are (`enterFirst_frame`). -/
theorem acceptanceSetsRegisters : Obligations.AcceptanceSetsRegisters := by
  intro s c i rest hwrite hb hd
  have hop : (encode i).extractLsb' 0 8 = c.extractLsb' 0 8 := by rw [eq_encode_of_decode hd]
  rw [step_cmdWrite hwrite hb hd, start, enterFirst_frame]
  exact ⟨_, rfl, rfl, rfl, rfl, rfl, hop, rfl, phase_enterFirst i _, rfl, rfl, rfl, rfl, rfl, rfl⟩

end Sys2Proof.Machine

namespace Sys2Proof.Machine

/-! ### What a command shows, whatever ran before (R47, R242) -/

/-- The streams and registers a host can see, one by one (R43, R51). -/
theorem visible_iff {s s' : State} : visible s' = visible s ↔
    s'.inp = s.inp ∧ s'.tree = s.tree ∧ s'.out = s.out ∧ s'.outReady = s.outReady ∧ s'.trace = s.trace ∧
      s'.status = s.status ∧ s'.ovr = s.ovr ∧ s'.err = s.err ∧ s'.lastOp = s.lastOp ∧ s'.info = s.info := by
  simp only [visible, Prod.mk.injEq]

/-- Acceptance writes the same registers in all states, so only the ports need to be the same before it (R190). -/
theorem visible_accept (i : Instr) {s s' : State} (hinp : s'.inp = s.inp) (htree : s'.tree = s.tree)
    (hready : s'.outReady = s.outReady) : visible (accept i s') = visible (accept i s) :=
  visible_iff.2 ⟨hinp, htree, rfl, hready, rfl, rfl, rfl, rfl, rfl, rfl⟩

/-- The end of a command shows the same in states that show the same (R56, R190). -/
theorem visible_settle (e : EngState) {s s' : State} (h : visible s' = visible s) :
    visible (settle e s') = visible (settle e s) := by
  rw [visible_iff] at h ⊢
  simp [h]

/-- The end by an error shows the same in states that show the same (R220). -/
theorem visible_raiseError (e : ErrCode) (info : BitVec 16) {s s' : State} (h : visible s' = visible s) :
    visible (raiseError e info s') = visible (raiseError e info s) := by
  refine visible_settle .error ?_
  rw [visible_iff] at h ⊢
  simp [h]

/-- Two stretches that end alike conclude in states that show the same. -/
theorem conclude_twin {D : WorkRel} {r r' : Run} (h : r.Twin D r') :
    ∃ t t', conclude r = .next t ∧ conclude r' = .next t' ∧ visible t' = visible t := by
  cases h with
  | going h _ => exact ⟨_, _, rfl, rfl, visible_settle .done h⟩
  | waiting h => exact ⟨_, _, rfl, rfl, h⟩
  | raised e info h => exact ⟨_, _, rfl, rfl, visible_raiseError e info h⟩
  | ended h => exact ⟨_, _, rfl, rfl, visible_settle .done h⟩

/-- Settles O60: acceptance makes the two states show the same (`visible_accept`), the body does the same from both
(`bodyOf_twin`), and so does the command's end (`conclude_twin`). -/
theorem commandsForgetHistory : Obligations.CommandsForgetHistory := by
  intro i s s' hb hb' hw hinp htree hready
  obtain ⟨t, t', ht, ht', hv⟩ := conclude_twin (bodyOf_twin i (s := accept i s) (s' := accept i s') hw
    (visible_accept i hinp htree hready))
  obtain ⟨hinp, htree, hout, -, htrace, hstatus, hovr, herr, hop, hinfo⟩ := visible_iff.1 hv
  exact ⟨t, t', by rw [exec_idle i hb, ht], by rw [exec_idle i hb', ht'], hout, htrace,
    by simp only [statusWord, hstatus, hovr, herr, hop], by rw [errinfoWord, hinfo, errinfoWord], hinp, htree⟩

/-! ### Errors of a command (R213, R220, R221) -/

/-- A command whose tree port ends too soon aborts with the count, that port read to its end, the other as it was and
nothing written (R133, R213, R221). -/
theorem exec_tree_truncated {i : Instr} {p : StreamSel} {s : State} (hp : treePort i = some p) (hb : busy s = false)
    (hshort : (portOf p s).ahead.length < 510) (he : (portOf p s).ended = true) :
    ∃ t, exec i s = .next t ∧ Aborted i .truncatedTree (BitVec.ofNat 16 (portOf p s).ahead.length) t ∧
      t.out = [] ∧ t.inp = (setPort p (readOut (portOf p s)) s).inp ∧
      t.tree = (setPort p (readOut (portOf p s)) s).tree := by
  have hport : portOf p (accept i s) = portOf p s := by cases p <;> rfl
  obtain ⟨a, tr, hread⟩ := readTree_truncated (p := p) (s := accept i s) (by rwa [hport]) (by rwa [hport])
  obtain ⟨hexec, habort⟩ := exec_aborts hb (bodyOf_readTree_raised hp hread)
  rw [hport] at hexec habort
  refine ⟨_, hexec, habort, ?_, ?_, ?_⟩ <;> cases p <;> rfl

/-- Settles O43: `DECODE` and `ENCODE_EXT` are the two commands that read a tree (`exec_tree_truncated`), the one from
`IN` and the other from `TREE`. -/
theorem truncatedTreeReported : Obligations.TruncatedTreeReported := by
  constructor
  · intro s hb hshort he
    exact exec_tree_truncated (i := .decode) (p := .inStream) rfl hb hshort he
  · intro s hb hshort he
    obtain ⟨t, hexec, habort, hout, hinp, htree⟩ :=
      exec_tree_truncated (i := .encodeExt) (p := .treeStream) rfl hb hshort he
    exact ⟨t, hexec, habort, hout, htree, hinp⟩

/-- The stretch never breaks; it goes on only with `go`, and where it raises an error `OUT` is `c`. -/
inductive Run.FailsUnwritten (c : List Byte) (go : State → Prop) : Run → Prop where
  | going {s : State} (h : go s) : Run.FailsUnwritten c go (.going s)
  | waiting (s : State) : Run.FailsUnwritten c go (.waiting s)
  | raised {s : State} (e : ErrCode) (info : BitVec 16) (h : s.out = c) :
    Run.FailsUnwritten c go (.raised e info s)
  | ended (s : State) : Run.FailsUnwritten c go (.ended s)

section
variable {c : List Byte} {go go' : State → Prop} {bad : ErrCode → Prop} {r : Run}

/-- A stretch that leaves `OUT` alone fails unwritten, whatever it raises. -/
theorem failsUnwritten_of_fix (hp : r.Post go bad) (hout : r.Fix State.out c) : r.FailsUnwritten c go := by
  cases hp with
  | going h => exact .going h
  | waiting s => exact .waiting s
  | raised i s _ => cases hout with | raised _ _ h => exact .raised _ i h
  | ended s => exact .ended s

/-- A stretch that raises nothing may write. -/
theorem failsUnwritten_of_quiet (hp : r.Post go fun _ => False) : r.FailsUnwritten c go := by
  cases hp with
  | going h => exact .going h
  | waiting s => exact .waiting s
  | raised _ _ h => exact h.elim
  | ended s => exact .ended s

/-- After a stretch that fails unwritten, one that raises nothing may write. -/
theorem failsUnwritten_andThen {g : State → Run} (h : r.FailsUnwritten c go)
    (hg : ∀ s, go s → (g s).Post go' fun _ => False) : (r.andThen g).FailsUnwritten c go' := by
  cases h with
  | going hs => exact failsUnwritten_of_quiet (hg _ hs)
  | waiting s => exact .waiting s
  | raised e info h => exact .raised e info h
  | ended s => exact .ended s

end

/-- SERIALIZE keeps the tree and raises nothing (R130). -/
theorem serialize_keepsTree {s : State} (T : Tree s.arena) :
    (serialize s).Post (fun t => Tree t.arena) fun _ => False :=
  post_mono (post_fix (serialize_post s) (serialize_fix (f := State.arena) (by intros; rfl) s))
    (fun _ ⟨_, ht⟩ => ht ▸ T) fun _ h => h

/-- Counting and building leave `OUT` alone where they fail (R100, R110). -/
theorem countBuild_failsUnwritten (s : State) :
    ((accumulate s).andThen buildPhase).FailsUnwritten s.out fun t => Tree t.arena :=
  failsUnwritten_andThen (failsUnwritten_of_fix (accumulate_post s) (accumulate_fix (by intros; rfl) s))
    fun t _ => buildPhase_post t

/-- Reading a tree from either port and replaying it leave `OUT` alone (R133, R134). -/
theorem readTree_failsUnwritten (p : StreamSel) (s : State) :
    ((deserRead p s).andThen deserReplay).FailsUnwritten s.out fun t => Tree t.arena := by
  have untouched : ((deserRead p s).andThen deserReplay).Fix State.out s.out :=
    fix_seq (deserRead_fix (by cases p <;> (intros; rfl)) s) (deserReplay_fix (by intros; rfl))
  refine failsUnwritten_of_fix (bad := fun _ => True) (post_andThen (go := fun _ => True) ?_ fun t _ => ?_) untouched
  · exact post_mono (deserRead_post p s) (fun _ h => h) fun _ _ => trivial
  · exact post_mono (deserReplay_post t) (fun _ h => h) fun _ _ => trivial

/-- Once a tree is there, writing it and deriving its code raise nothing (R130, R151). -/
theorem header_failsUnwritten {c : List Byte} {r : Run} (h : r.FailsUnwritten c fun t => Tree t.arena) :
    ((r.andThen serialize).andThen derive).FailsUnwritten c fun t => CodesOf t.arena t.table :=
  failsUnwritten_andThen (failsUnwritten_andThen h fun _ T => serialize_keepsTree T) fun _ T => derive_post T

/-- A body raises its errors before it writes: in the first pass over the input, or while the tree is read and
replayed (R220, R221). -/
theorem bodyOf_failsUnwritten (i : Instr) (s : State) : (bodyOf i s).FailsUnwritten s.out fun _ => True := by
  cases i with
  | buildTree => exact failsUnwritten_andThen (countBuild_failsUnwritten s) fun t _ => serialize_post t
  | encode =>
    exact failsUnwritten_andThen (header_failsUnwritten (countBuild_failsUnwritten s))
      fun t C => packPhase_post (s := inRewind t) C
  | decode => exact failsUnwritten_andThen (readTree_failsUnwritten _ s) fun t _ => unpackPhase_post t
  | encodeExt =>
    exact failsUnwritten_andThen (header_failsUnwritten (readTree_failsUnwritten _ s)) fun t C => packPhase_post C

/-- Settles O47: a command answers with `ERROR` only where its body raises an error, and there `OUT` is as acceptance
has emptied it (`bodyOf_failsUnwritten`). -/
theorem errorsWriteNothing : Obligations.ErrorsWriteNothing := by
  intro i s t hb h herror
  rw [exec_idle i hb] at h
  have unwritten := bodyOf_failsUnwritten i (accept i s)
  have status := bodyOf_fix (f := State.status) (by intros; rfl) i (accept i s)
  generalize bodyOf i (accept i s) = r at unwritten status h
  cases unwritten with
  | going _ => cases h; cases herror
  | waiting u =>
    cases h
    cases status with | waiting hbusy => cases hbusy.symm.trans herror
  | raised e info hout => cases h; exact hout
  | ended u => cases h; cases herror

/-! ### Port calls of whole commands (R252) -/

/-- A command whose body runs to its end has made the port calls of its body: acceptance starts the trace anew, and the
final `STATUS` update is none (R56, R190, R252). -/
theorem exec_portCalls {i : Instr} {s u : State} {tr : List PortEvent} (hb : busy s = false)
    (hbody : bodyOf i (accept i s) = .going u) (htr : u.trace = tr ++ (accept i s).trace) :
    exec i s = .next (finish u) ∧ portCalls (finish u).trace =
      (inReads tr).length + (treeReads tr).length + rewinds tr + (outBytes tr).length := by
  have hu : u.trace = tr := by rw [htr, trace_accept, List.append_nil]
  obtain ⟨hexec, -⟩ := exec_completes hb hbody
  refine ⟨hexec, ?_⟩
  rw [← portCalls_eq, ← hu]
  rfl

/-- Settles O42: the reads, rewinds and writes of the bodies of `ENCODE` (`bodyEncode_spec`), whose output is a header
and a payload (`header_payload_length`), and of `DECODE` (`bodyDecode_spec`), added up (`exec_portCalls`). -/
theorem portCallCounts : Obligations.PortCallCounts := by
  refine ⟨fun s ⟨hb, he, ho⟩ hl htaken => ?encode, fun s ⟨hb, he, ho⟩ hw => ?decode⟩
  case encode =>
    obtain ⟨a, t, _, tr, -, C, hbody, hins, htrees, hn, houts⟩ := bodyEncode_spec (s := accept .encode s) he ho hl
    obtain ⟨hexec, hcalls⟩ := exec_portCalls (i := .encode) hb hbody rfl
    refine ⟨_, hexec, hcalls.trans ?_⟩
    have hlen := header_payload_length C (mseqList_length a) s.inp.ahead
    rw [hins, htrees, hn, houts, inp_accept, htaken, List.nil_append, hlen]
    simp only [List.length_append, List.length_map, List.length_singleton, List.length_nil, table_finish]
    omega
  case decode =>
    obtain ⟨a, _, tr, -, -, -, -, -, hbody, hadds⟩ := bodyDecode_spec (s := accept .decode s) he ho hw
    obtain ⟨hexec, hcalls⟩ := exec_portCalls (i := .decode) hb hbody rfl
    refine ⟨_, hexec, hcalls.trans ?_⟩
    rw [hadds.ins_eq, hadds.trees_eq, hadds.rewinds_eq, hadds.outs_eq]
    simp

/-! ### Idle, reset and the `STATUS` read (R233, R240, R241, R250) -/

/-- Settles O12: with no host action pending the step is the engine's own, which is none while no command runs. -/
theorem idleEngineWaits : Obligations.IdleEngineWaits := by
  intro s hb hhost
  have own : step s = engineStep s := by simp only [step, hostStep, hhost]
  rw [own, engineStep, hb, if_neg Bool.false_ne_true]

/-- Reset leaves `STATUS` and `ERRINFO` 0 (R240). -/
theorem statusWords_resetEngine (s : State) :
    statusWord (resetEngine s) = 0#32 ∧ errinfoWord (resetEngine s) = 0#32 :=
  ⟨(by decide : statusWord State.reset = 0#32), (by decide : errinfoWord State.reset = 0#32)⟩

/-- Settles O13: the step is `resetEngine` (`step_act`), which leaves both words 0 (`statusWords_resetEngine`) and the
ports as they are. -/
theorem resetAbandonsCommand : Obligations.ResetAbandonsCommand := by
  intro s rest hhost
  obtain ⟨hstatus, hinfo⟩ := statusWords_resetEngine { s with host := rest }
  exact ⟨_, step_act hhost, hstatus, hinfo, rfl, rfl, rfl, rfl, rfl, rfl⟩

/-- What a `CMD` write as a small step answers while no command runs: the rest of the queue is as it was, and `STATE` is
`BUSY` for a legal word and `ERROR` for any other (R190, R247). -/
theorem step_cmdWrite_status {s : State} {c : Word} {rest : List HostAct} (hwrite : s.host = .cmdWrite c :: rest)
    (hb : busy s = false) :
    ∃ t, step s = .next t ∧ t.host = rest ∧ t.status = if wellFormedWord c then .busy else .error := by
  obtain ⟨hbusy, -⟩ | ⟨-, hlegal, hstep⟩ | ⟨-, hlegal, i, hd, -⟩ := step_write (.inl hwrite)
  · cases hb.symm.trans hbusy
  · exact ⟨_, hstep, rfl, by rw [hlegal]; rfl⟩
  · exact ⟨_, step_cmdWrite hwrite hb hd, by rw [start, enterFirst_frame]; rfl,
      by rw [hlegal, start, enterFirst_frame]; rfl⟩

/-- Settles O6: the write sets `STATE` (`step_cmdWrite_status`), which the low bits of the word read show
(`statusWord_fields`). -/
theorem statusReadAfterWrite : Obligations.StatusReadAfterWrite := by
  intro s c rest hhost hb
  obtain ⟨t, hwrite, hrest, hstatus⟩ := step_cmdWrite_status hhost hb
  obtain ⟨hstate, -⟩ := statusWord_fields { t with host := rest }
  refine ⟨t, _, _, hwrite, step_act hrest, rfl, hstate.trans ?_⟩
  show stateCode t.status = _
  rw [hstatus]
  split <;> rfl

end Sys2Proof.Machine
